-- ==== Sys2Proof/Word.lean ====
section
/-! DEFINITION. The word types of KF2-SPU: bytes, byte buffers and the exact rational numbers that carry the real-valued datapath (00_scope.md R9, R11). -/

namespace Sys2Proof

/-- An 8-bit byte (00_scope.md R9, `u8`). -/
abbrev Byte := BitVec 8

/-- A byte buffer: its bytes in order of rising offset (00_scope.md R10). -/
abbrev Bytes := List Byte

/-- The number format `NUM` of the real-valued datapath: exact rationals (00_scope.md R11).
DESIGN CHOICE, log entry 1. -/
abbrev NumQ := ℚ

end Sys2Proof
end

