-- ==== Sys2Proof/Config.lean ====
section
/-! DEFINITION. The constants of 00_scope.md R7 and its open parameters (R8): an open parameter is an opaque constant, so that nothing proved here rests on its value. -/

namespace Sys2Proof

/-- `SAMPLE_RATE` (00_scope.md R7). -/
def Config.sampleRate : NumQ := 44100

/-- One frame's time, the mixer's `dt` (43_pool_mixer.md R251). -/
def Config.frameTime : NumQ := 1 / 44100

/-- `REVERB_LEN`: 44100 times 0.35 (00_scope.md R7). -/
abbrev Config.reverbLen : Nat := 15435

/-- `SEQ_HEADER_LEN`, the entry point and the loop target of a stream (00_scope.md R7, 20_memory.md R67). -/
def Config.seqHeaderLen : Nat := 15

/-- `VAB_MIN_HEADER` (00_scope.md R7). -/
def Config.vabMinHeader : Nat := 2080

/-- `SEQ_MAGIC`, the four bytes 70 51 45 53 (30_encoding.md R99, decision D31). -/
def Config.seqMagic : Bytes := [0x70, 0x51, 0x45, 0x53]

/-- `VLQ_MAX_BYTES` (30_encoding.md R102, decision D45). -/
def Config.vlqMaxBytes : Nat := 4

/-- `SEQ_FM` (00_scope.md R8, decision D40). -/
def Config.seqFm : Bool := false

/-- How many frames above one the open parameter `MAX_FRAMES` allows (43_pool_mixer.md R257).
Log entry 5. -/
opaque Config.framesBeyondOne : Nat

/-- `MAX_FRAMES`, open, at least 1 (43_pool_mixer.md R257). -/
def Config.maxFrames : Nat := Nat.succ Config.framesBeyondOne

/-- How many events above one the open parameter `MAX_EVENTS_PER_UPDATE` allows (44_sequencer.md R291).
Log entry 6. -/
opaque Config.eventsBeyondOne : Nat

/-- `MAX_EVENTS_PER_UPDATE`, open, at least 1 (44_sequencer.md R291). -/
def Config.maxEventsPerUpdate : Nat := Nat.succ Config.eventsBeyondOne

/-- `REVERB_WET`, open (43_pool_mixer.md R254). Log entry 4. -/
opaque Config.reverbWet : NumQ

/-- `REVERB_DECAY`, open (43_pool_mixer.md R254). Log entry 4. -/
opaque Config.reverbDecay : NumQ

/-- The free function behind `DBCORR` (41_envelope_generator.md R163): what the correction adds. Log entry 3. -/
opaque Config.dbCorrFree : NumQ → NumQ

/-- Where in its enclosure the number format's `pow2` falls (00_scope.md R8 `NUM`). Log entry 1. -/
opaque Config.pow2Free : NumQ → NumQ

/-- Where in its enclosure the number format's `cos` of a pan falls. Log entry 1. -/
opaque Config.cosFree : NumQ → NumQ

/-- Where in its enclosure the number format's `sin` of a pan falls. Log entry 1. -/
opaque Config.sinFree : NumQ → NumQ

/-- Where in its enclosure the number format's `tanh` falls. Log entry 1. -/
opaque Config.tanhFree : NumQ → NumQ

/-- Half the width of an enclosure: a value of `cos`, `sin`, `tanh`, or of the mantissa of `pow2`, lies
within this of the mathematical one. DESIGN CHOICE, log entry 2: the rounding of an IEEE double, the
coarsest format for which 95_test_vectors.md gives its values after `tanh`. -/
def Config.slack : NumQ := 1 / 2 ^ 53

end Sys2Proof
end

