-- ==== Sys2Proof/Machine/Numeric.lean ====
section
/-! DEFINITION. The numerics of KF2-SPU: rounding, clamping, `fmod` (00_scope.md R9) and the four functions `pow2`, `cos`, `sin`, `tanh` of R11, each a free value inside a rational enclosure of the mathematical one. -/

namespace Sys2Proof.Machine

open Sys2Proof

/-! ### Exact operations (00_scope.md R9) -/

/-- `floor` on rationals. -/
def floorOf (x : NumQ) : Int := Rat.floor x

/-- `round`: half away from zero (00_scope.md R9, decision D3). -/
def roundAway (x : NumQ) : Int :=
  if 0 ≤ x then floorOf (x + 1 / 2) else -floorOf (-x + 1 / 2)

/-- `clamp(x, lo, hi) = min(max(x, lo), hi)` on reals. -/
def clampNum (x lo hi : NumQ) : NumQ := min (max x lo) hi

/-- `clamp(x, lo, hi)` on integers. -/
def clampInt (x lo hi : Int) : Int := min (max x lo) hi

/-- `clamp16`. -/
def clamp16 (x : Int) : Int := clampInt x (-32768) 32767

/-- The i16 value of an integer in its range. -/
def toI16 (x : Int) : BitVec 16 := BitVec.ofInt 16 x

/-- `fmod(a, n) = a - n * floor(a / n)`. -/
def fmod (a n : NumQ) : NumQ := a - n * (floorOf (a / n) : NumQ)

/-! ### Free values inside an enclosure (log entries 1 and 2) -/

/-- The rational strictly between `lo` and `hi` that a free rational `c` selects: every rational of the open
interval is selected by some `c`, and `c = 0` selects the middle. -/
def pick (lo hi c : NumQ) : NumQ := lo + (hi - lo) * ((1 + c / (1 + |c|)) / 2)

/-- A rational cut to the grid of multiples of `2 ^ -80`, which keeps the approximations below short. -/
def grid (x : NumQ) : NumQ := (floorOf (x * 2 ^ 80) : NumQ) / 2 ^ 80

/-- The first `n + 1` terms of `1 + y/(k+1) + y^2/((k+1)(k+2)) + ...`, by Horner; for `k = 0` those of `e^y`. -/
def expSeries : Nat → Nat → NumQ → NumQ
  | 0, _, _ => 1
  | n + 1, k, y => 1 + y / ((k + 1 : Nat) : NumQ) * expSeries n (k + 1) y

/-- The first `n + 1` terms of `1 - y^2/((k+1)(k+2)) + ...`, by Horner, `q` being `y^2`; for `k = 0` those of
`cos y`, and for `k = 1`, times `y`, those of `sin y`. -/
def altSeries : Nat → Nat → NumQ → NumQ
  | 0, _, _ => 1
  | n + 1, k, q => 1 - q / (((k + 1) * (k + 2) : Nat) : NumQ) * altSeries n (k + 2) q

/-- The natural logarithm of 2 to thirty places. -/
def ln2 : NumQ := 0.693147180559945309417232121458

/-- Half of pi to thirty places. -/
def halfPi : NumQ := 1.570796326794896619231321691640

/-- An approximation of `2 ^ r` for `r` in [0,1), nearer than `2 ^ -60`. -/
def pow2Approx (r : NumQ) : NumQ := grid (expSeries 20 0 (grid (r * ln2)))

/-- An approximation of `cos (p * pi/2)` for `p` in [0, 1/2], nearer than `2 ^ -60`. -/
def cosApprox (p : NumQ) : NumQ :=
  let y := grid (p * halfPi)
  grid (altSeries 10 0 (y * y))

/-- An approximation of `sin (p * pi/2)` for `p` in [0, 1/2], nearer than `2 ^ -60`. -/
def sinApprox (p : NumQ) : NumQ :=
  let y := grid (p * halfPi)
  grid (y * altSeries 10 1 (y * y))

/-- An approximation of `tanh x` for `x` in [0, 20), nearer than `2 ^ -60`: `1 - 2/(e^(2x) + 1)`, with `e^(2x)` as
the 64th power of `e^(x/32)`. -/
def tanhApprox (x : NumQ) : NumQ :=
  let e := expSeries 20 0 (grid x / 32)
  grid (1 - 2 / (e ^ 64 + 1))

/-- The lower end of the enclosure of a mathematical value near `m` that is known to be at least `lo`. -/
def nearLow (m lo : NumQ) : NumQ := max lo (m - Config.slack)

/-- The upper end of the enclosure of a mathematical value near `m` that is known to be at most `hi`. -/
def nearHigh (m hi : NumQ) : NumQ := min hi (m + Config.slack)

/-- The value that the number format gives for a mathematical value near `m` and known to lie between `lo` and
`hi`: strictly inside its enclosure, and otherwise free. -/
def near (m lo hi c : NumQ) : NumQ := pick (nearLow m lo) (nearHigh m hi) c

/-- `2 ^ n` for an integer `n`, exactly. -/
def pow2Int (n : Int) : NumQ :=
  if 0 ≤ n then ((2 ^ n.toNat : Nat) : NumQ) else 1 / ((2 ^ (-n).toNat : Nat) : NumQ)

/-- `pow2(x) = 2^x` (00_scope.md R11): exact at the integers, where it is rational; elsewhere the scaled mantissa
is a free value near the mathematical one, between 1 and 2. -/
def pow2 (x : NumQ) : NumQ :=
  let n := floorOf x
  let r := x - (n : NumQ)
  if r = 0 then pow2Int n
  else pow2Int n * near (pow2Approx r) 1 2 (Config.pow2Free x)

/-- `cos (p * pi/2)` for `p` in [0,1] (42_voice.md R192): exact at both ends, elsewhere a free value in (0,1) near
the mathematical one. -/
def cosQuarter (p : NumQ) : NumQ :=
  if p = 0 then 1
  else if p = 1 then 0
  else near (if p ≤ 1 / 2 then cosApprox p else sinApprox (1 - p)) 0 1 (Config.cosFree p)

/-- `sin (p * pi/2)` for `p` in [0,1] (42_voice.md R192): exact at both ends, elsewhere a free value in (0,1) near
the mathematical one. -/
def sinQuarter (p : NumQ) : NumQ :=
  if p = 0 then 0
  else if p = 1 then 1
  else near (if p ≤ 1 / 2 then sinApprox p else cosApprox (1 - p)) 0 1 (Config.sinFree p)

/-- The middle of the enclosure of `tanh` of a positive number; from 20 on the mathematical value is within
`Config.slack` of 1. -/
def tanhMiddle (x : NumQ) : NumQ := if x < 20 then tanhApprox x else 1

/-- `tanh` of a positive number: a free value in (0,1) near the mathematical one. -/
def tanhPos (x : NumQ) : NumQ := near (tanhMiddle x) 0 1 (Config.tanhFree x)

/-- `tanh` (43_pool_mixer.md R255): odd, 0 at 0, in (-1, 1). -/
def tanhNum (x : NumQ) : NumQ :=
  if x = 0 then 0
  else if 0 < x then tanhPos x
  else -tanhPos (-x)

/-- The lower end of the enclosure of `tanh x`. -/
def tanhLow (x : NumQ) : NumQ :=
  if x = 0 then 0
  else if 0 < x then nearLow (tanhMiddle x) 0
  else -nearHigh (tanhMiddle (-x)) 1

/-- The upper end of the enclosure of `tanh x`. -/
def tanhHigh (x : NumQ) : NumQ :=
  if x = 0 then 0
  else if 0 < x then nearHigh (tanhMiddle x) 1
  else -nearLow (tanhMiddle (-x)) 0

/-- An open coefficient times a value: `c * d`, which is 0 for a value of 0 whatever the coefficient is
(43_pool_mixer.md R259). -/
def openTimes (c d : NumQ) : NumQ := if d = 0 then 0 else c * d

/-- `DBCORR : real >= 0 -> real >= 0`, open (41_envelope_generator.md R163): every such function is of this form,
the free function being what it adds to its argument. -/
def dbCorr (t : NumQ) : NumQ := |t + Config.dbCorrFree t|

end Sys2Proof.Machine
end

