-- ==== Sys2Proof/Syntax.lean ====
section
/-! DEFINITION. The instructions of KF2-SPU: one constructor for each row of spec/opcode_table.json, the typed operands of a host command and the transaction that carries it. -/

namespace Sys2Proof

/-- A typed operand of a host command (30_encoding.md R112: "Operands are typed values, not packed bits"). -/
inductive Operand where
  /-- an integer: an id, a note, a program number, a frame count, a bank id -/
  | int (v : Int)
  /-- a real -/
  | real (v : NumQ)
  /-- a Boolean -/
  | flag (v : Bool)
  /-- a byte buffer -/
  | bytes (v : Bytes)
  /-- a 16-bit word -/
  | word (v : BitVec 16)
  /-- a tone reference `(p,t)` -/
  | tone (p t : Int)
deriving DecidableEq, Repr

/-- One transaction on the command port: a command code and its typed operands (30_encoding.md R112). -/
structure Transaction where
  code : Byte
  args : List Operand
deriving DecidableEq, Repr

/-- The instruction set: the SEQ events (30_encoding.md R103 to R107) and the host commands (R112). -/
inductive Instr where
  /-- `NOTEOFF` `8c kk vv` (44_sequencer.md R300) -/
  | noteOff (c : BitVec 4) (key vel : BitVec 7)
  /-- `NOTEON` `9c kk vv` (44_sequencer.md R295) -/
  | noteOn (c : BitVec 4) (key vel : BitVec 7)
  /-- reserved status `Ac` (30_encoding.md R107) -/
  | reservedA0 (c : BitVec 4)
  /-- `CC` with controller 7 (44_sequencer.md R302) -/
  | ccVolume (c : BitVec 4) (val : BitVec 7)
  /-- `CC` with controller 10 (44_sequencer.md R302) -/
  | ccPan (c : BitVec 4) (val : BitVec 7)
  /-- `CC` with controller 11 (44_sequencer.md R302) -/
  | ccExpr (c : BitVec 4) (val : BitVec 7)
  /-- `CC` with any other controller (44_sequencer.md R302) -/
  | ccOther (c : BitVec 4) (ctrl val : BitVec 7)
  /-- `PC` `Cc pp` (44_sequencer.md R303) -/
  | pc (c : BitVec 4) (prog : BitVec 7)
  /-- reserved status `Dc` (30_encoding.md R107) -/
  | reservedD0 (c : BitVec 4)
  /-- `PB` `Ec ll mm` (44_sequencer.md R304) -/
  | pb (c : BitVec 4) (ll mm : BitVec 7)
  /-- `EOT` `FF 2F` (44_sequencer.md R310) -/
  | eot
  /-- `TEMPO` `FF 51 t2 t1 t0` (44_sequencer.md R309) -/
  | tempo (t2 t1 t0 : Byte)
  /-- `META` `FF ty nn b1 .. bn` (44_sequencer.md R311): the type and the bytes skipped -/
  | metaEvent (ty : Byte) (data : Bytes)
  /-- reserved status `F0` to `FE` (30_encoding.md R107) -/
  | reservedF0 (low : BitVec 4)
  /-- `PLAY_NOTE` (43_pool_mixer.md R230) -/
  | playNote (p t : Int) (pitch volume : NumQ) (fmEnabled : Bool) (pan : NumQ) (note programId : BitVec 7)
  /-- `STOP_VOICE` (43_pool_mixer.md R235) -/
  | stopVoice (id : Int)
  /-- `IS_SOUND_PLAYING` (43_pool_mixer.md R236) -/
  | isSoundPlaying (id : Int)
  /-- `SET_VOICE_3D` (43_pool_mixer.md R237) -/
  | setVoice3d (id : Int) (vol pan : NumQ)
  /-- `UPDATE_VOICE_PITCH` (43_pool_mixer.md R238) -/
  | updateVoicePitch (id : Int) (bend : NumQ)
  /-- `GENERATE_AUDIO` (43_pool_mixer.md R250) -/
  | generateAudio (frameCount : Int)
  /-- `SEQ_PLAY` (44_sequencer.md R281) -/
  | seqPlay (data : Bytes) (bankId : Int)
  /-- `SEQ_UPDATE` (44_sequencer.md R285) -/
  | seqUpdate (dt : NumQ)
  /-- `SEQ_STOP` (44_sequencer.md R315) -/
  | seqStop (slotId : Int)
  /-- `SEQ_STOP_ALL` (44_sequencer.md R316) -/
  | seqStopAll
  /-- `SEQ_IS_PLAYING` (44_sequencer.md R317) -/
  | seqIsPlaying (slotId : Int)
  /-- `PROGRAM_PITCH_BEND` (44_sequencer.md R318) -/
  | programPitchBend (programId : Int) (bend : NumQ)
  /-- `BANK_LOAD` (45_bank_loader.md R340) -/
  | bankLoad (header body : Bytes)
  /-- `BANK_UNLOAD_ALL` (45_bank_loader.md R360) -/
  | bankUnloadAll
  /-- `IS_PROGRAM_POPULATED` (45_bank_loader.md R358) -/
  | isProgramPopulated (p : Int)
  /-- `DECODE_ADPCM` (40_adpcm_decoder.md R130) -/
  | decodeAdpcm (data : Bytes)
  /-- `MAKE_ADSR` (41_envelope_generator.md R154) -/
  | makeAdsr (adsr1 adsr2 : BitVec 16)
deriving DecidableEq, Repr

end Sys2Proof
end

