-- ==== Sys2Proof/WellFormed.lean ====
section
/-! DEFINITION. Which instructions are well formed: the conditions on operands that the constructors' types do not already carry. -/

namespace Sys2Proof

/-- The operand conditions of the opcode table's rows that the types leave open. `CC_OTHER` takes no
controller that has a row of its own; `META` takes no type byte that has one, and its length is one byte
(30_encoding.md R105, R106); `RESERVED_F0` is not `FF` (R107); `SEQ_UPDATE` takes `dt >= 0` (R112). -/
def Instr.wellFormed : Instr → Bool
  | .noteOff _ _ _ => true
  | .noteOn _ _ _ => true
  | .reservedA0 _ => true
  | .ccVolume _ _ => true
  | .ccPan _ _ => true
  | .ccExpr _ _ => true
  | .ccOther _ ctrl _ => ctrl != 7 && ctrl != 10 && ctrl != 11
  | .pc _ _ => true
  | .reservedD0 _ => true
  | .pb _ _ _ => true
  | .eot => true
  | .tempo _ _ _ => true
  | .metaEvent ty data => ty != 0x2F && ty != 0x51 && decide (data.length ≤ 255)
  | .reservedF0 low => low != 15
  | .playNote _ _ _ _ _ _ _ _ => true
  | .stopVoice _ => true
  | .isSoundPlaying _ => true
  | .setVoice3d _ _ _ => true
  | .updateVoicePitch _ _ => true
  | .generateAudio _ => true
  | .seqPlay _ _ => true
  | .seqUpdate dt => decide (0 ≤ dt)
  | .seqStop _ => true
  | .seqStopAll => true
  | .seqIsPlaying _ => true
  | .programPitchBend _ _ => true
  | .bankLoad _ _ => true
  | .bankUnloadAll => true
  | .isProgramPopulated _ => true
  | .decodeAdpcm _ => true
  | .makeAdsr _ _ => true

/-- The SEQ events: the rows of formats `SEQ1` and `SEQ2` (30_encoding.md R115). -/
def Instr.isEvent : Instr → Bool
  | .noteOff _ _ _ => true
  | .noteOn _ _ _ => true
  | .reservedA0 _ => true
  | .ccVolume _ _ => true
  | .ccPan _ _ => true
  | .ccExpr _ _ => true
  | .ccOther _ _ _ => true
  | .pc _ _ => true
  | .reservedD0 _ => true
  | .pb _ _ _ => true
  | .eot => true
  | .tempo _ _ _ => true
  | .metaEvent _ _ => true
  | .reservedF0 _ => true
  | .playNote _ _ _ _ _ _ _ _ => false
  | .stopVoice _ => false
  | .isSoundPlaying _ => false
  | .setVoice3d _ _ _ => false
  | .updateVoicePitch _ _ => false
  | .generateAudio _ => false
  | .seqPlay _ _ => false
  | .seqUpdate _ => false
  | .seqStop _ => false
  | .seqStopAll => false
  | .seqIsPlaying _ => false
  | .programPitchBend _ _ => false
  | .bankLoad _ _ => false
  | .bankUnloadAll => false
  | .isProgramPopulated _ => false
  | .decodeAdpcm _ => false
  | .makeAdsr _ _ => false

end Sys2Proof
end

