-- ==== Sys2Proof/Decode.lean ====
section
/-! DEFINITION. Decoding: a SEQ event from the bytes at a slot's cursor under its running status, a variable-length quantity, and a host command from a transaction; then the encoders of the same tables. -/

namespace Sys2Proof

/-! ### The stream: errors and what a fetch passes over -/

/-- Why the bytes of a stream do not decode (60_exceptions.md R376, R377), with the offset that the
diagnostic reports, counted from where the fetch began. -/
inductive StreamError where
  /-- `SeqOverrun`: a byte was wanted at or past the end of the buffer -/
  | overrun (offset : Nat)
  /-- `SeqBadEvent`: the bytes are in bounds and cannot be decoded -/
  | badEvent (offset : Nat)
deriving DecidableEq, Repr

/-- The outcome of reading one item of a stream: the value, or the error. -/
inductive Read (α : Type) where
  | ok (value : α)
  | error (e : StreamError)
deriving DecidableEq, Repr

/-- What reading an item did: how many bytes the cursor passed, and the outcome. -/
structure Fetch (α : Type) where
  used : Nat
  result : Read α
deriving DecidableEq, Repr

/-- What fetching an event did: the bytes passed, the running status after it, and the outcome. -/
structure EventFetch where
  used : Nat
  running : Byte
  result : Read Instr
deriving DecidableEq, Repr

/-- The low seven bits of a byte. -/
def low7 (b : Byte) : BitVec 7 := b.setWidth 7

/-- The channel of a status byte, its low nibble (30_encoding.md R104). -/
def channelOf (status : Byte) : BitVec 4 := status.setWidth 4

/-! ### Variable-length quantities (30_encoding.md R102) -/

/-- `ReadVLQ` with `fuel` bytes still allowed, `used` bytes already read and their value `v`. -/
def decodeVlqFrom : Nat → Nat → Nat → Bytes → Fetch Nat
  | 0, used, _, _ => { used := used, result := .error (.badEvent used) }
  | _ + 1, used, _, [] => { used := used, result := .error (.overrun used) }
  | fuel + 1, used, v, b :: rest =>
    if b < 0x80 then { used := used + 1, result := .ok (v * 128 + (low7 b).toNat) }
    else decodeVlqFrom fuel (used + 1) (v * 128 + (low7 b).toNat) rest

/-- `ReadVLQ` over the bytes at the cursor (30_encoding.md R102, 44_sequencer.md R288). -/
def decodeVlq (bytes : Bytes) : Fetch Nat := decodeVlqFrom Config.vlqMaxBytes 0 0 bytes

/-- The shortest encoding of a quantity below `128 ^ 4`, the most significant group first. -/
def encodeVlq (v : Nat) : Bytes :=
  if v < 128 then [BitVec.ofNat 8 v]
  else if v < 128 ^ 2 then [BitVec.ofNat 8 (128 + v / 128), BitVec.ofNat 8 (v % 128)]
  else if v < 128 ^ 3 then
    [BitVec.ofNat 8 (128 + v / 128 ^ 2), BitVec.ofNat 8 (128 + v / 128 % 128), BitVec.ofNat 8 (v % 128)]
  else
    [BitVec.ofNat 8 (128 + v / 128 ^ 3 % 128), BitVec.ofNat 8 (128 + v / 128 ^ 2 % 128),
      BitVec.ofNat 8 (128 + v / 128 % 128), BitVec.ofNat 8 (v % 128)]

/-! ### Events (30_encoding.md R103 to R107, 44_sequencer.md R287 to R290) -/

/-- An event with one 7-bit data byte, `used` bytes having been passed: `ReadData` once
(44_sequencer.md R287). -/
def decodeData1 (running : Byte) (used : Nat) (bytes : Bytes) (make : BitVec 7 → Instr) : EventFetch :=
  match bytes with
  | [] => { used := used, running := running, result := .error (.overrun used) }
  | d :: _ =>
    if d < 0x80 then { used := used + 1, running := running, result := .ok (make (low7 d)) }
    else { used := used + 1, running := running, result := .error (.badEvent used) }

/-- An event with two 7-bit data bytes: `ReadData` twice (44_sequencer.md R287). -/
def decodeData2 (running : Byte) (used : Nat) (bytes : Bytes) (make : BitVec 7 → BitVec 7 → Instr) : EventFetch :=
  match bytes with
  | [] => { used := used, running := running, result := .error (.overrun used) }
  | d :: rest =>
    if d < 0x80 then decodeData1 running (used + 1) rest (make (low7 d))
    else { used := used + 1, running := running, result := .error (.badEvent used) }

/-- The Control Change that a controller number selects (30_encoding.md R106, 44_sequencer.md R302). -/
def controlChange (c : BitVec 4) (ctrl val : BitVec 7) : Instr :=
  if ctrl = 7 then .ccVolume c val
  else if ctrl = 10 then .ccPan c val
  else if ctrl = 11 then .ccExpr c val
  else .ccOther c ctrl val

/-- A meta event after its status byte (30_encoding.md R105, 44_sequencer.md R308 to R311). -/
def decodeMeta (running : Byte) (used : Nat) (bytes : Bytes) : EventFetch :=
  match bytes with
  | [] => { used := used, running := running, result := .error (.overrun used) }
  | ty :: rest =>
    if ty = 0x2F then { used := used + 1, running := running, result := .ok .eot }
    else if ty = 0x51 then
      match rest with
      | t2 :: t1 :: t0 :: _ => { used := used + 4, running := running, result := .ok (.tempo t2 t1 t0) }
      | short =>
        { used := used + 1 + short.length, running := running,
          result := .error (.overrun (used + 1 + short.length)) }
    else
      match rest with
      | [] => { used := used + 1, running := running, result := .error (.overrun (used + 1)) }
      | n :: body =>
        if n.toNat ≤ body.length then
          { used := used + 2 + n.toNat, running := running, result := .ok (.metaEvent ty (body.take n.toNat)) }
        else
          { used := used + 2 + body.length, running := running,
            result := .error (.overrun (used + 2 + body.length)) }

/-- The event of an effective status, `bytes` being those after it (44_sequencer.md R290). A status below
`80`, which no run brings into the running-status register, is undecodable (log entry 12). -/
def decodeBody (status : Byte) (used : Nat) (bytes : Bytes) : EventFetch :=
  let c := channelOf status
  match (status >>> 4).toNat with
  | 0x8 => decodeData2 status used bytes (.noteOff c)
  | 0x9 => decodeData2 status used bytes (.noteOn c)
  | 0xA => { used := used, running := status, result := .ok (.reservedA0 c) }
  | 0xB => decodeData2 status used bytes (controlChange c)
  | 0xC => decodeData1 status used bytes (.pc c)
  | 0xD => { used := used, running := status, result := .ok (.reservedD0 c) }
  | 0xE => decodeData2 status used bytes (.pb c)
  | 0xF =>
    if status = 0xFF then decodeMeta status used bytes
    else { used := used, running := status, result := .ok (.reservedF0 c) }
  | _ => { used := used, running := status, result := .error (.badEvent used) }

/-- `FetchStatus` and the reads of the event it selects (30_encoding.md R103, 44_sequencer.md R289, R290):
`running` is the slot's running status and `bytes` are those from the cursor on. -/
def decodeEvent (running : Byte) (bytes : Bytes) : EventFetch :=
  match bytes with
  | [] => { used := 0, running := running, result := .error (.overrun 0) }
  | b :: rest =>
    if 0x80 ≤ b then decodeBody b 1 rest
    else if running = 0 then { used := 0, running := running, result := .error (.badEvent 0) }
    else decodeBody running 0 bytes

/-! ### Host commands (30_encoding.md R112) -/

/-- Why a transaction is no command of the block. -/
inductive CommandError where
  /-- no row of 30_encoding.md R112 has this code -/
  | unknownCode
  /-- the operands are not of the number and types that the code's row lists, or a value lies outside
  its type's range -/
  | illTyped
  /-- a `SEQ_UPDATE` with a negative `dt` (93_implementation_defined.md U31) -/
  | negativeTime
deriving DecidableEq, Repr

/-- The outcome of decoding a transaction. -/
inductive CommandDecode where
  | ok (i : Instr)
  | error (e : CommandError)
deriving DecidableEq, Repr

/-- A value of the operand type `0..127` (30_encoding.md R112). -/
def toNote (v : Int) : Option (BitVec 7) :=
  if 0 ≤ v ∧ v ≤ 127 then some (BitVec.ofInt 7 v) else none

/-- The command that a code and typed operands stand for (30_encoding.md R112). -/
def decodeCommand (x : Transaction) : CommandDecode :=
  match x.code.toNat with
  | 0x01 =>
    match x.args with
    | [.tone p t, .real pitch, .real volume, .flag fm, .real pan, .int note, .int prog] =>
      match toNote note, toNote prog with
      | some n, some g => .ok (.playNote p t pitch volume fm pan n g)
      | _, _ => .error .illTyped
    | _ => .error .illTyped
  | 0x02 => match x.args with | [.int id] => .ok (.stopVoice id) | _ => .error .illTyped
  | 0x03 => match x.args with | [.int id] => .ok (.isSoundPlaying id) | _ => .error .illTyped
  | 0x04 =>
    match x.args with
    | [.int id, .real vol, .real pan] => .ok (.setVoice3d id vol pan)
    | _ => .error .illTyped
  | 0x05 =>
    match x.args with
    | [.int id, .real bend] => .ok (.updateVoicePitch id bend)
    | _ => .error .illTyped
  | 0x06 => match x.args with | [.int n] => .ok (.generateAudio n) | _ => .error .illTyped
  | 0x10 =>
    match x.args with
    | [.bytes data, .int bank] => .ok (.seqPlay data bank)
    | _ => .error .illTyped
  | 0x11 =>
    match x.args with
    | [.real dt] => if 0 ≤ dt then .ok (.seqUpdate dt) else .error .negativeTime
    | _ => .error .illTyped
  | 0x12 => match x.args with | [.int id] => .ok (.seqStop id) | _ => .error .illTyped
  | 0x13 => match x.args with | [] => .ok .seqStopAll | _ => .error .illTyped
  | 0x14 => match x.args with | [.int id] => .ok (.seqIsPlaying id) | _ => .error .illTyped
  | 0x15 =>
    match x.args with
    | [.int prog, .real bend] => .ok (.programPitchBend prog bend)
    | _ => .error .illTyped
  | 0x20 =>
    match x.args with
    | [.bytes header, .bytes body] => .ok (.bankLoad header body)
    | _ => .error .illTyped
  | 0x21 => match x.args with | [] => .ok .bankUnloadAll | _ => .error .illTyped
  | 0x22 => match x.args with | [.int p] => .ok (.isProgramPopulated p) | _ => .error .illTyped
  | 0x30 => match x.args with | [.bytes data] => .ok (.decodeAdpcm data) | _ => .error .illTyped
  | 0x31 =>
    match x.args with
    | [.word a, .word b] => .ok (.makeAdsr a b)
    | _ => .error .illTyped
  | _ => .error .unknownCode

/-! ### Encoders, from the same tables -/

/-- Where an instruction stands: in a SEQ stream or on the command port. -/
inductive Source where
  | stream (bytes : Bytes)
  | port (x : Transaction)
deriving DecidableEq, Repr

/-- A status byte: a kind in the high nibble and a channel in the low one (30_encoding.md R104). -/
def statusByte (kind c : BitVec 4) : Byte := kind ++ c

/-- A data byte: seven bits under a zero bit (30_encoding.md R108). -/
def dataByte (d : BitVec 7) : Byte := d.setWidth 8

/-- The operand `0..127` of a 7-bit value. -/
def noteOperand (d : BitVec 7) : Operand := .int d.toNat

/-- Where and how an instruction is written: the events by 30_encoding.md R104 and R105 with their status
byte, the commands by R112. -/
def encode : Instr → Source
  | .noteOff c key vel => .stream [statusByte 0x8 c, dataByte key, dataByte vel]
  | .noteOn c key vel => .stream [statusByte 0x9 c, dataByte key, dataByte vel]
  | .reservedA0 c => .stream [statusByte 0xA c]
  | .ccVolume c val => .stream [statusByte 0xB c, 7, dataByte val]
  | .ccPan c val => .stream [statusByte 0xB c, 10, dataByte val]
  | .ccExpr c val => .stream [statusByte 0xB c, 11, dataByte val]
  | .ccOther c ctrl val => .stream [statusByte 0xB c, dataByte ctrl, dataByte val]
  | .pc c prog => .stream [statusByte 0xC c, dataByte prog]
  | .reservedD0 c => .stream [statusByte 0xD c]
  | .pb c ll mm => .stream [statusByte 0xE c, dataByte ll, dataByte mm]
  | .eot => .stream [0xFF, 0x2F]
  | .tempo t2 t1 t0 => .stream [0xFF, 0x51, t2, t1, t0]
  | .metaEvent ty data => .stream (0xFF :: ty :: BitVec.ofNat 8 data.length :: data)
  | .reservedF0 low => .stream [statusByte 0xF low]
  | .playNote p t pitch volume fm pan note prog =>
    .port { code := 0x01, args := [.tone p t, .real pitch, .real volume, .flag fm, .real pan, noteOperand note, noteOperand prog] }
  | .stopVoice id => .port { code := 0x02, args := [.int id] }
  | .isSoundPlaying id => .port { code := 0x03, args := [.int id] }
  | .setVoice3d id vol pan => .port { code := 0x04, args := [.int id, .real vol, .real pan] }
  | .updateVoicePitch id bend => .port { code := 0x05, args := [.int id, .real bend] }
  | .generateAudio n => .port { code := 0x06, args := [.int n] }
  | .seqPlay data bank => .port { code := 0x10, args := [.bytes data, .int bank] }
  | .seqUpdate dt => .port { code := 0x11, args := [.real dt] }
  | .seqStop id => .port { code := 0x12, args := [.int id] }
  | .seqStopAll => .port { code := 0x13, args := [] }
  | .seqIsPlaying id => .port { code := 0x14, args := [.int id] }
  | .programPitchBend prog bend => .port { code := 0x15, args := [.int prog, .real bend] }
  | .bankLoad header body => .port { code := 0x20, args := [.bytes header, .bytes body] }
  | .bankUnloadAll => .port { code := 0x21, args := [] }
  | .isProgramPopulated p => .port { code := 0x22, args := [.int p] }
  | .decodeAdpcm data => .port { code := 0x30, args := [.bytes data] }
  | .makeAdsr a b => .port { code := 0x31, args := [.word a, .word b] }

/-- The instruction at a source, a stream being read from its first byte with no running status. -/
def decode : Source → Option Instr
  | .stream bytes =>
    match (decodeEvent 0 bytes).result with
    | .ok i => some i
    | .error _ => none
  | .port x =>
    match decodeCommand x with
    | .ok i => some i
    | .error _ => none

/-! ### The rows of spec/opcode_table.json (30_encoding.md R115) -/

/-- The transaction of a command code with every operand at zero: the operands are typed values and the
table gives them no bits (log entry 8). -/
def zeroTransaction (code : Byte) : Transaction :=
  { code := code
    args :=
      match code.toNat with
      | 0x01 => [.tone 0 0, .real 0, .real 0, .flag false, .real 0, .int 0, .int 0]
      | 0x02 => [.int 0]
      | 0x03 => [.int 0]
      | 0x04 => [.int 0, .real 0, .real 0]
      | 0x05 => [.int 0, .real 0]
      | 0x06 => [.int 0]
      | 0x10 => [.bytes [], .int 0]
      | 0x11 => [.real 0]
      | 0x12 => [.int 0]
      | 0x14 => [.int 0]
      | 0x15 => [.int 0, .real 0]
      | 0x20 => [.bytes [], .bytes []]
      | 0x22 => [.int 0]
      | 0x30 => [.bytes []]
      | 0x31 => [.word 0, .word 0]
      | _ => [] }

/-- The bytes of a table word in stream order: the table numbers a two-byte row as
`status * 256 + next` (30_encoding.md R115), so the first byte is the most significant one. -/
def tableBytes : Nat → Nat → Bytes
  | 0, _ => []
  | n + 1, w => BitVec.ofNat 8 (w / 256 ^ n) :: tableBytes n w

/-- Enough zero bytes for the operands of any event of the table: with its length byte zero a `META` skips
nothing, and `TEMPO` has the most operand bytes, three. -/
def zeroPadding : Bytes := [0, 0, 0, 0, 0, 0, 0, 0]

/-- The instruction that the decoder reads from a word of the opcode table: a first byte with bit 7 set
begins an event, any other is a command code (30_encoding.md R103, R112, R115). -/
def decodeTableWord (nbits w : Nat) : Option Instr :=
  match tableBytes ((nbits + 7) / 8) w with
  | [] => none
  | b :: rest =>
    if 0x80 ≤ b then decode (.stream (b :: (rest ++ zeroPadding)))
    else if rest = [] then decode (.port (zeroTransaction b))
    else none

/-- The bytes that a table word puts into a stream: the event with its operand bytes at zero, no more. -/
def tableEventBytes (nbits w : Nat) : Bytes :=
  let bytes := tableBytes ((nbits + 7) / 8) w ++ zeroPadding
  bytes.take (decodeEvent 0 bytes).used

end Sys2Proof
end

