-- ==== Sys2Proof/Machine/State.lean ====
section
/-! DEFINITION. The state of KF2-SPU (10_state.md), the reasons a step can stop, and the state after reset (70_reset_and_hazards.md R400). -/

namespace Sys2Proof.Machine

open Sys2Proof

/-! ### Why a step stops -/

/-- The reasons a step ends in a fault. The eight error conditions of 60_exceptions.md R370 are not among
them: each of those is a state change. -/
inductive Fault where
  /-- Raised by `GENERATE_AUDIO` when it is asked for a frame while an active voice names no playable tone:
  the read of released sample data that 10_state.md R23 and 20_memory.md R77 rule out. Safe: the model stops
  where the spec says no run arrives (log entry 14). -/
  | danglingTone
deriving DecidableEq, Repr

/-- The reasons a step is refused. -/
inductive Refusal where
  /-- An instruction without a meaning yet. No arm of `exec` answers it. Safe. -/
  | notModelled (mnemonic : String)
  /-- Raised by `step` on a transaction whose code is in no row of 30_encoding.md R112. Safe. -/
  | unknownCommand (code : Byte)
  /-- Raised by `step` on a transaction whose operands are not of its row's types (30_encoding.md R112: the
  operands of a command are typed values). Safe. -/
  | illTypedCommand (code : Byte)
  /-- Raised by `step` on a `SEQ_UPDATE` with a negative `dt`: the command is not issued
  (93_implementation_defined.md U31). Safe. -/
  | negativeTime
deriving DecidableEq, Repr

/-! ### Voices (10_state.md R20 to R23) -/

/-- The envelope phase of a voice (10_state.md R21). -/
inductive Phase where
  | idle | attack | decay | sustain | release
deriving DecidableEq, Repr

/-- A tone reference `(p,t)`: tone `t` of program `p` (10_state.md R21). -/
structure ToneRef where
  program : Nat
  index : Nat
deriving DecidableEq, Repr

/-- The registers of one voice (10_state.md R21). -/
structure Voice where
  active : Bool
  phase : Phase
  env : NumQ
  tone : Option ToneRef
  cursor : NumQ
  basePitch : NumQ
  pitch : NumQ
  volL : NumQ
  volR : NumQ
  lastOut : NumQ
  programId : Option Nat
  note : Option Nat
  relOverride : Option NumQ
deriving DecidableEq, Repr

/-- A voice after reset (70_reset_and_hazards.md R400). -/
def Voice.reset : Voice :=
  { active := false, phase := .idle, env := 0, tone := none, cursor := 0, basePitch := 1, pitch := 1
    volL := 0, volR := 0, lastOut := 0, programId := none, note := none, relOverride := none }

/-! ### Sequencer slots (10_state.md R26 to R28) -/

/-- The registers of one channel of a slot (10_state.md R28). -/
structure Channel where
  volume : Byte
  pan : Byte
  expression : Byte
  program : Byte
deriving DecidableEq, Repr

/-- Channel `c` after reset and after `SEQ_PLAY` (10_state.md R28). -/
def Channel.initial (c : Nat) : Channel :=
  { volume := 127, pan := 64, expression := 127, program := BitVec.ofNat 8 c }

/-- The sixteen channels at their initial values. -/
def Channel.initials : Vector Channel 16 :=
  #v[.initial 0, .initial 1, .initial 2, .initial 3, .initial 4, .initial 5, .initial 6, .initial 7,
    .initial 8, .initial 9, .initial 10, .initial 11, .initial 12, .initial 13, .initial 14, .initial 15]

/-- The registers of one sequencer slot (10_state.md R26). -/
structure Slot where
  active : Bool
  buf : Option Bytes
  cursor : Nat
  running : Byte
  acc : NumQ
  wait : Nat
  tempo : BitVec 24
  resolution : BitVec 16
  masterVolume : Byte
  bankId : Int
  chan : Vector Channel 16
deriving DecidableEq, Repr

/-- A slot after reset (70_reset_and_hazards.md R400). -/
def Slot.reset : Slot :=
  { active := false, buf := none, cursor := 0, running := 0, acc := 0, wait := 0, tempo := 0
    resolution := 0, masterVolume := 0, bankId := 0, chan := Channel.initials }

/-! ### Tone memory (10_state.md R29 to R31) -/

/-- The four converted envelope parameters (10_state.md R30, 41_envelope_generator.md R154). -/
structure Adsr where
  attack : NumQ
  decay : NumQ
  sustain : NumQ
  release : NumQ
deriving DecidableEq, Repr

/-- A tone (10_state.md R30). Its `len` is the length of `data` and is not stored again. -/
structure Tone where
  data : List NumQ
  minNote : Byte
  maxNote : Byte
  centerNote : Byte
  fineTune : BitVec 8
  loop : Bool
  adsr : Adsr
  volume : Byte
  synthetic : Bool
deriving DecidableEq, Repr

/-- A program: the tones it holds. `PROG[p].count` is their number (10_state.md R29). -/
structure Program where
  tones : List Tone
deriving DecidableEq, Repr

/-- An unpopulated program (10_state.md R29). -/
def Program.empty : Program := { tones := [] }

/-! ### The delay line (10_state.md R36) -/

/-- The one memory the block reads and writes by address: the reverb delay line, as (index, value) pairs in
canonical form: indexes strictly rising, no listed value 0, since an unlisted entry reads as 0, the reset
content. -/
abbrev Memory := List (Nat × NumQ)

/-! ### Ports -/

/-- A record of the diagnostic port (60_exceptions.md R386). -/
inductive Diag where
  | voiceStolen (id : Nat)
  | adsrRange
  | seqOverrun (slot offset : Nat)
  | seqBadEvent (slot offset : Nat)
deriving DecidableEq, Repr

/-- The typed result of a command (30_encoding.md R112). -/
inductive Result where
  /-- the command has no result, or none has run yet -/
  | none
  /-- a voice id, or -1 -/
  | voiceId (id : Int)
  /-- the answer of a query, or the success of a load -/
  | bool (b : Bool)
  /-- the output PCM buffer: interleaved i16 values, left first (20_memory.md R68) -/
  | pcm (out : List (BitVec 16))
  /-- a slot id, or -1 -/
  | slotId (id : Int)
  /-- decoded ADPCM samples -/
  | samples (out : List (BitVec 16))
  /-- converted envelope parameters -/
  | envelope (e : Adsr)
deriving DecidableEq, Repr

/-! ### The state -/

/-- The state of the block: the registers and memories of 10_state.md, and the model's own fields `port`,
`result` and `curSlot` (log entries 7, 9, 10). -/
structure State where
  /-- `V[0..126]` (R20, R21) -/
  voices : Vector Voice 127
  /-- `FM[0..126]` (R24) -/
  fm : Vector Bool 127
  /-- `stealCursor` (R25) -/
  stealCursor : Fin 127
  /-- `S[0..15]` and `CH[s][c]` (R26, R28) -/
  slots : Vector Slot 16
  /-- `PROG[0..127]` (R29) -/
  prog : Vector Program 128
  /-- `BANK_MASTER` (R31) -/
  bankMaster : Byte
  /-- `RT[0..159]` (R35) -/
  rt : Vector (BitVec 32) 160
  /-- `rtBuilt` (R35) -/
  rtBuilt : Bool
  /-- `DL[0..15434]` (R36) -/
  delayLine : Memory
  /-- `wp` (R36) -/
  wp : Fin Config.reverbLen
  /-- the diagnostic port, oldest record first (60_exceptions.md R386) -/
  diag : List Diag
  /-- the model's own: the transactions that the environment has issued and the block has not yet taken -/
  port : List Transaction
  /-- the model's own: the result of the last command -/
  result : Result
  /-- the model's own: the slot whose event is executing -/
  curSlot : Fin 16
deriving DecidableEq, Repr

/-- The state after reset (70_reset_and_hazards.md R400). -/
def State.reset : State :=
  { voices := Vector.replicate 127 Voice.reset
    fm := Vector.replicate 127 false
    stealCursor := 0
    slots := Vector.replicate 16 Slot.reset
    prog := Vector.replicate 128 Program.empty
    bankMaster := 127
    rt := Vector.replicate 160 0
    rtBuilt := false
    delayLine := []
    wp := 0
    diag := []
    port := []
    result := .none
    curSlot := 0 }

end Sys2Proof.Machine
end

