-- ==== Sys2Proof/Machine/Ops.lean ====
section
/-! DEFINITION. The named operations over the state: access to voices, slots, channels and programs, the delay line, the diagnostic port, and the taking of an exception. -/

namespace Sys2Proof.Machine

open Sys2Proof

/-! ### The delay line (20_memory.md R79 (f)) -/

/-- What index `a` of a memory reads as; an unlisted index reads as 0 (10_state.md R36). -/
def Memory.read : Memory → Nat → NumQ
  | [], _ => 0
  | (b, w) :: rest, a => if a = b then w else Memory.read rest a

/-- A memory with `v` at index `a`, in canonical form again: writing 0 removes the entry. -/
def Memory.write : Memory → Nat → NumQ → Memory
  | [], a, v => if v = 0 then [] else [(a, v)]
  | (b, w) :: rest, a, v =>
    if a < b then (if v = 0 then (b, w) :: rest else (a, v) :: (b, w) :: rest)
    else if a = b then (if v = 0 then rest else (a, v) :: rest)
    else (b, w) :: Memory.write rest a v

/-- The canonical form from index `lo` on: rising indexes below the delay line's length, no value 0. -/
def Memory.wfFrom : Nat → Memory → Bool
  | _, [] => true
  | lo, (b, w) :: rest => decide (lo ≤ b) && decide (b < Config.reverbLen) && decide (w ≠ 0) && Memory.wfFrom (b + 1) rest

/-- The canonical form of the delay line. -/
def Memory.wf (m : Memory) : Bool := Memory.wfFrom 0 m

/-! ### Voices, slots, channels, programs -/

/-- `V[i]`. -/
def State.voice (s : State) (i : Fin 127) : Voice := s.voices[i]

/-- `V[i] <- v`. -/
def State.setVoice (s : State) (i : Fin 127) (v : Voice) : State := { s with voices := s.voices.set i v }

/-- `FM[i] <- b` (43_pool_mixer.md R233). -/
def State.setFm (s : State) (i : Fin 127) (b : Bool) : State := { s with fm := s.fm.set i b }

/-- `S[k]`. -/
def State.slot (s : State) (k : Fin 16) : Slot := s.slots[k]

/-- `S[k] <- x`. -/
def State.setSlot (s : State) (k : Fin 16) (x : Slot) : State := { s with slots := s.slots.set k x }

/-- `CH[k][c]` of a slot's registers, the channel number being a status byte's low nibble. -/
def Slot.channel (x : Slot) (c : BitVec 4) : Channel := x.chan[c.toFin]

/-- `CH[k][c] <- y` in a slot's registers. -/
def Slot.setChannel (x : Slot) (c : BitVec 4) (y : Channel) : Slot := { x with chan := x.chan.set c.toFin y }

/-- `CH[k][c]`. -/
def State.channel (s : State) (k : Fin 16) (c : BitVec 4) : Channel := (s.slot k).channel c

/-- `CH[k][c] <- y`. -/
def State.setChannel (s : State) (k : Fin 16) (c : BitVec 4) (y : Channel) : State :=
  s.setSlot k ((s.slot k).setChannel c y)

/-- `PROG[p]`; there is no program above 127, and such a number reads as an unpopulated one (log entry 22). -/
def State.program (s : State) (p : Nat) : Program := if h : p < 128 then s.prog[p] else Program.empty

/-- `PROG[p] <- g`. -/
def State.setProgram (s : State) (p : Fin 128) (g : Program) : State := { s with prog := s.prog.set p g }

/-- The tone that a reference names, if it is populated: `t < PROG[p].count` (10_state.md R23). -/
def State.toneAt (s : State) (r : ToneRef) : Option Tone := (s.program r.program).tones[r.index]?

/-- `len`, the length of a tone's data (10_state.md R30). -/
def Tone.len (t : Tone) : Nat := t.data.length

/-- The voice index of a host id: valid when `0 <= id <= 126` (43_pool_mixer.md R239). -/
def voiceIndex (id : Int) : Option (Fin 127) :=
  if h : 0 ≤ id ∧ id < 127 then some ⟨id.toNat, by omega⟩ else none

/-- The slot index of a host id: valid when `0 <= id <= 15` (44_sequencer.md R315). -/
def slotIndex (id : Int) : Option (Fin 16) :=
  if h : 0 ≤ id ∧ id < 16 then some ⟨id.toNat, by omega⟩ else none

/-- The program index of a host number: valid when `0 <= p <= 127` (45_bank_loader.md R358). -/
def programIndex (p : Int) : Option (Fin 128) :=
  if h : 0 ≤ p ∧ p < 128 then some ⟨p.toNat, by omega⟩ else none

/-! ### Results and diagnostics -/

/-- The state with a command's typed result in it (30_encoding.md R112). -/
def State.withResult (s : State) (r : Result) : State := { s with result := r }

/-- `emit Diag(d)`: append to the diagnostic port (60_exceptions.md R386). -/
def State.emit (s : State) (d : Diag) : State := { s with diag := s.diag ++ [d] }

/-! ### Exceptions (60_exceptions.md R370 to R381) -/

/-- The eight error conditions (60_exceptions.md R370). -/
inductive Condition where
  | bankMalformed | seqMalformed | ignoredArgument | voiceStolen | dataFixup | adsrRange | seqOverrun | seqBadEvent
deriving DecidableEq, Repr

/-- The code of a condition (60_exceptions.md R370). -/
def Condition.code : Condition → Nat
  | .bankMalformed => 1
  | .seqMalformed => 2
  | .ignoredArgument => 3
  | .voiceStolen => 4
  | .dataFixup => 5
  | .adsrRange => 6
  | .seqOverrun => 7
  | .seqBadEvent => 8

/-- The category of a condition (60_exceptions.md R370). -/
def Condition.category : Condition → Nat
  | .bankMalformed => 1
  | .seqMalformed => 1
  | .ignoredArgument => 2
  | .voiceStolen => 3
  | .dataFixup => 4
  | .adsrRange => 4
  | .seqOverrun => 5
  | .seqBadEvent => 5

/-- The condition that a record of the diagnostic port reports. -/
def Diag.condition : Diag → Condition
  | .voiceStolen _ => .voiceStolen
  | .adsrRange => .adsrRange
  | .seqOverrun _ _ => .seqOverrun
  | .seqBadEvent _ _ => .seqBadEvent

/-- A slot that has been stopped: Idle, its buffer reference dropped, its other registers as they were
(60_exceptions.md R380, 44_sequencer.md R315). -/
def Slot.stopped (x : Slot) : Slot := { x with active := false, buf := none }

/-- Taking `SeqOverrun` or `SeqBadEvent` on slot `k`, the one entry sequence that abandons work in progress
(60_exceptions.md R380): the slot stops and the record is emitted. There is no return from it (R381). -/
def State.raiseSlot (s : State) (k : Fin 16) (d : Diag) : State :=
  (s.setSlot k (s.slot k).stopped).emit d

/-- The record of a stream error met by a fetch that began at `cursor` (60_exceptions.md R376, R377). -/
def streamDiag (e : StreamError) (k : Fin 16) (cursor : Nat) : Diag :=
  match e with
  | .overrun off => .seqOverrun k (cursor + off)
  | .badEvent off => .seqBadEvent k (cursor + off)

/-- Taking the exception of a stream error. -/
def State.raiseStream (s : State) (k : Fin 16) (cursor : Nat) (e : StreamError) : State :=
  s.raiseSlot k (streamDiag e k cursor)

end Sys2Proof.Machine
end

