-- ==== Sys2Proof/Machine/Operands.lean ====
section
/-! DEFINITION. How operands are read and assembled: bytes of a buffer (00_scope.md R10), the bytes at a slot's cursor (44_sequencer.md R287 to R290), and the immediates of the events (30_encoding.md R109, R110). -/

namespace Sys2Proof.Machine

open Sys2Proof

/-! ### Bytes of a buffer (00_scope.md R10, 20_memory.md R60, R61) -/

/-- `U8(buf, a)`. Every rule that uses it has tested that `a` lies inside the buffer. -/
def u8 (buf : Bytes) (a : Nat) : Nat := (buf.getD a 0).toNat

/-- `U16LE(buf, a)`. -/
def u16le (buf : Bytes) (a : Nat) : Nat := u8 buf a + 256 * u8 buf (a + 1)

/-- `U16BE(buf, a)`. -/
def u16be (buf : Bytes) (a : Nat) : Nat := 256 * u8 buf a + u8 buf (a + 1)

/-- `U24BE(buf, a)`. -/
def u24be (buf : Bytes) (a : Nat) : Nat := 65536 * u8 buf a + 256 * u8 buf (a + 1) + u8 buf (a + 2)

/-- `MemRead(buf, a, n)`. -/
def memRead (buf : Bytes) (a n : Nat) : Bytes := (buf.drop a).take n

/-! ### The stream of a slot (44_sequencer.md R287) -/

/-- The bytes from a slot's cursor to the end of its buffer; none at or past the end, and none for a slot that
holds no buffer (log entry 13). -/
def Slot.stream (x : Slot) : Bytes :=
  match x.buf with
  | some b => b.drop x.cursor
  | none => []

/-- `ReadVLQ` on slot `k` into its `wait` register (30_encoding.md R102, 44_sequencer.md R286, R288): the cursor
passes the bytes read, and an error is raised. -/
def State.readDelay (s : State) (k : Fin 16) : State :=
  let x := s.slot k
  let f := decodeVlq x.stream
  let x' := { x with cursor := x.cursor + f.used }
  match f.result with
  | .ok v => s.setSlot k { x' with wait := v }
  | .error e => (s.setSlot k x').raiseStream k x.cursor e

/-- The event at slot `k`'s cursor under its running status (44_sequencer.md R289, R290). -/
def State.fetchEvent (s : State) (k : Fin 16) : EventFetch := decodeEvent (s.slot k).running (s.slot k).stream

/-- Slot `k` with its cursor past the bytes of a fetch and its running status as the fetch left it
(44_sequencer.md R287, R289). -/
def State.passEvent (s : State) (k : Fin 16) (f : EventFetch) : State :=
  s.setSlot k { s.slot k with cursor := (s.slot k).cursor + f.used, running := f.running }

/-! ### Immediates of the events -/

/-- The 14-bit pitch-bend immediate, low group first, normalised (30_encoding.md R109). -/
def bendOf (ll mm : BitVec 7) : NumQ := (((mm.toNat * 128 + ll.toNat : Nat) : NumQ) - 8192) / 8192

/-- The tempo immediate, big-endian (30_encoding.md R110). -/
def tempoOf (t2 t1 t0 : Byte) : BitVec 24 := t2 ++ t1 ++ t0

/-- A 7-bit value as it is held in a channel register (10_state.md R28). -/
def registerOf (d : BitVec 7) : Byte := d.setWidth 8

/-- A 7-bit value brought into [0,1] (44_sequencer.md R297, R298). -/
def unit127 (v : Nat) : NumQ := (v : NumQ) / 127

end Sys2Proof.Machine
end

