-- ==== Sys2Proof/Machine/Adpcm.lean ====
section
/-! DEFINITION. The ADPCM decoder (40_adpcm_decoder.md) and the command `DECODE_ADPCM`. -/

namespace Sys2Proof.Machine

open Sys2Proof

/-- The pair of accumulators, live for one call (10_state.md R34). -/
structure Accumulators where
  s1 : NumQ
  s2 : NumQ
deriving DecidableEq, Repr

/-- The accumulators at the start of a call (40_adpcm_decoder.md R130, R141). -/
def Accumulators.fresh : Accumulators := { s1 := 0, s2 := 0 }

/-- The coefficients `K0` by filter index; an index of 5 or more acts as 0 (40_adpcm_decoder.md R133, R136). -/
def filterK0 : Nat → NumQ
  | 1 => 60 / 64
  | 2 => 115 / 64
  | 3 => 98 / 64
  | 4 => 122 / 64
  | _ => 0

/-- The coefficients `K1` by filter index; an index of 5 or more acts as 0 (40_adpcm_decoder.md R133, R136). -/
def filterK1 : Nat → NumQ
  | 2 => -52 / 64
  | 3 => -55 / 64
  | 4 => -60 / 64
  | _ => 0

/-- `Scale(d, shift) = floor(d * 2^(12 - shift))` for every shift 0 to 15 (40_adpcm_decoder.md R137, R139). -/
def scaleNibble (d : Int) (shift : Nat) : Int := d * 4096 / (2 ^ shift : Nat)

/-- One sample: the new accumulators and the emitted value (40_adpcm_decoder.md R137, R138, R140). -/
def decodeNibble (shift filter : Nat) (nib : BitVec 4) (a : Accumulators) : Accumulators × BitVec 16 :=
  let res : NumQ := (scaleNibble nib.toInt shift : NumQ) + a.s1 * filterK0 filter + a.s2 * filterK1 filter
  ({ s1 := res, s2 := a.s1 }, toI16 (clamp16 (roundAway res)))

/-- The samples of a list of data bytes, low nibble first (40_adpcm_decoder.md R135). -/
def decodeNibbles (shift filter : Nat) : Bytes → Accumulators → Accumulators × List (BitVec 16)
  | [], a => (a, [])
  | b :: rest, a =>
    let lo := decodeNibble shift filter (b.extractLsb' 0 4) a
    let hi := decodeNibble shift filter (b.extractLsb' 4 4) lo.1
    let more := decodeNibbles shift filter rest hi.1
    (more.1, lo.2 :: hi.2 :: more.2)

/-- The samples of one call, and the flags byte of the end-flagged block it stopped at, if it did. -/
structure AdpcmOut where
  samples : List (BitVec 16)
  endFlags : Option Byte
deriving DecidableEq, Repr

/-- The blocks of a stream, `n` whole ones being left (40_adpcm_decoder.md R130, R131, R134). -/
def decodeBlocks : Nat → Bytes → Accumulators → AdpcmOut
  | 0, _, _ => { samples := [], endFlags := none }
  | n + 1, data, a =>
    let header := data.getD 0 0
    let flags := data.getD 1 0
    let out := decodeNibbles (header.extractLsb' 0 4).toNat (header.extractLsb' 4 4).toNat (memRead data 2 14) a
    if flags.getLsbD 0 then { samples := out.2, endFlags := some flags }
    else
      let more := decodeBlocks n (data.drop 16) out.1
      { more with samples := out.2 ++ more.samples }

/-- `DECODE_ADPCM` with the flags that its caller reads (40_adpcm_decoder.md R130, 45_bank_loader.md R352). -/
def adpcm (data : Bytes) : AdpcmOut := decodeBlocks (data.length / 16) data .fresh

/-- `DECODE_ADPCM(data)` (40_adpcm_decoder.md R130): the samples; nothing else changes. -/
def execDecodeAdpcm (data : Bytes) (s : State) : Host.Outcome State Fault Refusal :=
  .next (s.withResult (.samples (adpcm data).samples))

end Sys2Proof.Machine
end

