-- ==== Sys2Proof/Machine/Envelope.lean ====
section
/-! DEFINITION. The envelope curve generator (41_envelope_generator.md): the rate table, `ConvADSR`, and the command `MAKE_ADSR`. -/

namespace Sys2Proof.Machine

open Sys2Proof

/-! ### The rate table (41_envelope_generator.md R150) -/

/-- The ceiling of a rate. -/
def rateMax : BitVec 32 := 0x3FFFFFFF

/-- The three u32 variables of the table build. -/
structure RateVars where
  r : BitVec 32
  rs : BitVec 32
  rd : BitVec 32
deriving DecidableEq, Repr

/-- One turn of the build loop before its entry is stored (41_envelope_generator.md R150). -/
def rateTurn (x : RateVars) : RateVars :=
  let y : RateVars :=
    if x.r < rateMax then
      if x.rd + 1 = 5 then { r := x.r + x.rs, rs := x.rs * 2, rd := 1 }
      else { r := x.r + x.rs, rs := x.rs, rd := x.rd + 1 }
    else x
  { y with r := if rateMax < y.r then rateMax else y.r }

/-- The entries that `n` turns store. -/
def rateEntries : Nat → RateVars → List (BitVec 32)
  | 0, _ => []
  | n + 1, x => (rateTurn x).r :: rateEntries n (rateTurn x)

/-- As many entries as turns. -/
theorem rateEntries_length (n : Nat) (x : RateVars) : (rateEntries n x).length = n := by
  induction n generalizing x with
  | zero => rfl
  | succ n ih => simp [rateEntries, ih]

/-- The 160 entries of `BuildRateTable` (41_envelope_generator.md R150). -/
def rateTable : Vector (BitVec 32) 160 :=
  ⟨(List.replicate 32 0 ++ rateEntries 128 { r := 3, rs := 1, rd := 0 }).toArray, by
    simp [rateEntries_length]⟩

/-- `BuildRateTable` on first use (41_envelope_generator.md R153). -/
def State.ensureTable (s : State) : State :=
  if s.rtBuilt then s else { s with rt := rateTable, rtBuilt := true }

/-! ### Helpers of the completion (41_envelope_generator.md R157) -/

/-- `RT[RZ(x) + 32]`, `RZ(x) = max(x, 0)`; every index formed lies in 32..144 (41_envelope_generator.md R157). -/
def rateAt (rt : Vector (BitVec 32) 160) (x : Int) : Nat := (rt.toList.getD (x.toNat + 32) 0).toNat

/-- `ENV_MAX`. -/
def envMax : Nat := 0x7FFFFFFF

/-- `OFF`, by the top three bits of the counter (41_envelope_generator.md R157). -/
def stepOffset : Nat → Int
  | 0 => 0
  | 1 => 4
  | 2 => 6
  | 3 => 8
  | 4 => 9
  | 5 => 10
  | 6 => 11
  | _ => 12

/-- `cdiv(a, b) = ceil(a / b)` (41_envelope_generator.md R157). -/
def cdiv (a b : Nat) : Nat := (a + b - 1) / b

/-- Whether the loop of `Stepped` goes on at counter `e` (41_envelope_generator.md R157). -/
def steppedGoesOn (stopLevel : Option Nat) (e : Nat) : Bool :=
  decide (0 < e) &&
    (match stopLevel with
      | none => true
      | some l => decide (l < e / 2 ^ 27))

/-- The loop of `Stepped` (41_envelope_generator.md R157): the count and the counter where it ends. The counter
is a natural number: a subtraction that would pass below 0 gives 0, which is the loop's `max(e, 0)`. Each turn
takes at least 1 off a counter of at most `ENV_MAX` when the rate is not 0, so `fuel` is never spent on a built
table (log entry 24). -/
def steppedLoop (rt : Vector (BitVec 32) 160) (base : Int) (stopLevel : Option Nat) : Nat → Nat → Nat → Nat × Nat
  | 0, e, n => (n, e)
  | fuel + 1, e, n =>
    if steppedGoesOn stopLevel e then
      steppedLoop rt base stopLevel fuel (e - rateAt rt (base + stepOffset (e / 2 ^ 28))) (n + 1)
    else (n, e)

/-- `Stepped(base, stopLevel)` (41_envelope_generator.md R157). -/
def stepped (rt : Vector (BitVec 32) 160) (base : Int) (stopLevel : Option Nat) : Nat × Nat :=
  steppedLoop rt base stopLevel envMax envMax 0

/-! ### ConvADSR (41_envelope_generator.md R155 to R165) -/

/-- The nine fields of the two ADSR words, as numbers (30_encoding.md R96, R97). -/
structure AdsrFields where
  am : Nat
  ar : Nat
  dr : Nat
  sl : Nat
  sm : Nat
  sd : Nat
  sr : Nat
  rm : Nat
  rr : Nat
deriving DecidableEq, Repr

/-- The fields of the two words (41_envelope_generator.md R155); bit 13 of the second is ignored. -/
def unpackAdsr (adsr1 adsr2 : BitVec 16) : AdsrFields :=
  { am := (adsr1.extractLsb' 15 1).toNat
    ar := (adsr1.extractLsb' 8 7).toNat
    dr := (adsr1.extractLsb' 4 4).toNat
    sl := (adsr1.extractLsb' 0 4).toNat
    sm := (adsr2.extractLsb' 15 1).toNat
    sd := (adsr2.extractLsb' 14 1).toNat
    sr := (adsr2.extractLsb' 6 7).toNat
    rm := (adsr2.extractLsb' 5 1).toNat
    rr := (adsr2.extractLsb' 0 5).toNat }

/-- Every field within its bit width (41_envelope_generator.md R156). -/
def AdsrFields.inRange (f : AdsrFields) : Bool :=
  decide (f.am ≤ 1) && decide (f.ar ≤ 0x7F) && decide (f.dr ≤ 0xF) && decide (f.sl ≤ 0xF) && decide (f.rm ≤ 1) &&
    decide (f.rr ≤ 0x1F) && decide (f.sm ≤ 1) && decide (f.sd ≤ 1) && decide (f.sr ≤ 0x7F)

/-- The envelope returned on a range error (41_envelope_generator.md R156). -/
def Adsr.default : Adsr := { attack := 1 / 1000, decay := 1 / 2, sustain := 1 / 2, release := 1 }

/-- `nA` (41_envelope_generator.md R158). -/
def attackCount (rt : Vector (BitVec 32) 160) (f : AdsrFields) : Nat :=
  let a0 : Int := (f.ar ^^^ 0x7F : Nat)
  let a : Int := if a0 < 0x10 then 0x7F else a0
  let rate := rateAt rt (a - 0x10)
  if f.am = 0 then cdiv 0x7FFFFFFF rate
  else 0x60000000 / rate + cdiv (0x1FFFFFFF - 0x60000000 % rate) (rateAt rt (a - 0x18))

/-- `nD` and the counter where the decay loop stops (41_envelope_generator.md R159). -/
def decayCount (rt : Vector (BitVec 32) 160) (f : AdsrFields) : Nat × Nat :=
  stepped rt (4 * ((f.dr ^^^ 0x1F : Nat) : Int) - 0x18) (some f.sl)

/-- `nS`, or none for an increasing or an infinite sustain (41_envelope_generator.md R160). -/
def sustainCount (rt : Vector (BitVec 32) 160) (f : AdsrFields) : Option Nat :=
  if f.sd = 0 ∨ f.sr = 0x7F then none
  else if f.sm = 0 then some (cdiv 0x7FFFFFFF (rateAt rt (((f.sr ^^^ 0x7F : Nat) : Int) - 0x0F)))
  else some (stepped rt (((f.sr ^^^ 0x7F : Nat) : Int) - 0x1B) none).1

/-- `nR` (41_envelope_generator.md R161). -/
def releaseCount (rt : Vector (BitVec 32) 160) (f : AdsrFields) : Nat :=
  let r0 : Int := 4 * ((f.rr ^^^ 0x1F : Nat) : Int)
  if f.rm = 0 then cdiv 0x7FFFFFFF (rateAt rt (r0 - 0x0C))
  else
    let rr : Int := if r0 < 0x18 then 124 else r0
    (stepped rt (rr - 0x18) none).1

/-- A count of samples in seconds (41_envelope_generator.md R162). -/
def seconds (n : Nat) : NumQ := (n : NumQ) / 44100

/-- `susTime` (41_envelope_generator.md R160). -/
def sustainTime (rt : Vector (BitVec 32) 160) (f : AdsrFields) : Option NumQ :=
  match sustainCount rt f with
  | some n => some (dbCorr (seconds n))
  | none => none

/-- Whether the substitution applies, a finite sustain time apart (41_envelope_generator.md R164). -/
def nearMax (nD : Nat) (f : AdsrFields) : Bool :=
  (decide (nD < 2) || (decide (0x0E ≤ f.dr) && decide (0x0C ≤ f.sl))) && decide (f.sr < 0x7E)

/-- `decay` and `sustain`, with the substitution (41_envelope_generator.md R164): the sustain time for the
decay, and a sustain level of 0. -/
def decayAndSustain (rt : Vector (BitVec 32) 160) (f : AdsrFields) : NumQ × NumQ :=
  let d := decayCount rt f
  match sustainTime rt f with
  | some t =>
    if nearMax d.1 f then (t, 0) else (seconds d.1, (d.2 : NumQ) / (envMax : NumQ))
  | none => (seconds d.1, (d.2 : NumQ) / (envMax : NumQ))

/-- `ConvADSR` on fields in range (41_envelope_generator.md R158 to R165). -/
def convertFields (rt : Vector (BitVec 32) 160) (f : AdsrFields) : Adsr :=
  let ds := decayAndSustain rt f
  { attack := seconds (attackCount rt f)
    decay := ds.1
    sustain := ds.2
    release := dbCorr (seconds (releaseCount rt f)) }

/-- `ConvADSR` (41_envelope_generator.md R156): the default and a diagnostic on a range error. The table is built on
first use before the fields are validated, so also on a range error: R153 puts the build in `MAKE_ADSR` and R156 shows
none, so that the order for another caller is the model's (DESIGN CHOICE, log entry 23; no command reaches it). -/
def convAdsr (f : AdsrFields) (s : State) : State × Adsr :=
  let s1 := s.ensureTable
  if f.inRange then (s1, convertFields s1.rt f) else (s1.emit .adsrRange, Adsr.default)

/-- `MakeADSR` (41_envelope_generator.md R154, R155). -/
def makeAdsr (adsr1 adsr2 : BitVec 16) (s : State) : State × Adsr := convAdsr (unpackAdsr adsr1 adsr2) s

/-- `MAKE_ADSR(ADSR1, ADSR2)` (41_envelope_generator.md R154): the envelope parameters; the rate table is built
on first use. -/
def execMakeAdsr (adsr1 adsr2 : BitVec 16) (s : State) : Host.Outcome State Fault Refusal :=
  let out := makeAdsr adsr1 adsr2 s
  .next (out.1.withResult (.envelope out.2))

end Sys2Proof.Machine
end

