-- ==== Sys2Proof/Machine/Flags.lean ====
section
/-! DEFINITION. The per-voice flags `active` and `phase`: the envelope state machine that moves them (42_voice.md R193, R196 to R201). -/

namespace Sys2Proof.Machine

open Sys2Proof

/-- The easing step (42_voice.md R201). -/
def ease (x target k dt : NumQ) : NumQ := x + (target - x) * min 1 (k * dt)

/-- Attack: a linear ramp to 1, then Decay (42_voice.md R196). -/
def attackStep (e : Adsr) (dt : NumQ) (v : Voice) : Voice :=
  let x := if e.attack ≤ 0 then 1 else v.env + dt / e.attack
  if 1 ≤ x then { v with env := 1, phase := .decay } else { v with env := x }

/-- The rate of Decay and Sustain, per second (42_voice.md R197, R198). -/
def decayRate (e : Adsr) : NumQ := 15 / (e.decay + 1 / 1000)

/-- Decay: ease toward the sustain level, to Sustain once within 0.01 of it (42_voice.md R197). -/
def decayStep (e : Adsr) (dt : NumQ) (v : Voice) : Voice :=
  let x := ease v.env e.sustain (decayRate e) dt
  if |x - e.sustain| < 1 / 100 then { v with env := x, phase := .sustain } else { v with env := x }

/-- Sustain: keep easing toward the sustain level (42_voice.md R198). -/
def sustainStep (e : Adsr) (dt : NumQ) (v : Voice) : Voice :=
  { v with env := ease v.env e.sustain (decayRate e) dt }

/-- The release time in force: the override, else the tone's (42_voice.md R199). -/
def releaseTime (e : Adsr) (v : Voice) : NumQ := v.relOverride.getD e.release

/-- Release: ease toward 0, to Idle and inactive once below 0.001 (42_voice.md R199). -/
def releaseStep (e : Adsr) (dt : NumQ) (v : Voice) : Voice :=
  let x := ease v.env 0 (8 / (releaseTime e v + 5 / 1000)) dt
  if x < 1 / 1000 then { v with env := 0, phase := .idle, active := false, lastOut := 0 }
  else { v with env := x }

/-- One envelope step of an active voice: one phase's step (42_voice.md R196 to R200). Idle has none. -/
def envelopeStep (e : Adsr) (dt : NumQ) (v : Voice) : Voice :=
  match v.phase with
  | .attack => attackStep e dt v
  | .decay => decayStep e dt v
  | .sustain => sustainStep e dt v
  | .release => releaseStep e dt v
  | .idle => v

/-- `NoteOff`: Attack, Decay, Sustain to Release, and nothing else (42_voice.md R193). -/
def Voice.noteOff (v : Voice) : Voice :=
  match v.phase with
  | .attack => { v with phase := .release }
  | .decay => { v with phase := .release }
  | .sustain => { v with phase := .release }
  | .release => v
  | .idle => v

end Sys2Proof.Machine
end

