-- ==== Sys2Proof/Machine/Voice.lean ====
section
/-! DEFINITION. The three internal operations of a voice (42_voice.md): `NoteOn`, `NoteOff` (in Flags) and `GetSamples`: the pan law, the resampler and the output. -/

namespace Sys2Proof.Machine

open Sys2Proof

/-! ### NoteOn (42_voice.md R191, R192) -/

/-- A pair of left and right values. -/
structure Stereo where
  left : NumQ
  right : NumQ
deriving DecidableEq, Repr

/-- `PanGains(vol, pan)`: the constant-power pan law, both arguments clamped into [0,1] (42_voice.md R192). -/
def panGains (vol pan : NumQ) : Stereo :=
  let v := clampNum vol 0 1
  let p := clampNum pan 0 1
  { left := cosQuarter p * v, right := sinQuarter p * v }

/-- The voice that `NoteOn` leaves, whatever it was before (42_voice.md R191). -/
def armedVoice (tone : ToneRef) (pitch volume pan : NumQ) (note programId : Nat) : Voice :=
  let g := panGains volume pan
  { active := true, phase := .attack, env := 0, tone := some tone, cursor := 0, basePitch := pitch, pitch := pitch
    volL := g.left, volR := g.right, lastOut := 0, programId := some programId, note := some note, relOverride := none }

/-! ### GetSamples: the resampler (42_voice.md R202 to R207, R210) -/

/-- The cursor advance of one call (42_voice.md R202). -/
def cursorStep (v : Voice) (dt modIn : NumQ) : NumQ := v.pitch * 44100 * dt * (1 + 1 / 10 * modIn)

/-- A cursor that has fallen below 0 or reached the end of the data, and the end-of-data release of a tone that
does not loop (42_voice.md R204, R205, R210). 42_voice.md R211 also claims `cursor <= len - 1` of such a tone, which
R205 does not give: a cursor between `len - 1` and `len` is left there (DESIGN CHOICE between the two, log entry 30). -/
def settleCursor (t : Tone) (v : Voice) : Voice :=
  if v.cursor < 0 then { v with cursor := if t.loop then fmod v.cursor t.len else 0 }
  else if (t.len : NumQ) ≤ v.cursor then
    if t.loop then { v with cursor := fmod v.cursor t.len }
    else { v with cursor := (t.len : NumQ) - 1, relOverride := some (5 / 1000), phase := .release }
  else v

/-- The index of a tap: wrapped for a looping tone, clamped otherwise (42_voice.md R206). -/
def tapIndex (t : Tone) (i : Int) : Int :=
  if t.loop then i % (t.len : Int) else clampInt i 0 ((t.len : Int) - 1)

/-- The sample at a tap. -/
def tap (t : Tone) (i : Int) : NumQ := t.data.getD (tapIndex t i).toNat 0

/-- The Catmull-Rom cubic (42_voice.md R207). -/
def cubic (y0 y1 y2 y3 x : NumQ) : NumQ :=
  let c0 := y1
  let c1 := (y2 - y0) / 2
  let c2 := y0 - 5 / 2 * y1 + 2 * y2 - 1 / 2 * y3
  let c3 := (y3 - y0) / 2 + 3 / 2 * (y1 - y2)
  ((c3 * x + c2) * x + c1) * x + c0

/-- The interpolated sample at a cursor (42_voice.md R206, R207). -/
def interpolate (t : Tone) (cursor : NumQ) : NumQ :=
  let i := floorOf cursor
  cubic (tap t (i - 1)) (tap t i) (tap t (i + 1)) (tap t (i + 2)) (cursor - (i : NumQ))

/-! ### GetSamples (42_voice.md R194, R195, R208, R209) -/

/-- What a call of `GetSamples` leaves: the voice, and its stereo output. -/
structure VoiceOut where
  voice : Voice
  out : Stereo
deriving DecidableEq, Repr

/-- The output of an active voice at its settled cursor (42_voice.md R206 to R209). -/
def outputStep (t : Tone) (v : Voice) : VoiceOut :=
  let x := interpolate t v.cursor * v.env
  { voice := { v with lastOut := x }, out := { left := x * v.volL, right := x * v.volR } }

/-- `GetSamples(i, dt, modIn)` on a voice and its tone, in the order of 42_voice.md R194. -/
def getSamples (t : Tone) (dt modIn : NumQ) (v : Voice) : VoiceOut :=
  if v.active then
    let e := envelopeStep t.adsr dt v
    if e.active then
      outputStep t (settleCursor t { e with cursor := e.cursor + cursorStep e dt modIn })
    else { voice := e, out := { left := 0, right := 0 } }
  else { voice := { v with lastOut := 0 }, out := { left := 0, right := 0 } }

end Sys2Proof.Machine
end

