-- ==== Sys2Proof/Machine/Pool.lean ====
section
/-! DEFINITION. The voice pool and its allocator (43_pool_mixer.md R230 to R239): the commands `PLAY_NOTE`, `STOP_VOICE`, `IS_SOUND_PLAYING`, `SET_VOICE_3D`, `UPDATE_VOICE_PITCH`, and the bend of a program's voices. -/

namespace Sys2Proof.Machine

open Sys2Proof

/-! ### The allocator -/

/-- `Playable(tone)`: populated, with samples, not synthetic (43_pool_mixer.md R234). -/
def State.playable (s : State) (r : ToneRef) : Bool :=
  match s.toneAt r with
  | some t => decide (1 ≤ t.len) && !t.synthetic
  | none => false

/-- The least voice index with a property. -/
def State.leastVoice (s : State) (f : Voice → Bool) : Option (Fin 127) :=
  (List.finRange 127).find? (fun i => f (s.voice i))

/-- The next index of the pool, modulo 127. -/
def nextVoice (i : Fin 127) : Fin 127 := ⟨(i.val + 1) % 127, Nat.mod_lt _ (by decide)⟩

/-- The steal cursor advanced by one (43_pool_mixer.md R232). -/
def State.advanceSteal (s : State) : State := { s with stealCursor := nextVoice s.stealCursor }

/-- The voice that the allocator takes, and the state after a steal's bookkeeping: the least inactive voice; else
the least one in Release; else the one at `stealCursor`, which advances, with a diagnostic
(43_pool_mixer.md R230 to R232). -/
def State.allocate (s : State) : State × Fin 127 :=
  match s.leastVoice (fun v => !v.active) with
  | some i => (s, i)
  | none =>
    match s.leastVoice (fun v => v.phase == .release) with
    | some i => (s, i)
    | none => (s.advanceSteal.emit (.voiceStolen s.stealCursor), s.stealCursor)

/-- What `PLAY_NOTE` answers: the state, and the voice taken, if any. -/
structure Played where
  state : State
  voice : Option (Fin 127)

/-- `PLAY_NOTE` on a tone reference (43_pool_mixer.md R230, R233, R234): nothing happens when it is not playable. -/
def State.playTone (s : State) (tone : ToneRef) (pitch volume : NumQ) (fmEnabled : Bool) (pan : NumQ)
    (note programId : Nat) : Played :=
  if s.playable tone then
    let a := s.allocate
    { state := (a.1.setFm a.2 fmEnabled).setVoice a.2 (armedVoice tone pitch volume pan note programId)
      voice := some a.2 }
  else { state := s, voice := none }

/-- The tone reference of two host integers: none below 0, where no tone is (43_pool_mixer.md R234). -/
def toneRefOf (p t : Int) : Option ToneRef :=
  if 0 ≤ p ∧ 0 ≤ t then some { program := p.toNat, index := t.toNat } else none

/-- The host's result of a voice taken: its id, or -1. -/
def voiceResult : Option (Fin 127) → Result
  | some i => .voiceId i
  | none => .voiceId (-1)

/-- `PLAY_NOTE` (43_pool_mixer.md R230). -/
def execPlayNote (p t : Int) (pitch volume : NumQ) (fmEnabled : Bool) (pan : NumQ) (note programId : BitVec 7)
    (s : State) : Host.Outcome State Fault Refusal :=
  match toneRefOf p t with
  | some r =>
    let out := s.playTone r pitch volume fmEnabled pan note.toNat programId.toNat
    .next (out.state.withResult (voiceResult out.voice))
  | none => .next (s.withResult (voiceResult none))

/-! ### Per-voice commands (43_pool_mixer.md R235 to R239) -/

/-- A change of one voice, or nothing for an id that names none (43_pool_mixer.md R239). -/
def State.onVoice (s : State) (id : Int) (f : Voice → Voice) : State :=
  match voiceIndex id with
  | some i => s.setVoice i (f (s.voice i))
  | none => s

/-- `STOP_VOICE(id)`: `NoteOff` (43_pool_mixer.md R235). -/
def execStopVoice (id : Int) (s : State) : Host.Outcome State Fault Refusal :=
  .next ((s.onVoice id Voice.noteOff).withResult .none)

/-- `IS_SOUND_PLAYING(id)` (43_pool_mixer.md R236). -/
def execIsSoundPlaying (id : Int) (s : State) : Host.Outcome State Fault Refusal :=
  .next (s.withResult (.bool (match voiceIndex id with
    | some i => (s.voice i).active
    | none => false)))

/-- The gains of a voice set anew (43_pool_mixer.md R237). -/
def Voice.withGains (g : Stereo) (v : Voice) : Voice := { v with volL := g.left, volR := g.right }

/-- `SET_VOICE_3D(id, vol, pan)` (43_pool_mixer.md R237). -/
def execSetVoice3d (id : Int) (vol pan : NumQ) (s : State) : Host.Outcome State Fault Refusal :=
  .next ((s.onVoice id (Voice.withGains (panGains vol pan))).withResult .none)

/-- The pitch factor of a normalised bend, two semitones at full scale (43_pool_mixer.md R238). -/
def bendFactor (bend : NumQ) : NumQ := pow2 (bend * 2 / 12)

/-- A voice bent from its base pitch, not cumulatively (43_pool_mixer.md R238). -/
def Voice.bent (bend : NumQ) (v : Voice) : Voice := { v with pitch := v.basePitch * bendFactor bend }

/-- `UPDATE_VOICE_PITCH(id, bend)` (43_pool_mixer.md R238). -/
def execUpdateVoicePitch (id : Int) (bend : NumQ) (s : State) : Host.Outcome State Fault Refusal :=
  .next ((s.onVoice id (Voice.bent bend)).withResult .none)

/-! ### Changes of every voice with a property (44_sequencer.md R301, R305) -/

/-- Every voice changed by one function. -/
def State.mapVoices (s : State) (f : Voice → Voice) : State := { s with voices := s.voices.map f }

/-- An active voice that program `p` triggered (44_sequencer.md R305). -/
def Voice.ofProgram (p : Nat) (v : Voice) : Bool := v.active && decide (v.programId = some p)

/-- `ProgramBend(p, bend)` (44_sequencer.md R305). -/
def State.programBend (s : State) (p : Nat) (bend : NumQ) : State :=
  s.mapVoices (fun v => if v.ofProgram p then v.bent bend else v)

end Sys2Proof.Machine
end

