-- ==== Sys2Proof/Machine/Bank.lean ====
section
/-! DEFINITION. The bank loader (45_bank_loader.md): the commands `BANK_LOAD`, `BANK_UNLOAD_ALL`, `IS_PROGRAM_POPULATED`. -/

namespace Sys2Proof.Machine

open Sys2Proof

/-! ### BANK_UNLOAD_ALL (45_bank_loader.md R360) -/

/-- A voice cut at once (45_bank_loader.md R360). -/
def Voice.cut (v : Voice) : Voice :=
  { v with active := false, phase := .idle, tone := none, env := 0, lastOut := 0, relOverride := none }

/-- The tone memory unpopulated, and `BANK_MASTER` at 127 (45_bank_loader.md R360). -/
def State.clearTones (s : State) : State := { s with prog := Vector.replicate 128 Program.empty, bankMaster := 127 }

/-- `BANK_MASTER <- b` (45_bank_loader.md R355). -/
def State.setBankMaster (s : State) (b : Byte) : State := { s with bankMaster := b }

/-- Every voice cut, every program cleared, `BANK_MASTER` at 127; nothing else is touched (45_bank_loader.md R360). -/
def State.unloadAll (s : State) : State := (s.mapVoices Voice.cut).clearTones

/-- `BANK_UNLOAD_ALL` (45_bank_loader.md R360). -/
def execBankUnloadAll (s : State) : Host.Outcome State Fault Refusal := .next (s.unloadAll.withResult .none)

/-! ### The VAG walk (45_bank_loader.md R344 to R347, R352) -/

/-- A decoded VAG: its data and its loop flag (45_bank_loader.md R346). -/
structure Vag where
  data : List NumQ
  loop : Bool
deriving DecidableEq, Repr

/-- The loop flag: the end-flagged block's flags byte has bits 0 and 1 set (45_bank_loader.md R352). -/
def loopFlag (endFlags : Option Byte) : Bool :=
  match endFlags with
  | some f => f.getLsbD 0 && f.getLsbD 1
  | none => false

/-- A sample as a number in [-1, 1) (45_bank_loader.md R347). -/
def normalised (x : BitVec 16) : NumQ := (x.toInt : NumQ) / 32768

/-- `DecodeVag(slice)` (45_bank_loader.md R346): none when nothing decodes. -/
def decodeVag (slice : Bytes) : Option Vag :=
  let o := adpcm slice
  if o.samples = [] then none else some { data := o.samples.map normalised, loop := loopFlag o.endFlags }

/-- `size(k)` for `k` from 1 (45_bank_loader.md R344). -/
def vagSize (hdr : Bytes) (tableAddr k : Nat) : Nat := 8 * u16le hdr (tableAddr + 2 * (k - 1))

/-- `WalkBody` from VAG `k` and body position `pos`, `n` entries being left (45_bank_loader.md R345): the decoded
VAGs in order, a skipped one as none. -/
def walkFrom (hdr body : Bytes) (tableAddr : Nat) : Nat → Nat → Nat → List (Option Vag)
  | 0, _, _ => []
  | n + 1, k, pos =>
    let sz := vagSize hdr tableAddr k
    if sz = 0 ∨ body.length < pos + sz then none :: walkFrom hdr body tableAddr n (k + 1) pos
    else decodeVag (memRead body pos sz) :: walkFrom hdr body tableAddr n (k + 1) (pos + sz)

/-- `WalkBody`: index 0 is unused, so the list begins with none (45_bank_loader.md R344, R345). -/
def walkBody (hdr body : Bytes) (tableAddr vagCount : Nat) : List (Option Vag) :=
  none :: walkFrom hdr body tableAddr vagCount 1 0

/-! ### Tones (45_bank_loader.md R349 to R354) -/

/-- `NoteRange(mn, mx)`: the zero test, then the swap (45_bank_loader.md R350). -/
def noteRange (mn mx : Nat) : Nat × Nat :=
  let mx := if mx = 0 then 127 else mx
  if mx < mn then (mx, mn) else (mn, mx)

/-- `ToneVolume(progVol, toneVol)` (45_bank_loader.md R351). -/
def toneVolume (progVol toneVol : Nat) : Nat :=
  let b := min 127 (progVol * toneVol / 127)
  if b = 0 then 100 else b

/-- The centre note: 60 when stored as 0 (45_bank_loader.md R349). -/
def centerNoteOf (stored : Nat) : Nat := if stored = 0 then 60 else stored

/-- The tone of a record (45_bank_loader.md R349). -/
def toneOf (hdr : Bytes) (base progVol : Nat) (g : Vag) (e : Adsr) : Tone :=
  let range := noteRange (u8 hdr (base + 6)) (u8 hdr (base + 7))
  { data := g.data
    minNote := BitVec.ofNat 8 range.1
    maxNote := BitVec.ofNat 8 range.2
    centerNote := BitVec.ofNat 8 (centerNoteOf (u8 hdr (base + 4)))
    fineTune := BitVec.ofNat 8 (u8 hdr (base + 5))
    loop := g.loop
    adsr := e
    volume := BitVec.ofNat 8 (toneVolume progVol (u8 hdr (base + 2)))
    synthetic := false }

/-- The offset of a tone attribute record (45_bank_loader.md R349). -/
def toneRecord (p t : Nat) : Nat := 2080 + 512 * p + 32 * t

/-- A tone appended to a program (45_bank_loader.md R349, R354). -/
def State.appendTone (s : State) (p : Fin 128) (t : Tone) : State :=
  s.setProgram p { tones := (s.program p).tones ++ [t] }

/-- The decoded VAG that a record's index names, if there is one (45_bank_loader.md R354). -/
def namedVag (pcm : List (Option Vag)) (v : Nat) : Option Vag := (pcm[v]?).join

/-- `LoadTone` (45_bank_loader.md R349): a record that does not lie in the header, or names no decoded VAG, is skipped. -/
def loadTone (hdr : Bytes) (pcm : List (Option Vag)) (p : Fin 128) (progVol : Nat) (s : State) (t : Nat) : State :=
  let base := toneRecord p t
  if hdr.length < base + 32 then s
  else
    match namedVag pcm (u16le hdr (base + 22)) with
    | some g =>
      let m := makeAdsr (BitVec.ofNat 16 (u16le hdr (base + 16))) (BitVec.ofNat 16 (u16le hdr (base + 18))) s
      m.1.appendTone p (toneOf hdr base progVol g m.2)
    | none => s

/-- The tone records of program `p` (45_bank_loader.md R340, R348). -/
def loadProgram (hdr : Bytes) (pcm : List (Option Vag)) (s : State) (p : Fin 128) : State :=
  (List.range (min (u8 hdr (32 + 16 * p)) 16)).foldl (loadTone hdr pcm p (u8 hdr (32 + 16 * p + 1))) s

/-! ### BANK_LOAD (45_bank_loader.md R340 to R343, R355, R356) -/

/-- `tableAddr` (45_bank_loader.md R343). -/
def tableAddress (programCount : Nat) : Nat := 2080 + programCount * 512 + 2

/-- The three checks, in their order (45_bank_loader.md R341). -/
def bankAccepted (hdr : Bytes) : Bool :=
  decide (Config.vabMinHeader ≤ hdr.length) && decide (u16le hdr 18 ≠ 0) &&
    decide (tableAddress (u16le hdr 18) + 2 * u16le hdr 22 ≤ hdr.length)

/-- The tables of an accepted bank loaded into a cleared tone memory (45_bank_loader.md R340). -/
def State.loadBank (s : State) (hdr body : Bytes) : State :=
  let pcm := walkBody hdr body (tableAddress (u16le hdr 18)) (u16le hdr 22)
  (List.finRange 128).foldl (loadProgram hdr pcm) (s.setBankMaster (BitVec.ofNat 8 (u8 hdr 24)))

/-- `BANK_LOAD(hdr, body)` (45_bank_loader.md R340): the old bank goes first, also when the load then fails (R356). -/
def execBankLoad (hdr body : Bytes) (s : State) : Host.Outcome State Fault Refusal :=
  let cleared := s.unloadAll
  if bankAccepted hdr then .next ((cleared.loadBank hdr body).withResult (.bool true))
  else .next (cleared.withResult (.bool false))

/-- `IS_PROGRAM_POPULATED(p)` (45_bank_loader.md R358). -/
def execIsProgramPopulated (p : Int) (s : State) : Host.Outcome State Fault Refusal :=
  .next (s.withResult (.bool (match programIndex p with
    | some i => decide (0 < (s.program i).tones.length)
    | none => false)))

end Sys2Proof.Machine
end

