-- ==== Sys2Proof/Machine/Mixer.lean ====
section
/-! DEFINITION. The mixer (43_pool_mixer.md R250 to R260): the frame loop, the FM chain, the reverb, the soft clip and the quantiser, and the command `GENERATE_AUDIO`. -/

namespace Sys2Proof.Machine

open Sys2Proof

/-! ### One voice in one frame (43_pool_mixer.md R251, R252) -/

/-- The voice before voice `i`, circularly (43_pool_mixer.md R252). -/
def prevVoice (i : Fin 127) : Fin 127 := ⟨(i.val + 126) % 127, Nat.mod_lt _ (by decide)⟩

/-- The FM input of voice `i`: its predecessor's last output, or 0 when its flag is off (43_pool_mixer.md R252). -/
def State.modIn (s : State) (i : Fin 127) : NumQ := if s.fm[i] then (s.voice (prevVoice i)).lastOut else 0

/-- A tone of no samples, which stands in where a reference names none: `GENERATE_AUDIO` faults before it reads
one (log entry 14). -/
def Tone.silent : Tone :=
  { data := [], minNote := 0, maxNote := 0, centerNote := 0, fineTune := 0, loop := false
    adsr := { attack := 0, decay := 0, sustain := 0, release := 0 }, volume := 0, synthetic := false }

/-- The tone that a voice plays. -/
def State.toneOf (s : State) (v : Voice) : Tone := (v.tone.bind s.toneAt).getD Tone.silent

/-- A state in the middle of a frame, with the sums so far. -/
structure MixState where
  state : State
  sum : Stereo

/-- Voice `i`'s part of a frame (43_pool_mixer.md R251). -/
def mixVoice (x : MixState) (i : Fin 127) : MixState :=
  let v := x.state.voice i
  if v.active then
    let o := getSamples (x.state.toneOf v) Config.frameTime (x.state.modIn i) v
    { state := x.state.setVoice i o.voice
      sum := { left := x.sum.left + o.out.left, right := x.sum.right + o.out.right } }
  else { x with state := x.state.setVoice i { v with lastOut := 0 } }

/-- Every voice's part of a frame, in ascending order (43_pool_mixer.md R252). -/
def mixVoices (s : State) : MixState :=
  (List.finRange 127).foldl mixVoice { state := s, sum := { left := 0, right := 0 } }

/-! ### The reverb, the soft clip and the quantiser (43_pool_mixer.md R254 to R256) -/

/-- The next index of the delay line. -/
def nextEntry (i : Fin Config.reverbLen) : Fin Config.reverbLen :=
  ⟨(i.val + 1) % Config.reverbLen, Nat.mod_lt _ (by decide)⟩

/-- The state after `Reverb(sumL, sumR)`: the feedback written at `wp`, and `wp` advanced (43_pool_mixer.md R254). -/
def State.reverbWrite (s : State) (sum : Stereo) : State :=
  { s with
    delayLine := s.delayLine.write s.wp ((sum.left + sum.right) / 2 + openTimes Config.reverbDecay (s.delayLine.read s.wp))
    wp := nextEntry s.wp }

/-- The result of `Reverb(sumL, sumR)`: what was written 15435 frames ago added to both channels (43_pool_mixer.md R254). -/
def State.reverbOut (s : State) (sum : Stereo) : Stereo :=
  let d := s.delayLine.read s.wp
  { left := sum.left + openTimes Config.reverbWet d, right := sum.right + openTimes Config.reverbWet d }

/-- `Quantise(y)` (43_pool_mixer.md R256). -/
def quantise (y : NumQ) : BitVec 16 := toI16 (clamp16 (roundAway (y * 32767)))

/-- The soft clip and the quantiser of one channel, `Quantise(tanh(x))` (43_pool_mixer.md R255, R256). Where both
ends of the enclosure of `tanh x` give one value, every value between them gives it too, and the free value is not
consulted; `outputOf_eq` in Sys2Proof/Laws/Numeric.lean says that this is `quantise (tanhNum x)`. -/
def outputOf (x : NumQ) : BitVec 16 :=
  if quantise (tanhLow x) = quantise (tanhHigh x) then quantise (tanhLow x) else quantise (tanhNum x)

/-! ### Frames (43_pool_mixer.md R251) -/

/-- Frames rendered: the state after them, and the values they wrote to the output buffer. -/
structure Rendered where
  state : State
  out : List (BitVec 16)

/-- One frame: its two values, left first (20_memory.md R68). -/
def frame (s : State) : Rendered :=
  let x := mixVoices s
  let w := x.state.reverbOut x.sum
  { state := x.state.reverbWrite x.sum, out := [outputOf w.left, outputOf w.right] }

/-- `n` frames, one after another. -/
def frames : Nat → State → Rendered
  | 0, s => { state := s, out := [] }
  | n + 1, s =>
    let f := frame s
    let more := frames n f.state
    { state := more.state, out := f.out ++ more.out }

/-! ### The command -/

/-- The frames that a request yields: into `0..MAX_FRAMES` (43_pool_mixer.md R251, R257). -/
def frameCap (frameCount : Int) : Nat := min frameCount.toNat Config.maxFrames

/-- Whether every active voice names a playable tone (10_state.md R23). -/
def State.tonesLive (s : State) : Bool :=
  (List.finRange 127).all (fun i =>
    !(s.voice i).active ||
      (match (s.voice i).tone with
        | some r => s.playable r
        | none => false))

/-- `GENERATE_AUDIO(frameCount)` (43_pool_mixer.md R250, R251). It faults only where 10_state.md R23 does not
hold and a frame is asked for (log entry 14). -/
def execGenerateAudio (frameCount : Int) (s : State) : Host.Outcome State Fault Refusal :=
  let n := frameCap frameCount
  if n = 0 ∨ s.tonesLive = true then
    let r := frames n s
    .next (r.state.withResult (.pcm r.out))
  else .fault .danglingTone

end Sys2Proof.Machine
end

