-- ==== Sys2Proof/Machine/Sequencer.lean ====
section
/-! DEFINITION. The events of the sequencer (44_sequencer.md R295 to R312), each acting for the slot `curSlot` after its bytes have been passed. -/

namespace Sys2Proof.Machine

open Sys2Proof

/-! ### Notes (44_sequencer.md R295 to R301) -/

/-- The program of a channel of the slot whose event is executing. -/
def State.curProgram (s : State) (c : BitVec 4) : Nat := (s.channel s.curSlot c).program.toNat

/-- `NoteVolume(s, c, vel)`: the four-factor product, `BANK_MASTER` clamped to 127 (44_sequencer.md R297). -/
def State.noteVolume (s : State) (c : BitVec 4) (vel : BitVec 7) : NumQ :=
  let y := s.channel s.curSlot c
  unit127 vel.toNat * unit127 y.volume.toNat * unit127 y.expression.toNat * unit127 (min s.bankMaster.toNat 127)

/-- `NotePitch(T, key)` (44_sequencer.md R296). -/
def notePitch (t : Tone) (key : BitVec 7) : NumQ :=
  pow2 ((((key.toNat : NumQ) - (t.centerNote.toNat : NumQ)) + (t.fineTune.toInt : NumQ) / 128) / 12)

/-- Whether a key lies in a tone's range (44_sequencer.md R295). -/
def Tone.covers (t : Tone) (key : BitVec 7) : Bool :=
  decide (t.minNote.toNat ≤ key.toNat) && decide (key.toNat ≤ t.maxNote.toNat)

/-- Tone `index` of program `p`, started if the key lies in its range (44_sequencer.md R295, R298). -/
def State.triggerTone (p : Nat) (volume pan : NumQ) (key : BitVec 7) (s : State) (index : Nat) : State :=
  match s.toneAt { program := p, index := index } with
  | some t =>
    if t.covers key then
      (s.playTone { program := p, index := index } (notePitch t key) volume Config.seqFm pan key.toNat p).state
    else s
  | none => s

/-- Every tone of the channel's program whose range contains the key, in ascending order (44_sequencer.md R295). -/
def State.triggerNote (s : State) (c : BitVec 4) (key vel : BitVec 7) : State :=
  let p := s.curProgram c
  (List.range (s.program p).tones.length).foldl
    (State.triggerTone p (s.noteVolume c vel) (unit127 (s.channel s.curSlot c).pan.toNat) key) s

/-- `NoteOffAction(s, c, key)`: every active voice of the channel's program and the key released (44_sequencer.md R301). -/
def State.releaseNote (s : State) (c : BitVec 4) (key : BitVec 7) : State :=
  let p := s.curProgram c
  s.mapVoices (fun v => if v.ofProgram p && decide (v.note = some key.toNat) then v.noteOff else v)

/-- `NOTEOFF` (44_sequencer.md R300): the release velocity is ignored. -/
def execNoteOff (c : BitVec 4) (key _vel : BitVec 7) (s : State) : Host.Outcome State Fault Refusal :=
  .next (s.releaseNote c key)

/-- `NOTEON` (44_sequencer.md R295): velocity 0 acts as `NOTEOFF`. -/
def execNoteOn (c : BitVec 4) (key vel : BitVec 7) (s : State) : Host.Outcome State Fault Refusal :=
  .next (if vel = 0 then s.releaseNote c key else s.triggerNote c key vel)

/-! ### Controllers, program and pitch bend (44_sequencer.md R302 to R305) -/

/-- A change of a channel of the slot whose event is executing. -/
def State.onChannel (s : State) (c : BitVec 4) (f : Channel → Channel) : State :=
  s.setChannel s.curSlot c (f (s.channel s.curSlot c))

/-- `CC` with controller 7 (44_sequencer.md R302). -/
def execCcVolume (c : BitVec 4) (val : BitVec 7) (s : State) : Host.Outcome State Fault Refusal :=
  .next (s.onChannel c (fun y => { y with volume := registerOf val }))

/-- `CC` with controller 10 (44_sequencer.md R302). -/
def execCcPan (c : BitVec 4) (val : BitVec 7) (s : State) : Host.Outcome State Fault Refusal :=
  .next (s.onChannel c (fun y => { y with pan := registerOf val }))

/-- `CC` with controller 11 (44_sequencer.md R302). -/
def execCcExpr (c : BitVec 4) (val : BitVec 7) (s : State) : Host.Outcome State Fault Refusal :=
  .next (s.onChannel c (fun y => { y with expression := registerOf val }))

/-- `CC` with any other controller: consumed and ignored (44_sequencer.md R302). -/
def execCcOther (_c : BitVec 4) (_ctrl _val : BitVec 7) (s : State) : Host.Outcome State Fault Refusal := .next s

/-- `PC` (44_sequencer.md R303). -/
def execPc (c : BitVec 4) (prog : BitVec 7) (s : State) : Host.Outcome State Fault Refusal :=
  .next (s.onChannel c (fun y => { y with program := registerOf prog }))

/-- `PB` (44_sequencer.md R304): the active voices of the channel's program bent. -/
def execPb (c : BitVec 4) (ll mm : BitVec 7) (s : State) : Host.Outcome State Fault Refusal :=
  .next (s.programBend (s.curProgram c) (bendOf ll mm))

/-! ### Meta events and reserved statuses (44_sequencer.md R308 to R312) -/

/-- `SeqBadEvent` of the slot whose event is executing, at its cursor (44_sequencer.md R309, R312). -/
def State.badEventHere (s : State) : State :=
  s.raiseSlot s.curSlot (.seqBadEvent s.curSlot (s.slot s.curSlot).cursor)

/-- `TEMPO` (44_sequencer.md R309): a tempo of 0 raises `SeqBadEvent`. -/
def execTempo (t2 t1 t0 : Byte) (s : State) : Host.Outcome State Fault Refusal :=
  .next (if tempoOf t2 t1 t0 = 0 then s.badEventHere
    else s.setSlot s.curSlot { s.slot s.curSlot with tempo := tempoOf t2 t1 t0 })

/-- `EOT` (44_sequencer.md R310): the jump to offset 15, the accumulator and the running status cleared. -/
def execEot (s : State) : Host.Outcome State Fault Refusal :=
  .next (s.setSlot s.curSlot { s.slot s.curSlot with cursor := Config.seqHeaderLen, acc := 0, running := 0 })

/-- `META` (44_sequencer.md R311): its bytes have been skipped; nothing else happens. -/
def execMetaEvent (_ty : Byte) (_data : Bytes) (s : State) : Host.Outcome State Fault Refusal := .next s

/-- Reserved status `A0` to `AF` (44_sequencer.md R312). -/
def execReservedA0 (_c : BitVec 4) (s : State) : Host.Outcome State Fault Refusal := .next s.badEventHere

/-- Reserved status `D0` to `DF` (44_sequencer.md R312). -/
def execReservedD0 (_c : BitVec 4) (s : State) : Host.Outcome State Fault Refusal := .next s.badEventHere

/-- Reserved status `F0` to `FE` (44_sequencer.md R312). -/
def execReservedF0 (_low : BitVec 4) (s : State) : Host.Outcome State Fault Refusal := .next s.badEventHere

end Sys2Proof.Machine
end

