-- ==== Sys2Proof/Machine/Transport.lean ====
section
/-! DEFINITION. The sequencer's commands (44_sequencer.md R281 to R291, R315 to R318): `SEQ_PLAY`, `SEQ_UPDATE` with its catch-up loop, `SEQ_STOP`, `SEQ_STOP_ALL`, `SEQ_IS_PLAYING`, `PROGRAM_PITCH_BEND`. -/

namespace Sys2Proof.Machine

open Sys2Proof

/-! ### SEQ_PLAY (44_sequencer.md R281 to R284) -/

/-- The tests of `SEQ_PLAY` on the buffer, in their order: length, magic, version, tempo (44_sequencer.md R281). -/
def seqAccepted (data : Bytes) : Bool :=
  decide (Config.seqHeaderLen ≤ data.length) && decide (memRead data 0 4 = Config.seqMagic) &&
    decide (u8 data 7 = 1) && decide (u24be data 10 ≠ 0)

/-- The least Idle slot (44_sequencer.md R282). -/
def State.idleSlot (s : State) : Option (Fin 16) := (List.finRange 16).find? (fun k => !(s.slot k).active)

/-- A slot that has been given a stream and has read its first delay `wait`, `used` bytes long
(44_sequencer.md R281). -/
def startedSlot (data : Bytes) (bankId : Int) (used wait : Nat) : Slot :=
  { active := true, buf := some data, cursor := Config.seqHeaderLen + used, running := 0, acc := 0, wait := wait
    tempo := BitVec.ofNat 24 (u24be data 10), resolution := BitVec.ofNat 16 (u16be data 8)
    masterVolume := BitVec.ofNat 8 (u8 data 13), bankId := bankId, chan := Channel.initials }

/-- A stream started on slot `k` (44_sequencer.md R281). Where its first delay cannot be read, the record is
emitted and the state is otherwise the one before the command: the slot is Idle and without a buffer, as before, and
no register holds anything of the rejected stream (60_exceptions.md R371; DESIGN CHOICE between that rule and the code
of R281, log entry 11). -/
def State.startSlot (s : State) (k : Fin 16) (data : Bytes) (bankId : Int) : State :=
  let f := decodeVlq (data.drop Config.seqHeaderLen)
  match f.result with
  | .ok wait => (s.setSlot k (startedSlot data bankId f.used wait)).withResult (.slotId k)
  | .error e => (s.emit (streamDiag e k Config.seqHeaderLen)).withResult (.slotId (-1))

/-- `SEQ_PLAY(bytes, bankId)` (44_sequencer.md R281). -/
def execSeqPlay (data : Bytes) (bankId : Int) (s : State) : Host.Outcome State Fault Refusal :=
  .next (if seqAccepted data then
      match s.idleSlot with
      | some k => s.startSlot k data bankId
      | none => s.withResult (.slotId (-1))
    else s.withResult (.slotId (-1)))

/-! ### SEQ_UPDATE (44_sequencer.md R285, R286, R291) -/

/-- The state that an outcome goes on with: the next state, or the old one where there is none. Every event
answers a next state, so the second case is not taken (Sys2Proof.Laws.Sequencer, `exec_event_next`). -/
def outcomeState (s : State) : Host.Outcome State Fault Refusal → State
  | .next t => t
  | .fault _ => s
  | .refused _ => s

/-- The effect of a decoded event (44_sequencer.md R290): its meaning, the same one that `exec` calls. A command
is no event, and no fetch from a stream yields one. -/
def runEvent (i : Instr) (s : State) : State :=
  match i with
  | .noteOff c key vel => outcomeState s (execNoteOff c key vel s)
  | .noteOn c key vel => outcomeState s (execNoteOn c key vel s)
  | .reservedA0 c => outcomeState s (execReservedA0 c s)
  | .ccVolume c val => outcomeState s (execCcVolume c val s)
  | .ccPan c val => outcomeState s (execCcPan c val s)
  | .ccExpr c val => outcomeState s (execCcExpr c val s)
  | .ccOther c ctrl val => outcomeState s (execCcOther c ctrl val s)
  | .pc c prog => outcomeState s (execPc c prog s)
  | .reservedD0 c => outcomeState s (execReservedD0 c s)
  | .pb c ll mm => outcomeState s (execPb c ll mm s)
  | .eot => outcomeState s (execEot s)
  | .tempo t2 t1 t0 => outcomeState s (execTempo t2 t1 t0 s)
  | .metaEvent ty data => outcomeState s (execMetaEvent ty data s)
  | .reservedF0 low => outcomeState s (execReservedF0 low s)
  | .playNote _ _ _ _ _ _ _ _ => s
  | .stopVoice _ => s
  | .isSoundPlaying _ => s
  | .setVoice3d _ _ _ => s
  | .updateVoicePitch _ _ => s
  | .generateAudio _ => s
  | .seqPlay _ _ => s
  | .seqUpdate _ => s
  | .seqStop _ => s
  | .seqStopAll => s
  | .seqIsPlaying _ => s
  | .programPitchBend _ _ => s
  | .bankLoad _ _ => s
  | .bankUnloadAll => s
  | .isProgramPopulated _ => s
  | .decodeAdpcm _ => s
  | .makeAdsr _ _ => s

/-- A state with slot `k` as the one whose event is executing. -/
def State.forSlot (s : State) (k : Fin 16) : State := { s with curSlot := k }

/-- `ExecEvent(s)` for slot `k` (44_sequencer.md R290): fetch, then the event's effect, or the exception of the
fetch. -/
def State.execEventAt (s : State) (k : Fin 16) : State :=
  let f := s.fetchEvent k
  let t := s.passEvent k f
  match f.result with
  | .ok i => (runEvent i (t.forSlot k)).forSlot s.curSlot
  | .error e => t.raiseStream k (s.slot k).cursor e

/-- The wait taken off the accumulator (44_sequencer.md R286). -/
def Slot.spend (x : Slot) : Slot := { x with acc := x.acc - (x.wait : NumQ) }

/-- `StepEvent(s)` for slot `k` (44_sequencer.md R286). -/
def State.stepEvent (s : State) (k : Fin 16) : State :=
  let t := (s.setSlot k (s.slot k).spend).execEventAt k
  if (t.slot k).active then t.readDelay k else t

/-- Whether a slot has an event due: Active, and its wait has elapsed (44_sequencer.md R285). -/
def Slot.due (x : Slot) : Bool := x.active && decide ((x.wait : NumQ) ≤ x.acc)

/-- The catch-up loop of slot `k`, entered with an event due and `n` events allowed (44_sequencer.md R285, R291). -/
def catchUp (k : Fin 16) : Nat → State → State
  | 0, s => s
  | n + 1, s =>
    let t := s.stepEvent k
    if (t.slot k).due then catchUp k n t else t

/-- `ticksPerSecond` (44_sequencer.md R285). -/
def Slot.ticksPerSecond (x : Slot) : NumQ := 60000000 / (x.tempo.toNat : NumQ) * (x.resolution.toNat : NumQ) / 60

/-- A slot's clock advanced by `dt` seconds (44_sequencer.md R285). -/
def Slot.advance (x : Slot) (dt : NumQ) : Slot := { x with acc := x.acc + dt * x.ticksPerSecond }

/-- Slot `k`'s part of an update (44_sequencer.md R285). -/
def updateSlot (dt : NumQ) (s : State) (k : Fin 16) : State :=
  if (s.slot k).active then
    let t := s.setSlot k ((s.slot k).advance dt)
    if (t.slot k).due then catchUp k Config.maxEventsPerUpdate t else t
  else s

/-- `SEQ_UPDATE(dt)` (44_sequencer.md R285): the slots in ascending order. -/
def execSeqUpdate (dt : NumQ) (s : State) : Host.Outcome State Fault Refusal :=
  .next (((List.finRange 16).foldl (updateSlot dt) s).withResult .none)

/-! ### Transport (44_sequencer.md R315 to R318) -/

/-- A change of one slot, or nothing for an id that names none (44_sequencer.md R315). -/
def State.onSlot (s : State) (id : Int) (f : Slot → Slot) : State :=
  match slotIndex id with
  | some k => s.setSlot k (f (s.slot k))
  | none => s

/-- `SEQ_STOP(slotId)` (44_sequencer.md R315): no voice is touched. -/
def execSeqStop (slotId : Int) (s : State) : Host.Outcome State Fault Refusal :=
  .next ((s.onSlot slotId Slot.stopped).withResult .none)

/-- Every slot changed by one function. -/
def State.mapSlots (s : State) (f : Slot → Slot) : State := { s with slots := s.slots.map f }

/-- `SEQ_STOP_ALL` (44_sequencer.md R316). -/
def execSeqStopAll (s : State) : Host.Outcome State Fault Refusal :=
  .next ((s.mapSlots Slot.stopped).withResult .none)

/-- `SEQ_IS_PLAYING(slotId)` (44_sequencer.md R317). -/
def execSeqIsPlaying (slotId : Int) (s : State) : Host.Outcome State Fault Refusal :=
  .next (s.withResult (.bool (match slotIndex slotId with
    | some k => (s.slot k).active
    | none => false)))

/-- `PROGRAM_PITCH_BEND(programId, bend)` (44_sequencer.md R318). -/
def execProgramPitchBend (programId : Int) (bend : NumQ) (s : State) : Host.Outcome State Fault Refusal :=
  .next ((match programIndex programId with
    | some p => s.programBend p bend
    | none => s).withResult .none)

end Sys2Proof.Machine
end

