-- ==== Sys2Proof/Machine/Dispatch.lean ====
section
/-! DEFINITION. The meaning of each instruction, one arm per constructor. -/

namespace Sys2Proof.Machine

open Sys2Proof

def exec (i : Instr) (s : State) : Host.Outcome State Fault Refusal :=
  match i with
  | .noteOff c key vel => Sys2Proof.Machine.execNoteOff c key vel s
  | .noteOn c key vel => Sys2Proof.Machine.execNoteOn c key vel s
  | .reservedA0 c => Sys2Proof.Machine.execReservedA0 c s
  | .ccVolume c val => Sys2Proof.Machine.execCcVolume c val s
  | .ccPan c val => Sys2Proof.Machine.execCcPan c val s
  | .ccExpr c val => Sys2Proof.Machine.execCcExpr c val s
  | .ccOther c ctrl val => Sys2Proof.Machine.execCcOther c ctrl val s
  | .pc c prog => Sys2Proof.Machine.execPc c prog s
  | .reservedD0 c => Sys2Proof.Machine.execReservedD0 c s
  | .pb c ll mm => Sys2Proof.Machine.execPb c ll mm s
  | .eot => Sys2Proof.Machine.execEot s
  | .tempo t2 t1 t0 => Sys2Proof.Machine.execTempo t2 t1 t0 s
  | .metaEvent ty data => Sys2Proof.Machine.execMetaEvent ty data s
  | .reservedF0 low => Sys2Proof.Machine.execReservedF0 low s
  | .playNote p t pitch volume fm pan note prog => Sys2Proof.Machine.execPlayNote p t pitch volume fm pan note prog s
  | .stopVoice id => Sys2Proof.Machine.execStopVoice id s
  | .isSoundPlaying id => Sys2Proof.Machine.execIsSoundPlaying id s
  | .setVoice3d id vol pan => Sys2Proof.Machine.execSetVoice3d id vol pan s
  | .updateVoicePitch id bend => Sys2Proof.Machine.execUpdateVoicePitch id bend s
  | .generateAudio n => Sys2Proof.Machine.execGenerateAudio n s
  | .seqPlay data bank => Sys2Proof.Machine.execSeqPlay data bank s
  | .seqUpdate dt => Sys2Proof.Machine.execSeqUpdate dt s
  | .seqStop id => Sys2Proof.Machine.execSeqStop id s
  | .seqStopAll => Sys2Proof.Machine.execSeqStopAll s
  | .seqIsPlaying id => Sys2Proof.Machine.execSeqIsPlaying id s
  | .programPitchBend prog bend => Sys2Proof.Machine.execProgramPitchBend prog bend s
  | .bankLoad header body => Sys2Proof.Machine.execBankLoad header body s
  | .bankUnloadAll => Sys2Proof.Machine.execBankUnloadAll s
  | .isProgramPopulated p => Sys2Proof.Machine.execIsProgramPopulated p s
  | .decodeAdpcm data => Sys2Proof.Machine.execDecodeAdpcm data s
  | .makeAdsr a b => Sys2Proof.Machine.execMakeAdsr a b s

end Sys2Proof.Machine
end

