-- ==== Sys2Proof/Machine/Fetch.lean ====
section
/-! DEFINITION. How a command reaches the block, and how one instruction is placed so that the next step runs it. -/

namespace Sys2Proof.Machine

open Sys2Proof

/-- The refusal of a transaction that decodes to no command (log entry 8). -/
def commandRefusal (x : Transaction) (e : CommandError) : Refusal :=
  match e with
  | .unknownCode => .unknownCommand x.code
  | .illTyped => .illTypedCommand x.code
  | .negativeTime => .negativeTime

/-- A state with these transactions pending on the command port. -/
def State.withPort (s : State) (port : List Transaction) : State := { s with port := port }

/-- The header of 95_test_vectors.md (`HDR`): resolution 480, tempo 500000, master volume 127. -/
def testHeader : Bytes := [0x70, 0x51, 0x45, 0x53, 0, 0, 0, 1, 1, 0xE0, 7, 0xA1, 0x20, 0x7F, 0]

/-- A slot that is about to run the event bytes `event`: Active, with the event due at its cursor, the entry
point 15, and after it a delay of 127 ticks. -/
def eventSlot (x : Slot) (event : Bytes) : Slot :=
  { x with
    active := true, buf := some (testHeader ++ event ++ [0x7F]), cursor := Config.seqHeaderLen
    running := 0, acc := 0, wait := 0 }

/-- The state whose next step runs the instruction of a table word (log entry 19). -/
def fetchWordState (s : State) (nbits w : Nat) : State :=
  match tableBytes ((nbits + 7) / 8) w with
  | [] => s
  | b :: _ =>
    if 0x80 ≤ b then
      (s.setSlot 0 (eventSlot (s.slot 0) (tableEventBytes nbits w))).withPort
        ({ code := 0x11, args := [.real 0] } :: s.port)
    else s.withPort (zeroTransaction b :: s.port)

end Sys2Proof.Machine
end

