-- ==== Sys2Proof/Machine/Step.lean ====
section
/-! DEFINITION. One step of the machine: one host command, atomically (00_scope.md R12, 20_memory.md R70). -/

namespace Sys2Proof.Machine

open Sys2Proof

/-- One step (00_scope.md R12, 20_memory.md R70, R73): the oldest transaction on the command port is taken and
its command executed; a transaction that is no command is refused. With none pending nothing changes
(R73 (c), 60_exceptions.md R389). -/
def step (s : State) : Host.Outcome State Fault Refusal :=
  match s.port with
  | [] => .next s
  | x :: rest =>
    match decodeCommand x with
    | .ok i => exec i (s.withPort rest)
    | .error e => .refused (commandRefusal x e)

/-- The state whose next step runs the instruction of a table word: a command is put at the head of the command
port; an event is put into slot 0 with its operand bytes at zero, followed by a delay that is not yet due, and
`SEQ_UPDATE` with a time of 0 at the head of the port (log entry 19). -/
def State.withFetchWord (s : State) (nbits w : Nat) : State := fetchWordState s nbits w

end Sys2Proof.Machine
end

