-- ==== Sys2Proof/Safety.lean ====
section
/-! DEFINITION. What a state of a run keeps to (10_state.md R21, R23, R26, R30; 42_voice.md R211) and what a safe step is. -/

namespace Sys2Proof.Machine

open Sys2Proof

/-- A voice's registers keep to their types, to `active = (phase != Idle)` and to an envelope in [0, 1]
(10_state.md R21, 42_voice.md R211). -/
structure Voice.Ok (v : Voice) : Prop where
  active_iff : v.active = true ↔ v.phase ≠ .idle
  env_nonneg : 0 ≤ v.env
  env_le_one : v.env ≤ 1
  cursor_nonneg : 0 ≤ v.cursor
  volL_nonneg : 0 ≤ v.volL
  volR_nonneg : 0 ≤ v.volR
  override_nonneg : ∀ r, v.relOverride = some r → 0 ≤ r

/-- An active voice names a playable tone and its cursor lies below the length (10_state.md R23). For a looping tone
that is the bound of 42_voice.md R211; for one that does not loop R211 claims `len - 1`, which R205 does not give, and
the bound stated is the one that R205 gives (log entry 30). -/
def State.VoiceLive (s : State) (v : Voice) : Prop :=
  v.active = true → ∃ r t, v.tone = some r ∧ s.toneAt r = some t ∧ t.synthetic = false ∧ v.cursor < (t.len : NumQ)

/-- A tone as the bank loader makes it (10_state.md R30). -/
structure Tone.Ok (t : Tone) : Prop where
  len_pos : 1 ≤ t.len
  len_blocks : 28 ∣ t.len
  sample_range : ∀ x ∈ t.data, -1 ≤ x ∧ x < 1
  range : t.minNote.toNat ≤ t.maxNote.toNat
  centre : 1 ≤ t.centerNote.toNat
  attack_nonneg : 0 ≤ t.adsr.attack
  decay_nonneg : 0 ≤ t.adsr.decay
  sustain_nonneg : 0 ≤ t.adsr.sustain
  sustain_le_one : t.adsr.sustain ≤ 1
  release_nonneg : 0 ≤ t.adsr.release
  volume_range : 1 ≤ t.volume.toNat ∧ t.volume.toNat ≤ 127
  sampled : t.synthetic = false

/-- A program holds at most 16 tones, each as the loader makes them (10_state.md R29). -/
def Program.Ok (g : Program) : Prop := g.tones.length ≤ 16 ∧ ∀ t ∈ g.tones, t.Ok

/-- A channel's four registers hold 7-bit values (10_state.md R28). -/
def Channel.Ok (y : Channel) : Prop :=
  y.volume.toNat < 128 ∧ y.pan.toNat < 128 ∧ y.expression.toNat < 128 ∧ y.program.toNat < 128

/-- A slot's registers: Active exactly while it holds a buffer; then the buffer has a header, the cursor lies
behind it and not past the end, and the tempo is not 0 (10_state.md R26, R27, 44_sequencer.md R281, R284). -/
structure Slot.Ok (x : Slot) : Prop where
  active_iff : x.active = true ↔ x.buf.isSome = true
  header : ∀ b, x.buf = some b → 15 ≤ b.length
  cursor_low : x.active = true → 15 ≤ x.cursor
  cursor_high : ∀ b, x.buf = some b → x.cursor ≤ b.length
  tempo_pos : x.active = true → x.tempo ≠ 0
  acc_nonneg : 0 ≤ x.acc
  wait_range : x.wait < 2 ^ 28
  running_range : x.running = 0 ∨ 0x80 ≤ x.running.toNat
  channels : ∀ c : BitVec 4, (x.channel c).Ok

/-- The voices keep to their rules. -/
def State.VoicesOk (s : State) : Prop := ∀ i : Fin 127, (s.voice i).Ok ∧ s.VoiceLive (s.voice i)

/-- The tone memory keeps to its rules. -/
def State.TonesOk (s : State) : Prop := ∀ p : Fin 128, (s.program p).Ok

/-- The slots keep to their rules. -/
def State.SlotsOk (s : State) : Prop := ∀ k : Fin 16, (s.slot k).Ok

/-- A rate table that is marked built holds the table (10_state.md R35). -/
def State.TableOk (s : State) : Prop := s.rtBuilt = true → s.rt = rateTable

/-- The delay line is in canonical form. -/
def State.LineOk (s : State) : Prop := s.delayLine.wf = true

/-- Everything together. -/
structure State.Ok (s : State) : Prop where
  voices : s.VoicesOk
  tones : s.TonesOk
  slots : s.SlotsOk
  table : s.TableOk
  line : s.LineOk

/-- A step that does not end in a fault: no live voice reads released sample data (20_memory.md R77). -/
def SafeStep (s : State) : Prop := ∀ f, step s ≠ .fault f

end Sys2Proof.Machine
end

