-- ==== Sys2Proof/Certificates/Slice0/Obligations.lean ====
section
/-! DEFINITION. The statements for the provers. Each docstring names the rules of spec/ it rests on. -/

section Statements

open Sys2Proof Sys2Proof.Machine

/-! ### Encoding -/

/-- Decoding what the encoder writes gives the instruction back, for every well-formed instruction and every
value of its operands (30_encoding.md R104, R105, R112). -/
def Obligations.DecodeEncodeRoundTrip : Prop :=
  ∀ i : Instr, i.wellFormed = true → decode (encode i) = some i

/-- Inside a stream, whatever the running status is and whatever bytes follow, an event's bytes are decoded to it,
exactly they are passed, and its status byte becomes the running status (30_encoding.md R103 to R105). -/
def Obligations.EventDecodesInStream : Prop :=
  ∀ (i : Instr) (b rest : Bytes) (running : Byte), i.wellFormed = true → encode i = .stream b →
    decodeEvent running (b ++ rest) = { used := b.length, running := b.headD 0, result := .ok i }

/-- Under its status as the running status, an event's bytes without the status byte are decoded to it, the first
of them being below 80 hex (30_encoding.md R103, 44_sequencer.md R289, R308). -/
def Obligations.RunningStatusDecodes : Prop :=
  ∀ (i : Instr) (st d : Byte) (ds rest : Bytes), i.wellFormed = true → encode i = .stream (st :: d :: ds) → d < 0x80 →
    decodeEvent st (d :: ds ++ rest) = { used := ds.length + 1, running := st, result := .ok i }

/-- A missing status, and a data byte with bit 7 set in the first or the second place, are undecodable at that
byte's offset; a missing byte, be it the status, a data byte, a meta type, a meta length, a skipped byte or a tempo
byte, is an overrun at the end. Under running status the same bytes after the status are read with the same outcome,
every offset and the count of bytes passed being one less (30_encoding.md R103, R108, 44_sequencer.md R287, R289,
60_exceptions.md R376, R377). -/
def Obligations.BadBytesRefused : Prop :=
  (∀ (b : Byte) (rest : Bytes), b < 0x80 → (decodeEvent 0 (b :: rest)).result = .error (.badEvent 0)) ∧
  (∀ running : Byte, (decodeEvent running []).result = .error (.overrun 0)) ∧
  (∀ (running st d : Byte) (rest : Bytes), st >>> 4 ∈ ([0x8, 0x9, 0xB, 0xC, 0xE] : Bytes) → 0x80 ≤ d →
    (decodeEvent running (st :: d :: rest)).result = .error (.badEvent 1)) ∧
  (∀ (running st d e : Byte) (rest : Bytes), st >>> 4 ∈ ([0x8, 0x9, 0xB, 0xE] : Bytes) → d < 0x80 → 0x80 ≤ e →
    (decodeEvent running (st :: d :: e :: rest)).result = .error (.badEvent 2) ∧
    (decodeEvent st (d :: e :: rest)).result = .error (.badEvent 1)) ∧
  (∀ running st : Byte, st >>> 4 ∈ ([0x8, 0x9, 0xB, 0xC, 0xE] : Bytes) →
    (decodeEvent running [st]).result = .error (.overrun 1)) ∧
  (∀ running st d : Byte, st >>> 4 ∈ ([0x8, 0x9, 0xB, 0xE] : Bytes) → d < 0x80 →
    (decodeEvent running [st, d]).result = .error (.overrun 2) ∧ (decodeEvent st [d]).result = .error (.overrun 1)) ∧
  (∀ running : Byte, (decodeEvent running [0xFF]).result = .error (.overrun 1)) ∧
  (∀ (running : Byte) (bytes : Bytes), bytes.length < 3 →
    (decodeEvent running (0xFF :: 0x51 :: bytes)).result = .error (.overrun (2 + bytes.length))) ∧
  (∀ running ty : Byte, ty ≠ 0x2F → ty ≠ 0x51 → (decodeEvent running [0xFF, ty]).result = .error (.overrun 2)) ∧
  (∀ (running ty n : Byte) (bytes : Bytes), ty ≠ 0x2F → ty ≠ 0x51 → bytes.length < n.toNat →
    (decodeEvent running (0xFF :: ty :: n :: bytes)).result = .error (.overrun (3 + bytes.length))) ∧
  (∀ (running st d : Byte) (rest : Bytes), 0x80 ≤ st → d < 0x80 →
    let short := decodeEvent st (d :: rest)
    decodeEvent running (st :: d :: rest) =
      { used := short.used + 1
        running := short.running
        result := match short.result with
          | .ok i => .ok i
          | .error (.overrun off) => .error (.overrun (off + 1))
          | .error (.badEvent off) => .error (.badEvent (off + 1)) })

/-- A quantity below 2^28 in its shortest encoding is read back, whatever bytes follow (30_encoding.md R102). -/
def Obligations.VlqRoundTrip : Prop :=
  ∀ (v : Nat) (rest : Bytes), v < 2 ^ 28 →
    decodeVlq (encodeVlq v ++ rest) = { used := (encodeVlq v).length, result := .ok v }

/-- What every byte sequence that begins a quantity is read as: up to three bytes with bit 7 set and one without
give the concatenation of their low seven bits; four bytes with bit 7 set are undecodable with the cursor past them;
and the end of the buffer before the last byte is an overrun (30_encoding.md R102). -/
def Obligations.VlqDecodes : Prop :=
  (∀ (groups : List (BitVec 7)) (last : BitVec 7) (rest : Bytes), groups.length ≤ 3 →
    decodeVlq (groups.map (fun g => dataByte g ||| 0x80) ++ dataByte last :: rest) =
      { used := groups.length + 1
        result := .ok ((groups ++ [last]).foldl (fun v g => v * 128 + g.toNat) 0) }) ∧
  (∀ (groups : List (BitVec 7)) (rest : Bytes), groups.length = 4 →
    decodeVlq (groups.map (fun g => dataByte g ||| 0x80) ++ rest) = { used := 4, result := .error (.badEvent 4) }) ∧
  (∀ groups : List (BitVec 7), groups.length ≤ 3 →
    decodeVlq (groups.map (fun g => dataByte g ||| 0x80)) =
      { used := groups.length, result := .error (.overrun groups.length) })

/-- Words of the opcode table decode to the instructions whose rows they are, with every operand at zero: the spec gives
a bare table word no operands, so that reading is the model's, log entry 8, as is the byte order of a 16-bit word, log
entry 20 (30_encoding.md R112, R115). Bytes written out from the encodings decode to the instructions they stand for
(30_encoding.md R104, R105), and so does a transaction of a row (R112). -/
def Obligations.TableWordsDecode : Prop :=
  decodeTableWord 8 0x93 = some (.noteOn 3 0 0) ∧ decodeTableWord 16 0xB50A = some (.ccPan 5 0) ∧
  decodeTableWord 16 0xFF2F = some .eot ∧ decodeTableWord 16 0xFF51 = some (.tempo 0 0 0) ∧
  decodeTableWord 8 0x13 = some .seqStopAll ∧ decodeTableWord 8 0x31 = some (.makeAdsr 0 0) ∧
  decode (.stream [0x90, 0x3C, 0x64]) = some (.noteOn 0 60 100) ∧
  decode (.stream [0xE1, 0x7F, 0x40]) = some (.pb 1 127 64) ∧
  decode (.stream [0xFF, 0x51, 0x07, 0xA1, 0x20]) = some (.tempo 0x07 0xA1 0x20) ∧
  decode (.port { code := 0x05, args := [.int 3, .real 1] }) = some (.updateVoicePitch 3 1)

/-- Whatever the bytes, what the stream decoder answers is a well-formed event, and whatever the transaction, what
the command decoder answers is a well-formed command (30_encoding.md R104, R105, R112, 60_exceptions.md R390). -/
def Obligations.DecodedInstructionsWellFormed : Prop :=
  (∀ (running : Byte) (bytes : Bytes) (i : Instr), (decodeEvent running bytes).result = .ok i →
    i.wellFormed = true ∧ i.isEvent = true) ∧
  (∀ (x : Transaction) (i : Instr), decodeCommand x = .ok i → i.wellFormed = true ∧ i.isEvent = false)

/-- A transaction that decodes is the encoding of what it decodes to: each command has one transaction
(30_encoding.md R112). -/
def Obligations.CommandEncodingUnique : Prop :=
  ∀ (x : Transaction) (i : Instr), decodeCommand x = .ok i → encode i = .port x

/-- The bytes that a fetch passes when a status byte begins them are the encoding of the event it answers: no bit
of them is dropped (30_encoding.md R104, R105). -/
def Obligations.EventEncodingUnique : Prop :=
  ∀ (running : Byte) (bytes : Bytes) (i : Instr), 0x80 ≤ bytes.headD 0 →
    (decodeEvent running bytes).result = .ok i → encode i = .stream (bytes.take (decodeEvent running bytes).used)

/-! ### Steps -/

/-- A step takes the oldest transaction of the command port and runs the command that it encodes on the rest of the
state; with none pending nothing changes (00_scope.md R12, 20_memory.md R70, R73 (c), 60_exceptions.md R389; the
port as a list is the model's, log entry 7). -/
def Obligations.StepRunsPortCommand : Prop :=
  (∀ (s : State) (i : Instr) (x : Transaction) (rest : List Transaction), i.wellFormed = true → encode i = .port x →
    s.port = x :: rest → step s = exec i { s with port := rest }) ∧
  (∀ s : State, s.port = [] → step s = .next s)

/-- A step is refused only for a transaction that is no command (60_exceptions.md R370: nothing else can go wrong). -/
def Obligations.StepRefusesOnlyNonCommands : Prop :=
  ∀ (s : State) (r : Refusal), step s = .refused r →
    ∃ x rest e, s.port = x :: rest ∧ decodeCommand x = .error e ∧ r = commandRefusal x e

/-- Every instruction but `GENERATE_AUDIO` answers a next state from every state (20_memory.md R74,
60_exceptions.md R370). -/
def Obligations.ExecTotal : Prop :=
  ∀ (i : Instr) (s : State), (∀ n, i ≠ .generateAudio n) → ∃ t, exec i s = .next t

/-- A turn of the catch-up loop on slot `k`, whose cursor's bytes decode to the event `i`, takes the wait off the
accumulator, passes the bytes, runs `exec` of `i` for slot `k`, and reads the next delay if the slot is still Active.
Reading a delay decodes the bytes from the cursor on: where they give a value, the cursor moves past them and the wait
is that value; where they do not, the cursor moves past those read, the slot is Idle without a buffer, and the record
of the error is appended; nothing else changes (44_sequencer.md R286 to R290, 60_exceptions.md R376, R377, R380). -/
def Obligations.TurnRunsDecodedEvent : Prop :=
  (∀ (s : State) (k : Fin 16) (i : Instr) (f : EventFetch),
    decodeEvent (s.slot k).running (s.slot k).stream = f → f.result = .ok i →
    ∃ t, exec i { s with
        curSlot := k
        slots := s.slots.set k { s.slot k with
          acc := (s.slot k).acc - ((s.slot k).wait : NumQ), cursor := (s.slot k).cursor + f.used,
          running := f.running } } = .next t ∧
      s.stepEvent k =
        (if (t.slot k).active = true then ({ t with curSlot := s.curSlot } : State).readDelay k
          else { t with curSlot := s.curSlot })) ∧
  (∀ (s : State) (k : Fin 16) (f : Fetch Nat), decodeVlq (s.slot k).stream = f →
    (∀ v, f.result = .ok v → s.readDelay k =
      { s with slots := s.slots.set k { s.slot k with cursor := (s.slot k).cursor + f.used, wait := v } }) ∧
    (∀ e, f.result = .error e → s.readDelay k =
      { s with
        slots := s.slots.set k { s.slot k with
          active := false, buf := none, cursor := (s.slot k).cursor + f.used }
        diag := s.diag ++ [match e with
          | .overrun off => Diag.seqOverrun k ((s.slot k).cursor + off)
          | .badEvent off => Diag.seqBadEvent k ((s.slot k).cursor + off)] })) ∧
  (∀ (x : Slot) (b : Bytes), x.buf = some b → x.stream = b.drop x.cursor)

/-- A step runs the event at a slot's program counter: with `SEQ_UPDATE(0)` next on the port, slot `k` the only
Active one and its event due, and no further event due after it, the step is that event's `exec` and, if the slot is
still Active, the reading of the next delay: the cursor past its bytes and the wait its value, or the exception of a
delay that cannot be read (44_sequencer.md R285, R286, R288, R290, 60_exceptions.md R376, R377, R380;
00_scope.md R12). -/
def Obligations.StepRunsDueEvent : Prop :=
  ∀ (s : State) (k : Fin 16) (rest : List Transaction) (i : Instr) (f : EventFetch),
    s.port = { code := 0x11, args := [.real 0] } :: rest →
    (∀ l : Fin 16, (s.slot l).active = true ↔ l = k) → ((s.slot k).wait : NumQ) ≤ (s.slot k).acc →
    decodeEvent (s.slot k).running (s.slot k).stream = f → f.result = .ok i →
    ∃ t u : State, exec i { s with
        port := rest
        curSlot := k
        slots := s.slots.set k { s.slot k with
          acc := (s.slot k).acc - ((s.slot k).wait : NumQ), cursor := (s.slot k).cursor + f.used,
          running := f.running } } = .next t ∧
      (let x := t.slot k
       let g := decodeVlq x.stream
       (x.active = false → u = { t with curSlot := s.curSlot }) ∧
       (∀ v, x.active = true → g.result = .ok v → u =
          { t with curSlot := s.curSlot, slots := t.slots.set k { x with cursor := x.cursor + g.used, wait := v } }) ∧
       (∀ e, x.active = true → g.result = .error e → u =
          { t with
            curSlot := s.curSlot
            slots := t.slots.set k { x with active := false, buf := none, cursor := x.cursor + g.used }
            diag := t.diag ++ [match e with
              | .overrun off => Diag.seqOverrun k (x.cursor + off)
              | .badEvent off => Diag.seqBadEvent k (x.cursor + off)] })) ∧
      ((u.slot k).active = false ∨ (u.slot k).acc < ((u.slot k).wait : NumQ) → step s = .next { u with result := .none })

/-- A turn whose fetch fails stops its slot: Idle, no buffer, the record of the error appended to the diagnostic
port; no voice, no channel register and no other slot is touched (60_exceptions.md R380, R381). -/
def Obligations.TurnTakesStreamException : Prop :=
  ∀ (s : State) (k : Fin 16) (e : StreamError) (f : EventFetch),
    decodeEvent (s.slot k).running (s.slot k).stream = f → f.result = .error e →
    s.stepEvent k =
      { s with
        slots := s.slots.set k { s.slot k with
          active := false, buf := none, acc := (s.slot k).acc - ((s.slot k).wait : NumQ)
          cursor := (s.slot k).cursor + f.used, running := f.running }
        diag := s.diag ++ [match e with
          | .overrun off => Diag.seqOverrun k ((s.slot k).cursor + off)
          | .badEvent off => Diag.seqBadEvent k ((s.slot k).cursor + off)] }

/-- The catch-up loop of an Active slot: after its clock has advanced, turns are taken while an event is due, and it
ends when none is due or when exactly `MAX_EVENTS_PER_UPDATE` have been taken. An Idle slot has no part in an update:
nothing changes (44_sequencer.md R285, R291). -/
def Obligations.CatchUpLoop : Prop :=
  (∀ (s : State) (k : Fin 16) (dt : NumQ), (s.slot k).active = true →
    ∃ n, n ≤ Config.maxEventsPerUpdate ∧
      (let start := s.setSlot k { s.slot k with
        acc := (s.slot k).acc + dt * (60000000 / ((s.slot k).tempo.toNat : NumQ) * ((s.slot k).resolution.toNat : NumQ) / 60) }
      updateSlot dt s k = (fun t : State => t.stepEvent k)^[n] start ∧
      (∀ m < n, (((fun t : State => t.stepEvent k)^[m] start).slot k).due = true) ∧
      (n = Config.maxEventsPerUpdate ∨ (((fun t : State => t.stepEvent k)^[n] start).slot k).due = false))) ∧
  (∀ (s : State) (k : Fin 16) (dt : NumQ), (s.slot k).active = false → updateSlot dt s k = s)

/-! ### Events -/

/-- `NOTEOFF` releases every active voice of the channel's program and the key that is in Attack, Decay or Sustain,
and changes nothing else (44_sequencer.md R300, R301, 42_voice.md R193). -/
def Obligations.NoteOffReleases : Prop :=
  ∀ (s : State) (c : BitVec 4) (key vel : BitVec 7),
    ∃ t, exec (.noteOff c key vel) s = .next t ∧ t = { s with voices := t.voices } ∧
      ∀ i : Fin 127, t.voice i =
        if (s.voice i).active = true ∧ (s.voice i).programId = some (s.channel s.curSlot c).program.toNat ∧
            (s.voice i).note = some key.toNat ∧ (s.voice i).phase ∈ [Phase.attack, Phase.decay, Phase.sustain]
        then { s.voice i with phase := .release } else s.voice i

/-- `NOTEON` with velocity 0 is `NOTEOFF`. With another velocity it is one `PLAY_NOTE` after another, for the tones
of the channel's program whose range holds the key, in ascending order, with the four-factor volume, the channel's
pan, the equal-tempered pitch and FM off; their results are discarded, and nothing but voices, FM flags, the steal
cursor and the diagnostic port changes (44_sequencer.md R295 to R298). -/
def Obligations.NoteOnLayers : Prop :=
  ∀ (s : State) (c : BitVec 4) (key vel : BitVec 7),
    exec (.noteOn c key 0) s = exec (.noteOff c key vel) s ∧
    (vel ≠ 0 →
      let y := s.channel s.curSlot c
      let tones := (s.program y.program.toNat).tones
      ∃ us : Nat → State, us 0 = s ∧
        (∀ (index : Nat) (T : Tone), tones[index]? = some T →
          (T.minNote.toNat ≤ key.toNat ∧ key.toNat ≤ T.maxNote.toNat →
            ∃ u, exec (.playNote y.program.toNat index
                (pow2 (((key.toNat : NumQ) - (T.centerNote.toNat : NumQ) + (T.fineTune.toInt : NumQ) / 128) / 12))
                ((vel.toNat : NumQ) / 127 * ((y.volume.toNat : NumQ) / 127) * ((y.expression.toNat : NumQ) / 127) *
                  (((min s.bankMaster.toNat 127 : Nat) : NumQ) / 127))
                false ((y.pan.toNat : NumQ) / 127) key (y.program.setWidth 7)) (us index) = .next u ∧
              us (index + 1) = { u with result := s.result }) ∧
          (¬ (T.minNote.toNat ≤ key.toNat ∧ key.toNat ≤ T.maxNote.toNat) → us (index + 1) = us index)) ∧
        exec (.noteOn c key vel) s = .next (us tones.length) ∧
        us tones.length =
          { s with
            voices := (us tones.length).voices, fm := (us tones.length).fm
            stealCursor := (us tones.length).stealCursor, diag := (us tones.length).diag })

/-- Controllers 7, 10 and 11 and `PC` write one register of one channel of the executing slot: nothing else of the
channel, the other channels, the slot and the state (44_sequencer.md R302, R303). -/
def Obligations.ChannelRegistersSet : Prop :=
  ∀ (s : State) (c : BitVec 4) (val : BitVec 7) (t : Channel → Channel) (i : Instr),
    (i = .ccVolume c val ∧ (t = fun y => { y with volume := val.setWidth 8 })) ∨
      (i = .ccPan c val ∧ (t = fun y => { y with pan := val.setWidth 8 })) ∨
      (i = .ccExpr c val ∧ (t = fun y => { y with expression := val.setWidth 8 })) ∨
      (i = .pc c val ∧ (t = fun y => { y with program := val.setWidth 8 })) →
    ∃ u, exec i s = .next u ∧ u = { s with slots := u.slots } ∧
      (∀ l, l ≠ s.curSlot → u.slot l = s.slot l) ∧
      u.slot s.curSlot = { s.slot s.curSlot with chan := (u.slot s.curSlot).chan } ∧
      (∀ d, u.channel s.curSlot d = if d = c then t (s.channel s.curSlot d) else s.channel s.curSlot d)

/-- Any other controller, and a meta event that is neither end of track nor tempo, have no effect beyond the bytes
passed (44_sequencer.md R302, R311). -/
def Obligations.IgnoredEvents : Prop :=
  (∀ (s : State) (c : BitVec 4) (ctrl val : BitVec 7), exec (.ccOther c ctrl val) s = .next s) ∧
  (∀ (s : State) (ty : Byte) (data : Bytes), exec (.metaEvent ty data) s = .next s)

/-- `PB` bends every active voice of the channel's program, `PROGRAM_PITCH_BEND` every active voice of a program
0 to 127: from the base pitch, by two semitones at full scale; nothing else changes, and a program number outside
names no voice (44_sequencer.md R304, R305, R318, 30_encoding.md R109). -/
def Obligations.ProgramBends : Prop :=
  (∀ (s : State) (c : BitVec 4) (ll mm : BitVec 7),
    ∃ t, exec (.pb c ll mm) s = .next t ∧ t = { s with voices := t.voices } ∧
      ∀ i : Fin 127, t.voice i =
        if (s.voice i).active = true ∧ (s.voice i).programId = some (s.channel s.curSlot c).program.toNat
        then { s.voice i with
          pitch := (s.voice i).basePitch *
            pow2 ((((mm.toNat : NumQ) * 128 + (ll.toNat : NumQ)) - 8192) / 8192 * 2 / 12) }
        else s.voice i) ∧
  (∀ (s : State) (p : Int) (bend : NumQ), 0 ≤ p → p ≤ 127 →
    ∃ t, exec (.programPitchBend p bend) s = .next t ∧ t = { s with voices := t.voices, result := .none } ∧
      ∀ i : Fin 127, t.voice i =
        if (s.voice i).active = true ∧ (s.voice i).programId = some p.toNat
        then { s.voice i with pitch := (s.voice i).basePitch * pow2 (bend * 2 / 12) } else s.voice i) ∧
  (∀ (s : State) (p : Int) (bend : NumQ), p < 0 ∨ 127 < p →
    exec (.programPitchBend p bend) s = .next { s with result := .none })

/-- `EOT` moves the cursor to 15 and clears the accumulator and the running status; `TEMPO` with a value other than
0 writes the big-endian value to the tempo; neither touches anything else (44_sequencer.md R309, R310). -/
def Obligations.EndOfTrackAndTempo : Prop :=
  (∀ s : State, ∃ t, exec .eot s = .next t ∧ t = { s with slots := t.slots } ∧
    (∀ l, l ≠ s.curSlot → t.slot l = s.slot l) ∧
    t.slot s.curSlot = { s.slot s.curSlot with cursor := 15, acc := 0, running := 0 }) ∧
  (∀ (s : State) (t2 t1 t0 : Byte), 65536 * t2.toNat + 256 * t1.toNat + t0.toNat ≠ 0 →
    ∃ t, exec (.tempo t2 t1 t0) s = .next t ∧ t = { s with slots := t.slots } ∧
      (∀ l, l ≠ s.curSlot → t.slot l = s.slot l) ∧
      t.slot s.curSlot = { s.slot s.curSlot with tempo := (t.slot s.curSlot).tempo } ∧
      (t.slot s.curSlot).tempo.toNat = 65536 * t2.toNat + 256 * t1.toNat + t0.toNat)

/-- A reserved status, and a tempo of 0, take the `SeqBadEvent` exception of the executing slot at its cursor: the
slot stops, its other registers keep their values, the record is appended, nothing else changes
(44_sequencer.md R309, R312, 60_exceptions.md R380). -/
def Obligations.UndecodableEventsRaise : Prop :=
  ∀ (s : State) (c : BitVec 4) (i : Instr), i ∈ [Instr.reservedA0 c, .reservedD0 c, .reservedF0 c, .tempo 0 0 0] →
    exec i s = .next { s with
      slots := s.slots.set s.curSlot { s.slot s.curSlot with active := false, buf := none }
      diag := s.diag ++ [Diag.seqBadEvent s.curSlot (s.slot s.curSlot).cursor] }

/-- No event touches another slot, the tone memory, `BANK_MASTER`, the rate table, the delay line, `wp`, the command
port or the last result (44_sequencer.md R290, 60_exceptions.md R380, R390). -/
def Obligations.EventsTouchOwnSlot : Prop :=
  ∀ (i : Instr) (s t : State), i.isEvent = true → exec i s = .next t →
    (∀ l, l ≠ s.curSlot → t.slot l = s.slot l) ∧
    t = { s with voices := t.voices, fm := t.fm, stealCursor := t.stealCursor, slots := t.slots, diag := t.diag }

/-! ### The voice pool -/

/-- `PLAY_NOTE` on a playable tone arms one voice and sets its FM flag: the least inactive voice; else the least one
in Release; else the one at the steal cursor, which then advances modulo 127, with a `VoiceStolen` record. The
result is its id, and nothing else changes (43_pool_mixer.md R230 to R233, 42_voice.md R191, R192). That a pitch of 0
or below, outside the operand range of R191, runs by the same rules is the model's choice, log entry 15. -/
def Obligations.PlayNotePlays : Prop :=
  ∀ (s : State) (p t : Int) (pitch volume : NumQ) (fm : Bool) (pan : NumQ) (note prog : BitVec 7) (T : Tone),
    0 ≤ p → p ≤ 127 → 0 ≤ t → (s.program p.toNat).tones[t.toNat]? = some T → 1 ≤ T.data.length → T.synthetic = false →
    ∃ (i cursor : Fin 127) (diag : List Diag),
      (((s.voice i).active = false ∧ (∀ j < i, (s.voice j).active = true) ∧ cursor = s.stealCursor ∧ diag = s.diag) ∨
        ((∀ j, (s.voice j).active = true) ∧ (s.voice i).phase = .release ∧
          (∀ j < i, (s.voice j).phase ≠ .release) ∧ cursor = s.stealCursor ∧ diag = s.diag) ∨
        ((∀ j, (s.voice j).active = true) ∧ (∀ j, (s.voice j).phase ≠ .release) ∧ i = s.stealCursor ∧
          cursor.val = (s.stealCursor.val + 1) % 127 ∧ diag = s.diag ++ [Diag.voiceStolen i])) ∧
      exec (.playNote p t pitch volume fm pan note prog) s = .next { s with
        voices := s.voices.set i
          { active := true, phase := .attack, env := 0, tone := some { program := p.toNat, index := t.toNat }
            cursor := 0, basePitch := pitch, pitch := pitch
            volL := cosQuarter (min (max pan 0) 1) * min (max volume 0) 1
            volR := sinQuarter (min (max pan 0) 1) * min (max volume 0) 1
            lastOut := 0, programId := some prog.toNat, note := some note.toNat, relOverride := none }
        fm := s.fm.set i fm
        stealCursor := cursor
        diag := diag
        result := .voiceId i }

/-- `PLAY_NOTE` on a tone that is not playable answers -1 and changes nothing (43_pool_mixer.md R234). -/
def Obligations.PlayNoteUnplayable : Prop :=
  ∀ (s : State) (p t : Int) (pitch volume : NumQ) (fm : Bool) (pan : NumQ) (note prog : BitVec 7),
    ¬ (0 ≤ p ∧ p ≤ 127 ∧ 0 ≤ t ∧
      ∃ T, (s.program p.toNat).tones[t.toNat]? = some T ∧ 1 ≤ T.data.length ∧ T.synthetic = false) →
    exec (.playNote p t pitch volume fm pan note prog) s = .next { s with result := .voiceId (-1) }

/-- `STOP_VOICE` releases a voice that is in Attack, Decay or Sustain; any other voice and an id that names none are
left alone (43_pool_mixer.md R235, R239, 42_voice.md R193). -/
def Obligations.StopVoiceReleases : Prop :=
  (∀ (s : State) (i : Fin 127), exec (.stopVoice i) s = .next { s with
    voices := s.voices.set i
      (if (s.voice i).phase ∈ [Phase.attack, Phase.decay, Phase.sustain] then { s.voice i with phase := .release }
        else s.voice i)
    result := .none }) ∧
  (∀ (s : State) (id : Int), id < 0 ∨ 126 < id → exec (.stopVoice id) s = .next { s with result := .none })

/-- `SET_VOICE_3D` writes the two gains of a voice by the clamped constant-power pan law, whatever its phase; an id
that names none is ignored (43_pool_mixer.md R237, R239, 42_voice.md R192). -/
def Obligations.SetVoice3dGains : Prop :=
  (∀ (s : State) (i : Fin 127) (vol pan : NumQ), exec (.setVoice3d i vol pan) s = .next { s with
    voices := s.voices.set i { s.voice i with
      volL := cosQuarter (min (max pan 0) 1) * min (max vol 0) 1
      volR := sinQuarter (min (max pan 0) 1) * min (max vol 0) 1 }
    result := .none }) ∧
  (∀ (s : State) (id : Int) (vol pan : NumQ), id < 0 ∨ 126 < id →
    exec (.setVoice3d id vol pan) s = .next { s with result := .none })

/-- `UPDATE_VOICE_PITCH` bends a voice from its base pitch: a second bend replaces the first, a bend of 0 restores
the base pitch; an id that names none is ignored (43_pool_mixer.md R238, R239). -/
def Obligations.VoicePitchBends : Prop :=
  (∀ (s : State) (i : Fin 127) (bend : NumQ), exec (.updateVoicePitch i bend) s = .next { s with
    voices := s.voices.set i { s.voice i with pitch := (s.voice i).basePitch * pow2 (bend * 2 / 12) }
    result := .none }) ∧
  (∀ (s t : State) (i : Fin 127) (a b : NumQ), exec (.updateVoicePitch i a) s = .next t →
    exec (.updateVoicePitch i b) t = exec (.updateVoicePitch i b) s) ∧
  (∀ (s t : State) (i : Fin 127), exec (.updateVoicePitch i 0) s = .next t →
    (t.voice i).pitch = (s.voice i).basePitch) ∧
  (∀ (s : State) (id : Int) (bend : NumQ), id < 0 ∨ 126 < id →
    exec (.updateVoicePitch id bend) s = .next { s with result := .none })

/-- The queries answer the register they read, false for a number that names none, and change nothing
(43_pool_mixer.md R236, 44_sequencer.md R317, 45_bank_loader.md R358). -/
def Obligations.QueriesAnswer : Prop :=
  (∀ (s : State) (i : Fin 127), exec (.isSoundPlaying i) s = .next { s with result := .bool (s.voice i).active }) ∧
  (∀ (s : State) (id : Int), id < 0 ∨ 126 < id → exec (.isSoundPlaying id) s = .next { s with result := .bool false }) ∧
  (∀ (s : State) (k : Fin 16), exec (.seqIsPlaying k) s = .next { s with result := .bool (s.slot k).active }) ∧
  (∀ (s : State) (id : Int), id < 0 ∨ 15 < id → exec (.seqIsPlaying id) s = .next { s with result := .bool false }) ∧
  (∀ (s : State) (p : Fin 128), exec (.isProgramPopulated p) s =
    .next { s with result := .bool (decide (0 < (s.program p).tones.length)) }) ∧
  (∀ (s : State) (p : Int), p < 0 ∨ 127 < p → exec (.isProgramPopulated p) s = .next { s with result := .bool false })

/-! ### The mixer -/

/-- In a frame, every active voice makes one call of `GetSamples` at 1/44100 s, its FM input being, when its flag is
on, what its predecessor wrote in this frame, or for voice 0 what voice 126 held before it, and 0 otherwise; an
inactive voice's last output becomes 0; and the sums are over all voices (43_pool_mixer.md R251 to R253). A call of
`GetSamples` on an inactive voice only zeroes its last output; else it takes the envelope step, which ends the call
with silence and the cursor where it was if it deactivates the voice; else it advances the cursor with the FM factor,
settles it at the end of the data, interpolates between the four taps, wrapped or clamped, and scales by the envelope
and the two gains (42_voice.md R194, R195, R199, R202, R206 to R209). -/
def Obligations.FrameVoices : Prop :=
  (∀ s : State,
    let input (i : Fin 127) : NumQ :=
      if s.fm[i] = true then
        (if i = 0 then (s.voice 126).lastOut else ((frame s).state.voice (prevVoice i)).lastOut) else 0
    let call (i : Fin 127) : VoiceOut := getSamples (s.toneOf (s.voice i)) (1 / 44100) (input i) (s.voice i)
    (∀ i, (frame s).state.voice i =
      if (s.voice i).active = true then (call i).voice else { s.voice i with lastOut := 0 }) ∧
    (mixVoices s).sum.left = ∑ i, (if (s.voice i).active = true then (call i).out.left else 0) ∧
    (mixVoices s).sum.right = ∑ i, (if (s.voice i).active = true then (call i).out.right else 0)) ∧
  (∀ (t : Tone) (dt m : NumQ) (v : Voice),
    let e := envelopeStep t.adsr dt v
    let w := settleCursor t { e with cursor := e.cursor + e.pitch * 44100 * dt * (1 + 1 / 10 * m) }
    let len : Int := t.data.length
    let i : Int := ⌊w.cursor⌋
    let y (k : Int) : NumQ :=
      t.data.getD (if t.loop = true then (i + k) % len else min (max (i + k) 0) (len - 1)).toNat 0
    let x := cubic (y (-1)) (y 0) (y 1) (y 2) (w.cursor - (i : NumQ)) * w.env
    (v.active = false → getSamples t dt m v = { voice := { v with lastOut := 0 }, out := { left := 0, right := 0 } }) ∧
    (v.active = true → e.active = false → getSamples t dt m v = { voice := e, out := { left := 0, right := 0 } }) ∧
    (v.active = true → e.active = true → getSamples t dt m v =
      { voice := { w with lastOut := x }, out := { left := x * w.volL, right := x * w.volR } }))

/-- A frame reads the delay line at `wp`, writes the mono mix with the feedback there and nowhere else, advances
`wp`, and emits both channels with the wet signal added, soft-clipped, scaled by 32767, rounded half away from zero and
clamped to 16 bits, left first; on a value of magnitude below 1 the clamp never acts (43_pool_mixer.md R254 to R256,
20_memory.md R68, 00_scope.md R9). -/
def Obligations.FrameReverb : Prop :=
  ∀ s : State, s.LineOk →
    let x := mixVoices s
    let d := s.delayLine.read s.wp
    (∀ a, (frame s).state.delayLine.read a =
      if a = s.wp.val then (x.sum.left + x.sum.right) / 2 + Config.reverbDecay * d else s.delayLine.read a) ∧
    (frame s).state.wp.val = (s.wp.val + 1) % 15435 ∧
    (let round (z : NumQ) : Int := if 0 ≤ z then ⌊z + 1 / 2⌋ else -⌊-z + 1 / 2⌋
    let quantised (z : NumQ) : BitVec 16 := BitVec.ofInt 16 (min (max (round (z * 32767)) (-32768)) 32767)
    (frame s).out = [quantised (tanhNum (x.sum.left + Config.reverbWet * d)),
      quantised (tanhNum (x.sum.right + Config.reverbWet * d))] ∧
    ∀ z, |z| < 1 → -32767 ≤ (quantised z).toInt ∧ (quantised z).toInt ≤ 32767)

/-- `GENERATE_AUDIO` answers `2 * min(max(n, 0), MAX_FRAMES)` values from every state in which each active voice
names a playable tone, renders that many frames, advances `wp` by as many, and writes voices, the delay line and `wp`
only (43_pool_mixer.md R250, R251, R257, 20_memory.md R68). -/
def Obligations.GenerateAudioRenders : Prop :=
  ∀ (s : State) (n : Int),
    (∀ i : Fin 127, (s.voice i).active = true → ∃ r T, (s.voice i).tone = some r ∧ s.toneAt r = some T ∧
      1 ≤ T.data.length ∧ T.synthetic = false) →
    ∃ (t : State) (out : List (BitVec 16)), exec (.generateAudio n) s = .next t ∧
      t = { s with voices := t.voices, delayLine := t.delayLine, wp := t.wp, result := .pcm out } ∧
      out.length = 2 * min n.toNat Config.maxFrames ∧
      t.wp.val = (s.wp.val + min n.toNat Config.maxFrames) % 15435 ∧
      t.voices = ((fun u : State => (frame u).state)^[min n.toNat Config.maxFrames] s).voices ∧
      t.delayLine = ((fun u : State => (frame u).state)^[min n.toNat Config.maxFrames] s).delayLine ∧
      (∀ f < min n.toNat Config.maxFrames,
        (out.drop (2 * f)).take 2 = (frame ((fun u : State => (frame u).state)^[f] s)).out)

/-- In the reset state `GENERATE_AUDIO` answers zeros, up to the cap, and changes `wp` only, and `SEQ_UPDATE`
changes nothing (70_reset_and_hazards.md R400). -/
def Obligations.GenerateAudioAtReset : Prop :=
  (∀ n : Int, ∃ t, exec (.generateAudio n) State.reset = .next t ∧
    t = { State.reset with wp := t.wp, result := .pcm (List.replicate (2 * min n.toNat Config.maxFrames) 0) }) ∧
  ∀ dt : NumQ, exec (.seqUpdate dt) State.reset = .next State.reset

/-! ### The voice -/

/-- From 0, with an attack of `N` frames, the envelope is `m / N` after `m < N` calls, still in Attack, and 1, in
Decay, after call `N` (42_voice.md R196). -/
def Obligations.AttackRamp : Prop :=
  ∀ (e : Adsr) (v : Voice) (N : Nat), 1 ≤ N → e.attack = (N : NumQ) / 44100 → v.phase = .attack → v.env = 0 →
    (∀ m < N, (envelopeStep e (1 / 44100))^[m] v = { v with env := (m : NumQ) / (N : NumQ) }) ∧
    (envelopeStep e (1 / 44100))^[N] v = { v with env := 1, phase := .decay }

/-- One envelope step of each phase. Attack adds `dt / attack`, or goes to 1 at once for a time of 0 or less, and is cut
to 1 and left for Decay once 1 is reached; Decay, Sustain and Release ease toward the target, between the old value and
it; Decay ends within 0.01 of it; Release below 0.001 silences and frees the voice; and Idle does nothing
(42_voice.md R196 to R201). -/
def Obligations.EnvelopeSteps : Prop :=
  ∀ (e : Adsr) (dt : NumQ) (v : Voice), 0 ≤ dt → 0 ≤ e.decay → 0 ≤ e.release → (∀ r, v.relOverride = some r → 0 ≤ r) →
    (v.phase = .attack → ∃ x, x = (if e.attack ≤ 0 then 1 else v.env + dt / e.attack) ∧
      envelopeStep e dt v = if 1 ≤ x then { v with env := 1, phase := .decay } else { v with env := x }) ∧
    (v.phase = .decay → ∃ x, x = v.env + (e.sustain - v.env) * min 1 (15 / (e.decay + 1 / 1000) * dt) ∧
      min v.env e.sustain ≤ x ∧ x ≤ max v.env e.sustain ∧
      envelopeStep e dt v = { v with env := x, phase := if |x - e.sustain| < 1 / 100 then .sustain else .decay }) ∧
    (v.phase = .sustain → ∃ x, x = v.env + (e.sustain - v.env) * min 1 (15 / (e.decay + 1 / 1000) * dt) ∧
      min v.env e.sustain ≤ x ∧ x ≤ max v.env e.sustain ∧ envelopeStep e dt v = { v with env := x }) ∧
    (v.phase = .release → ∃ x, x = v.env + (0 - v.env) * min 1 (8 / (v.relOverride.getD e.release + 5 / 1000) * dt) ∧
      min v.env 0 ≤ x ∧ x ≤ max v.env 0 ∧
      envelopeStep e dt v =
        if x < 1 / 1000 then { v with env := 0, phase := .idle, active := false, lastOut := 0 } else { v with env := x }) ∧
    (v.phase = .idle → envelopeStep e dt v = v)

/-- At the end of the data a looping tone's cursor is wrapped modulo the length, and a tone that does not loop is
held at its last sample and released with the 5 ms override; a cursor below the length is left alone; and one that has
fallen below 0 is wrapped modulo the length for a looping tone and becomes 0 otherwise (42_voice.md R204, R205, R210).
That the cursor of a tone that does not loop is left alone between its last sample and the length too, where R211
claims that it never passes the last sample, is the model's choice between R205 and R211, log entry 30. -/
def Obligations.EndOfData : Prop :=
  ∀ (t : Tone) (v : Voice), 1 ≤ t.data.length →
    (0 ≤ v.cursor → v.cursor < (t.data.length : NumQ) → settleCursor t v = v) ∧
    ((t.data.length : NumQ) ≤ v.cursor → t.loop = true → ∃ (x : NumQ) (n : Nat), settleCursor t v = { v with cursor := x } ∧
      v.cursor = x + (n : NumQ) * (t.data.length : NumQ) ∧ 0 ≤ x ∧ x < (t.data.length : NumQ)) ∧
    ((t.data.length : NumQ) ≤ v.cursor → t.loop = false → settleCursor t v =
      { v with cursor := (t.data.length : NumQ) - 1, relOverride := some (5 / 1000), phase := .release }) ∧
    (v.cursor < 0 → t.loop = true → ∃ (x : NumQ) (n : Nat), settleCursor t v = { v with cursor := x } ∧
      x = v.cursor + (n : NumQ) * (t.data.length : NumQ) ∧ 0 ≤ x ∧ x < (t.data.length : NumQ)) ∧
    (v.cursor < 0 → t.loop = false → settleCursor t v = { v with cursor := 0 })

/-- The cubic passes through its two middle taps, is the Catmull-Rom spline, and for taps in [-1, 1] stays within
5/4 (42_voice.md R207). -/
def Obligations.CubicShape : Prop :=
  ∀ y0 y1 y2 y3 x : NumQ,
    cubic y0 y1 y2 y3 0 = y1 ∧ cubic y0 y1 y2 y3 1 = y2 ∧
    cubic y0 y1 y2 y3 x =
      (((y3 - y0) / 2 + 3 / 2 * (y1 - y2)) * x + (y0 - 5 / 2 * y1 + 2 * y2 - 1 / 2 * y3)) * x ^ 2 + (y2 - y0) / 2 * x + y1 ∧
    (0 ≤ x → x ≤ 1 → |y0| ≤ 1 → |y1| ≤ 1 → |y2| ≤ 1 → |y3| ≤ 1 → |cubic y0 y1 y2 y3 x| ≤ 5 / 4)

/-! ### The sequencer's commands -/

/-- `SEQ_PLAY` of a buffer that passes the tests takes the least Idle slot, loads its registers from the header, reads
the first delay, and answers the slot's number; nothing else changes (44_sequencer.md R281, R282). -/
def Obligations.SeqPlayAccepts : Prop :=
  ∀ (s : State) (data : Bytes) (bank : Int) (k : Fin 16) (wait : Nat) (f : Fetch Nat),
    15 ≤ data.length → data.take 4 = [0x70, 0x51, 0x45, 0x53] → data.getD 7 0 = 1 →
    65536 * (data.getD 10 0).toNat + 256 * (data.getD 11 0).toNat + (data.getD 12 0).toNat ≠ 0 →
    (s.slot k).active = false → (∀ l < k, (s.slot l).active = true) →
    decodeVlq (data.drop 15) = f → f.result = .ok wait →
    exec (.seqPlay data bank) s = .next { s with
      slots := s.slots.set k
        { active := true, buf := some data, cursor := 15 + f.used, running := 0, acc := 0, wait := wait
          tempo := data.getD 10 0 ++ data.getD 11 0 ++ data.getD 12 0
          resolution := data.getD 8 0 ++ data.getD 9 0, masterVolume := data.getD 13 0, bankId := bank
          chan := Vector.ofFn fun c : Fin 16 =>
            { volume := 127, pan := 64, expression := 127, program := BitVec.ofNat 8 c.val } }
      result := .slotId k }

/-- `SEQ_PLAY` of a short buffer, a wrong magic, a version other than 1 or a tempo of 0, or with every slot Active,
answers -1 and changes nothing (44_sequencer.md R281, R282, R284, 60_exceptions.md R371). -/
def Obligations.SeqPlayRejects : Prop :=
  ∀ (s : State) (data : Bytes) (bank : Int),
    data.length < 15 ∨ data.take 4 ≠ [0x70, 0x51, 0x45, 0x53] ∨ data.getD 7 0 ≠ 1 ∨
      65536 * (data.getD 10 0).toNat + 256 * (data.getD 11 0).toNat + (data.getD 12 0).toNat = 0 ∨
      (∀ k, (s.slot k).active = true) →
    exec (.seqPlay data bank) s = .next { s with result := .slotId (-1) }

/-- `SEQ_PLAY` whose first delay raises answers -1 and leaves the state as it was but for the record, which names the
slot and the offset of the failing read: no slot, no voice and no memory is touched. That the slot also keeps the
registers that the code of R281 writes before it reads the delay is the model's choice between that code and R371, log
entry 11 (44_sequencer.md R281, 60_exceptions.md R371, R376, R377). -/
def Obligations.SeqPlayDelayFails : Prop :=
  ∀ (s : State) (data : Bytes) (bank : Int) (k : Fin 16) (e : StreamError),
    15 ≤ data.length → data.take 4 = [0x70, 0x51, 0x45, 0x53] → data.getD 7 0 = 1 →
    65536 * (data.getD 10 0).toNat + 256 * (data.getD 11 0).toNat + (data.getD 12 0).toNat ≠ 0 →
    (s.slot k).active = false → (∀ l < k, (s.slot l).active = true) → (decodeVlq (data.drop 15)).result = .error e →
    exec (.seqPlay data bank) s = .next { s with
      diag := s.diag ++ [match e with
        | .overrun off => Diag.seqOverrun k (15 + off)
        | .badEvent off => Diag.seqBadEvent k (15 + off)]
      result := .slotId (-1) }

/-- `SEQ_UPDATE` answers a next state from every state, serves the slots in ascending order, and changes nothing but
voices, FM flags, the steal cursor, slots and the diagnostic port (44_sequencer.md R285, 20_memory.md R74). -/
def Obligations.SeqUpdateCompletes : Prop :=
  ∀ (s : State) (dt : NumQ), ∃ (t : State) (us : Nat → State), exec (.seqUpdate dt) s = .next t ∧
    t = { s with voices := t.voices, fm := t.fm, stealCursor := t.stealCursor, slots := t.slots, diag := t.diag
                 result := .none } ∧
    us 0 = s ∧ (∀ k : Fin 16, us (k.val + 1) = updateSlot dt (us k.val) k) ∧ t = { us 16 with result := .none }

/-- `SEQ_UPDATE` on slots of which none comes due only advances the clocks of the Active ones, each by
`dt * 10^6 * resolution / tempo` ticks (44_sequencer.md R285). -/
def Obligations.SeqUpdateAdvancesClocks : Prop :=
  ∀ (s : State) (dt : NumQ),
    (∀ k : Fin 16, (s.slot k).active = true →
      (s.slot k).acc + dt * (1000000 * ((s.slot k).resolution.toNat : NumQ) / ((s.slot k).tempo.toNat : NumQ)) <
        ((s.slot k).wait : NumQ)) →
    ∃ t, exec (.seqUpdate dt) s = .next t ∧ t = { s with slots := t.slots, result := .none } ∧
      ∀ k, t.slot k =
        if (s.slot k).active = true then
          { s.slot k with
            acc := (s.slot k).acc + dt * (1000000 * ((s.slot k).resolution.toNat : NumQ) / ((s.slot k).tempo.toNat : NumQ)) }
        else s.slot k

/-- Events without a delay between them never hang a step: `SEQ_UPDATE(0)` takes exactly `MAX_EVENTS_PER_UPDATE` turns,
and the next event is due when it ends. A track of one end-of-track event is where it was after every turn; on a track of
at least that many controller events the cursor counts the turns, four bytes to a turn
(44_sequencer.md R285, R286, R291, R310). -/
def Obligations.ZeroDelayLoopIsBounded : Prop :=
  ∀ (s : State) (k : Fin 16) (h : Bytes), h.length = 15 → (∀ l, (s.slot l).active = true ↔ l = k) →
    (s.slot k).cursor = 16 → (s.slot k).running = 0 → (s.slot k).wait = 0 → (s.slot k).acc = 0 →
    ((s.slot k).buf = some (h ++ [0x00, 0xFF, 0x2F]) →
      updateSlot 0 s k = (fun t : State => t.stepEvent k)^[Config.maxEventsPerUpdate] s ∧
      (∀ n, (((fun t : State => t.stepEvent k)^[n] s).slot k).due = true) ∧
      exec (.seqUpdate 0) s = .next { s with result := .none }) ∧
    (∀ M, Config.maxEventsPerUpdate ≤ M →
      (s.slot k).buf = some (h ++ [0x00] ++ (List.replicate M ([0xB0, 0x40, 0x00, 0x00] : Bytes)).flatten) →
      updateSlot 0 s k = (fun t : State => t.stepEvent k)^[Config.maxEventsPerUpdate] s ∧
      (∀ n ≤ M, (((fun t : State => t.stepEvent k)^[n] s).slot k).due = true ∧
        (((fun t : State => t.stepEvent k)^[n] s).slot k).cursor = 16 + 4 * n) ∧
      exec (.seqUpdate 0) s = .next { s with
        slots := s.slots.set k { s.slot k with
          cursor := 16 + 4 * Config.maxEventsPerUpdate, running := 0xB0 }
        result := .none })

/-- `SEQ_STOP` makes one slot Idle and drops its buffer, `SEQ_STOP_ALL` every slot; no other register and no voice is
touched, and a slot number outside 0 to 15 is ignored (44_sequencer.md R315, R316). -/
def Obligations.SeqStops : Prop :=
  (∀ (s : State) (k : Fin 16), exec (.seqStop k) s = .next { s with
    slots := s.slots.set k { s.slot k with active := false, buf := none }, result := .none }) ∧
  (∀ (s : State) (id : Int), id < 0 ∨ 15 < id → exec (.seqStop id) s = .next { s with result := .none }) ∧
  (∀ s : State, ∃ t, exec .seqStopAll s = .next t ∧ t = { s with slots := t.slots, result := .none } ∧
    ∀ k, t.slot k = { s.slot k with active := false, buf := none })

/-! ### Banks -/

/-- `BANK_LOAD` of a header that fails one of the three checks answers false, with every voice cut, no program
populated and `BANK_MASTER` 127, and touches nothing else (45_bank_loader.md R341, R356, R360). -/
def Obligations.BankLoadFails : Prop :=
  ∀ (s : State) (hdr body : Bytes),
    (let count := (hdr.getD 18 0).toNat + 256 * (hdr.getD 19 0).toNat
     let vags := (hdr.getD 22 0).toNat + 256 * (hdr.getD 23 0).toNat
     hdr.length < 2080 ∨ count = 0 ∨ hdr.length < 2080 + count * 512 + 2 + 2 * vags) →
    ∃ t, exec (.bankLoad hdr body) s = .next t ∧
      t = { s with voices := t.voices, prog := t.prog, bankMaster := 127, result := .bool false } ∧
      (∀ p < 128, (t.program p).tones = []) ∧
      (∀ i, t.voice i = { s.voice i with
        active := false, phase := .idle, tone := none, env := 0, lastOut := 0, relOverride := none })

/-- `BANK_LOAD` of a header that passes the checks answers true: every voice cut, `BANK_MASTER` from offset 24, and
each program holding, in record order, the tones of those of its first 16 records that lie in the header and name a
decoded VAG, each with the fields of its record; nothing else changes but the rate table, which is built if a tone
was converted and left alone if none was. The VAGs lie one after another in the body, in units of 8 bytes; an entry of
size 0 or past the end is skipped and moves nothing; a VAG's data are its samples over 32768, and it loops exactly when
its decoding stopped at an end-flagged block with bit 1 set (45_bank_loader.md R340, R344 to R355,
41_envelope_generator.md R153). -/
def Obligations.BankLoadFills : Prop :=
  ∀ (s : State) (hdr body : Bytes) (count vags : Nat), s.TableOk →
    count = (hdr.getD 18 0).toNat + 256 * (hdr.getD 19 0).toNat →
    vags = (hdr.getD 22 0).toNat + 256 * (hdr.getD 23 0).toNat →
    2080 ≤ hdr.length → count ≠ 0 → 2080 + count * 512 + 2 + 2 * vags ≤ hdr.length →
    let size (k : Nat) : Nat :=
      let a := 2080 + count * 512 + 2 + 2 * (k - 1)
      8 * ((hdr.getD a 0).toNat + 256 * (hdr.getD (a + 1) 0).toNat)
    ∃ (t : State) (pos : Nat → Nat), exec (.bankLoad hdr body) s = .next t ∧
      pos 1 = 0 ∧
      (∀ k, 1 ≤ k → pos (k + 1) = if size k = 0 ∨ body.length < pos k + size k then pos k else pos k + size k) ∧
      t = { s with voices := t.voices, prog := t.prog, bankMaster := hdr.getD 24 0, rt := t.rt, rtBuilt := t.rtBuilt
                   result := .bool true } ∧
      ((∃ p < 128, (t.program p).tones ≠ []) → t.rt = rateTable ∧ t.rtBuilt = true) ∧
      ((∀ p < 128, (t.program p).tones = []) → t.rt = s.rt ∧ t.rtBuilt = s.rtBuilt) ∧
      (∀ i, t.voice i = { s.voice i with
        active := false, phase := .idle, tone := none, env := 0, lastOut := 0, relOverride := none }) ∧
      ∀ p < 128, (t.program p).tones =
        (List.range (min (hdr.getD (32 + 16 * p) 0).toNat 16)).filterMap fun r =>
          let base := 2080 + 512 * p + 32 * r
          let byte (a : Nat) : Nat := (hdr.getD (base + a) 0).toNat
          let v := byte 22 + 256 * byte 23
          let decoded := adpcm ((body.drop (pos v)).take (size v))
          let high := if byte 7 = 0 then 127 else byte 7
          let product := min 127 ((hdr.getD (32 + 16 * p + 1) 0).toNat * byte 2 / 127)
          if base + 32 ≤ hdr.length ∧ 1 ≤ v ∧ v ≤ vags ∧ size v ≠ 0 ∧ pos v + size v ≤ body.length ∧
              decoded.samples ≠ [] then
            some
              { data := decoded.samples.map fun x => (x.toInt : NumQ) / 32768
                minNote := BitVec.ofNat 8 (min (byte 6) high)
                maxNote := BitVec.ofNat 8 (max (byte 6) high)
                centerNote := BitVec.ofNat 8 (if byte 4 = 0 then 60 else byte 4)
                fineTune := hdr.getD (base + 5) 0
                loop := match decoded.endFlags with
                  | some f => f.getLsbD 0 && f.getLsbD 1
                  | none => false
                adsr := convertFields rateTable
                  (unpackAdsr (BitVec.ofNat 16 (byte 16 + 256 * byte 17)) (BitVec.ofNat 16 (byte 18 + 256 * byte 19)))
                volume := BitVec.ofNat 8 (if product = 0 then 100 else product)
                synthetic := false }
          else none

/-- `BANK_UNLOAD_ALL` cuts every voice, empties every program and resets `BANK_MASTER`; the slots, the FM flags, the
steal cursor, the delay line and the rate table are not touched (45_bank_loader.md R360). -/
def Obligations.BankUnloadClears : Prop :=
  ∀ s : State, ∃ t, exec .bankUnloadAll s = .next t ∧
    t = { s with voices := t.voices, prog := t.prog, bankMaster := 127, result := .none } ∧
    (∀ p < 128, (t.program p).tones = []) ∧
    (∀ i, t.voice i = { s.voice i with
      active := false, phase := .idle, tone := none, env := 0, lastOut := 0, relOverride := none })

/-! ### The decoder and the converter -/

/-- `DECODE_ADPCM` changes nothing but the result. Every sample is the block's scaled nibble, low nibble first, plus the
two results before it by the block's filter coefficients, rounded and clamped; the results themselves are neither, they
start at 0 and carry from block to block. So one block with a filter index of 0 or of 5 and more decodes to its 28 scaled
nibbles (40_adpcm_decoder.md R130, R133, R135 to R143). -/
def Obligations.AdpcmFilterZero : Prop :=
  (∀ (s : State) (data : Bytes),
    exec (.decodeAdpcm data) s = .next { s with result := .samples (adpcm data).samples }) ∧
  (∀ data : Bytes, ∃ a : Nat → NumQ, a 0 = 0 ∧ a 1 = 0 ∧ ∀ n < (adpcm data).samples.length,
    let header := data.getD (16 * (n / 28)) 0
    let byte := data.getD (16 * (n / 28) + 2 + n % 28 / 2) 0
    let nibble := if n % 2 = 0 then byte.extractLsb' 0 4 else byte.extractLsb' 4 4
    let scaled : Int := nibble.toInt * 4096 / 2 ^ (header.extractLsb' 0 4).toNat
    let filter := (header.extractLsb' 4 4).toNat
    a (n + 2) = (scaled : NumQ) + a (n + 1) * ([0, 60, 115, 98, 122].getD filter 0 / 64) +
        a n * ([0, 0, -52, -55, -60].getD filter 0 / 64) ∧
      (adpcm data).samples[n]? = some (BitVec.ofInt 16 (min (max
        (if 0 ≤ a (n + 2) then ⌊a (n + 2) + 1 / 2⌋ else -⌊-a (n + 2) + 1 / 2⌋) (-32768)) 32767))) ∧
  (∀ (s : State) (header flags : Byte) (bytes : Bytes), bytes.length = 14 →
    (header.extractLsb' 4 4 = 0 ∨ 5 ≤ (header.extractLsb' 4 4).toNat) →
    exec (.decodeAdpcm (header :: flags :: bytes)) s = .next { s with
      result := .samples (bytes.flatMap fun b =>
        [BitVec.ofInt 16 ((b.extractLsb' 0 4).toInt * 4096 / 2 ^ (header.extractLsb' 0 4).toNat),
          BitVec.ofInt 16 ((b.extractLsb' 4 4).toInt * 4096 / 2 ^ (header.extractLsb' 0 4).toNat)]) })

/-- The framing of the decoder: 28 samples a block, at most one block for every 16 bytes, none from 1 to 15 bytes at
the end, and none after an end-flagged block, which is itself decoded in full (40_adpcm_decoder.md R131, R134). -/
def Obligations.AdpcmFraming : Prop :=
  (∀ data : Bytes, 28 ∣ (adpcm data).samples.length ∧ (adpcm data).samples.length ≤ 28 * (data.length / 16)) ∧
  (∀ data tail : Bytes, 16 ∣ data.length → tail.length < 16 → adpcm (data ++ tail) = adpcm data) ∧
  (∀ (data more : Bytes) (m : Nat), data.length = 16 * (m + 1) → (∀ b < m, (data.getD (16 * b + 1) 0).getLsbD 0 = false) →
    (data.getD (16 * m + 1) 0).getLsbD 0 = true →
    adpcm (data ++ more) = adpcm data ∧ (adpcm data).samples.length = 28 * (m + 1) ∧
      (adpcm data).endFlags = some (data.getD (16 * m + 1) 0)) ∧
  (∀ data : Bytes, (∀ b < data.length / 16, (data.getD (16 * b + 1) 0).getLsbD 0 = false) →
    (adpcm data).samples.length = 28 * (data.length / 16) ∧ (adpcm data).endFlags = none)

/-- From every state whose rate table, if marked built, is the table (`TableOk`), `MAKE_ADSR` answers, builds the rate
table if it was not built and changes nothing else. Its result is a function of the two words: the attack, decay and
release counts over 44100, the release corrected, and the level at which the decay count stops, with the sustain time
and 0 in their place where the substitution applies; the times are not negative and the sustain level lies in [0, 1]
(41_envelope_generator.md R152 to R166; the correction is the open `DBCORR`, log entry 3). -/
def Obligations.MakeAdsrAnswers : Prop :=
  ∀ a b : BitVec 16,
    let ar := (a.extractLsb' 8 7).toNat ^^^ 0x7F
    let dr := (a.extractLsb' 4 4).toNat
    let sl := (a.extractLsb' 0 4).toNat
    let sr := (b.extractLsb' 6 7).toNat
    let rr := 4 * ((b.extractLsb' 0 5).toNat ^^^ 0x1F)
    let rate (x : Int) : Nat := min ((4 + x.toNat % 4) * 2 ^ (x.toNat / 4)) 0x3FFFFFFF
    let cdiv (x y : Nat) : Nat := (x + y - 1) / y
    let turn (base : Int) (c : Nat) : Nat := c - rate (base + [0, 4, 6, 8, 9, 10, 11, 12].getD (c / 2 ^ 28) 12)
    let stops (base : Int) (goesOn : Nat → Prop) (n : Nat) : Prop :=
      (∀ m < n, goesOn ((turn base)^[m] 0x7FFFFFFF)) ∧ ¬ goesOn ((turn base)^[n] 0x7FFFFFFF)
    let atk := if ar < 0x10 then 0x7F else ar
    let nA := if a.getLsbD 15 = false then cdiv 0x7FFFFFFF (rate (atk - 0x10))
      else 0x60000000 / rate (atk - 0x10) + cdiv (0x1FFFFFFF - 0x60000000 % rate (atk - 0x10)) (rate (atk - 0x18))
    ∃ (nD nS nR : Nat) (e : Adsr),
      stops (4 * (dr ^^^ 0x1F : Nat) - 0x18) (fun c => 0 < c ∧ sl < c / 2 ^ 27) nD ∧
      (if b.getLsbD 15 = false then nS = cdiv 0x7FFFFFFF (rate ((sr ^^^ 0x7F : Nat) - 0x0F))
        else stops ((sr ^^^ 0x7F : Nat) - 0x1B) (fun c => 0 < c) nS) ∧
      (if b.getLsbD 5 = false then nR = cdiv 0x7FFFFFFF (rate (rr - 0x0C))
        else stops ((if rr < 0x18 then 124 else rr : Nat) - 0x18) (fun c => 0 < c) nR) ∧
      e.attack = (nA : NumQ) / 44100 ∧
      (if (nD < 2 ∨ (0x0E ≤ dr ∧ 0x0C ≤ sl)) ∧ b.getLsbD 14 = true ∧ sr < 0x7E then
          e.decay = dbCorr ((nS : NumQ) / 44100) ∧ e.sustain = 0
        else e.decay = (nD : NumQ) / 44100 ∧
          e.sustain = (((turn (4 * (dr ^^^ 0x1F : Nat) - 0x18))^[nD] 0x7FFFFFFF : Nat) : NumQ) / 0x7FFFFFFF) ∧
      e.release = dbCorr ((nR : NumQ) / 44100) ∧
      0 ≤ e.attack ∧ 0 ≤ e.decay ∧ 0 ≤ e.release ∧ 0 ≤ e.sustain ∧ e.sustain ≤ 1 ∧
      e = convertFields rateTable (unpackAdsr a b) ∧
      ∀ s : State, s.TableOk →
        exec (.makeAdsr a b) s = .next { s with rt := rateTable, rtBuilt := true, result := .envelope e }

/-- The closed form of the rate table: zeros below 32, then `min((4 + j) * 2^k, 0x3FFFFFFF)` at `32 + 4k + j`
(41_envelope_generator.md R152). -/
def Obligations.RateTableClosedForm : Prop :=
  (∀ i : Fin 160, i.val < 32 → rateTable[i] = 0) ∧
  (∀ (k : Fin 32) (j : Fin 4), (rateTable[32 + 4 * k.val + j.val]).toNat = min ((4 + j.val) * 2 ^ k.val) 0x3FFFFFFF)

/-! ### The number format -/

/-- The model's `tanh` is the mathematical one to within 2^-52, whatever the free function is (00_scope.md R11; the
enclosure is the model's choice, log entries 1 and 2). -/
def Obligations.TanhNearMathematical : Prop :=
  ∀ x : NumQ, |((tanhNum x : NumQ) : ℝ) - Real.tanh (x : ℝ)| ≤ 1 / 2 ^ 52

/-- The model's `pow2` is `2^x` to within a factor of 2^-52, whatever the free function is (00_scope.md R11; the
enclosure is the model's choice, log entries 1 and 2). -/
def Obligations.Pow2NearMathematical : Prop :=
  ∀ x : NumQ, |((pow2 x : NumQ) : ℝ) - (2 : ℝ) ^ (x : ℝ)| ≤ (2 : ℝ) ^ (x : ℝ) / 2 ^ 52

/-- The model's pan functions are the mathematical cosine and sine to within 2^-52, whatever the free functions are
(42_voice.md R192, 00_scope.md R11; the enclosure is the model's choice, log entries 1 and 2). -/
def Obligations.PanNearMathematical : Prop :=
  ∀ p : NumQ, 0 ≤ p → p ≤ 1 →
    |((cosQuarter p : NumQ) : ℝ) - Real.cos ((p : ℝ) * (Real.pi / 2))| ≤ 1 / 2 ^ 52 ∧
    |((sinQuarter p : NumQ) : ℝ) - Real.sin ((p : ℝ) * (Real.pi / 2))| ≤ 1 / 2 ^ 52

/-! ### Invariants -/

/-- The state after reset holds the values of the reset table and keeps to every rule of Sys2Proof/Safety.lean
(70_reset_and_hazards.md R400). -/
def Obligations.ResetOk : Prop :=
  State.reset.Ok ∧
  (∀ i : Fin 127, State.reset.fm[i] = false ∧ State.reset.voice i =
    { active := false, phase := .idle, env := 0, tone := none, cursor := 0, basePitch := 1, pitch := 1
      volL := 0, volR := 0, lastOut := 0, programId := none, note := none, relOverride := none }) ∧
  State.reset.stealCursor = 0 ∧
  (∀ k : Fin 16, State.reset.slot k =
    { active := false, buf := none, cursor := 0, running := 0, acc := 0, wait := 0, tempo := 0, resolution := 0
      masterVolume := 0, bankId := 0, chan := (State.reset.slot k).chan }) ∧
  (∀ (k : Fin 16) (c : BitVec 4), State.reset.channel k c =
    { volume := 127, pan := 64, expression := 127, program := c.setWidth 8 }) ∧
  (∀ p < 128, (State.reset.program p).tones = []) ∧ State.reset.bankMaster = 127 ∧ State.reset.rtBuilt = false ∧
  (∀ a, State.reset.delayLine.read a = 0) ∧ State.reset.wp = 0 ∧ State.reset.diag = []

/-- Every step from a state that keeps to the rules ends in one that does: envelopes in [0, 1], `active` exactly
outside Idle, every active voice on a populated tone with its cursor inside the data, tones as the loader makes
them, slots Active exactly while they hold a buffer with their cursor inside it, a built rate table being the
table, the delay line canonical (10_state.md R21, R23, R26, R30, 42_voice.md R211; the tighter bound that R211 claims
for a tone that does not loop is not among them, log entry 30). -/
def Obligations.StepKeepsOk : Prop :=
  ∀ s t : State, s.Ok → step s = .next t → t.Ok

/-- No step faults from a state whose voices keep to the rules: no voice reads a tone that is gone
(10_state.md R23, 20_memory.md R77). -/
def Obligations.StepIsSafe : Prop :=
  ∀ s : State, s.VoicesOk → SafeStep s

/-- Tone memory and `BANK_MASTER` change only by `BANK_LOAD` and `BANK_UNLOAD_ALL`, the delay line and `wp` only by
`GENERATE_AUDIO` (20_memory.md R77, R79, 45_bank_loader.md R340). -/
def Obligations.MemoriesHaveOneWriter : Prop :=
  ∀ (i : Instr) (s t : State), exec i s = .next t →
    ((∀ h b, i ≠ .bankLoad h b) → i ≠ .bankUnloadAll → t.prog = s.prog ∧ t.bankMaster = s.bankMaster) ∧
    ((∀ n, i ≠ .generateAudio n) → t.delayLine = s.delayLine ∧ t.wp = s.wp)

end Statements
end

