-- ==== Sys2Proof/Laws/State.lean ====
section
/-! SUPPORT. The state after each named update, field by field, and the reads back of voices, slots, channels and programs. -/

namespace Sys2Proof.Machine

open Sys2Proof

section Fields

variable (s : State)

/-! ### `setVoice` -/

@[simp] theorem setVoice_voices (i : Fin 127) (v : Voice) : (s.setVoice i v).voices = s.voices.set i v := rfl
@[simp] theorem setVoice_fm (i : Fin 127) (v : Voice) : (s.setVoice i v).fm = s.fm := rfl
@[simp] theorem setVoice_stealCursor (i : Fin 127) (v : Voice) : (s.setVoice i v).stealCursor = s.stealCursor := rfl
@[simp] theorem setVoice_slots (i : Fin 127) (v : Voice) : (s.setVoice i v).slots = s.slots := rfl
@[simp] theorem setVoice_prog (i : Fin 127) (v : Voice) : (s.setVoice i v).prog = s.prog := rfl
@[simp] theorem setVoice_bankMaster (i : Fin 127) (v : Voice) : (s.setVoice i v).bankMaster = s.bankMaster := rfl
@[simp] theorem setVoice_rt (i : Fin 127) (v : Voice) : (s.setVoice i v).rt = s.rt := rfl
@[simp] theorem setVoice_rtBuilt (i : Fin 127) (v : Voice) : (s.setVoice i v).rtBuilt = s.rtBuilt := rfl
@[simp] theorem setVoice_delayLine (i : Fin 127) (v : Voice) : (s.setVoice i v).delayLine = s.delayLine := rfl
@[simp] theorem setVoice_wp (i : Fin 127) (v : Voice) : (s.setVoice i v).wp = s.wp := rfl
@[simp] theorem setVoice_diag (i : Fin 127) (v : Voice) : (s.setVoice i v).diag = s.diag := rfl
@[simp] theorem setVoice_port (i : Fin 127) (v : Voice) : (s.setVoice i v).port = s.port := rfl
@[simp] theorem setVoice_result (i : Fin 127) (v : Voice) : (s.setVoice i v).result = s.result := rfl
@[simp] theorem setVoice_curSlot (i : Fin 127) (v : Voice) : (s.setVoice i v).curSlot = s.curSlot := rfl

/-! ### `setFm` -/

@[simp] theorem setFm_voices (i : Fin 127) (b : Bool) : (s.setFm i b).voices = s.voices := rfl
@[simp] theorem setFm_fm (i : Fin 127) (b : Bool) : (s.setFm i b).fm = s.fm.set i b := rfl
@[simp] theorem setFm_stealCursor (i : Fin 127) (b : Bool) : (s.setFm i b).stealCursor = s.stealCursor := rfl
@[simp] theorem setFm_slots (i : Fin 127) (b : Bool) : (s.setFm i b).slots = s.slots := rfl
@[simp] theorem setFm_prog (i : Fin 127) (b : Bool) : (s.setFm i b).prog = s.prog := rfl
@[simp] theorem setFm_bankMaster (i : Fin 127) (b : Bool) : (s.setFm i b).bankMaster = s.bankMaster := rfl
@[simp] theorem setFm_rt (i : Fin 127) (b : Bool) : (s.setFm i b).rt = s.rt := rfl
@[simp] theorem setFm_rtBuilt (i : Fin 127) (b : Bool) : (s.setFm i b).rtBuilt = s.rtBuilt := rfl
@[simp] theorem setFm_delayLine (i : Fin 127) (b : Bool) : (s.setFm i b).delayLine = s.delayLine := rfl
@[simp] theorem setFm_wp (i : Fin 127) (b : Bool) : (s.setFm i b).wp = s.wp := rfl
@[simp] theorem setFm_diag (i : Fin 127) (b : Bool) : (s.setFm i b).diag = s.diag := rfl
@[simp] theorem setFm_port (i : Fin 127) (b : Bool) : (s.setFm i b).port = s.port := rfl
@[simp] theorem setFm_result (i : Fin 127) (b : Bool) : (s.setFm i b).result = s.result := rfl
@[simp] theorem setFm_curSlot (i : Fin 127) (b : Bool) : (s.setFm i b).curSlot = s.curSlot := rfl

/-! ### `advanceSteal` -/

@[simp] theorem advanceSteal_voices : (s.advanceSteal).voices = s.voices := rfl
@[simp] theorem advanceSteal_fm : (s.advanceSteal).fm = s.fm := rfl
@[simp] theorem advanceSteal_stealCursor : (s.advanceSteal).stealCursor = nextVoice s.stealCursor := rfl
@[simp] theorem advanceSteal_slots : (s.advanceSteal).slots = s.slots := rfl
@[simp] theorem advanceSteal_prog : (s.advanceSteal).prog = s.prog := rfl
@[simp] theorem advanceSteal_bankMaster : (s.advanceSteal).bankMaster = s.bankMaster := rfl
@[simp] theorem advanceSteal_rt : (s.advanceSteal).rt = s.rt := rfl
@[simp] theorem advanceSteal_rtBuilt : (s.advanceSteal).rtBuilt = s.rtBuilt := rfl
@[simp] theorem advanceSteal_delayLine : (s.advanceSteal).delayLine = s.delayLine := rfl
@[simp] theorem advanceSteal_wp : (s.advanceSteal).wp = s.wp := rfl
@[simp] theorem advanceSteal_diag : (s.advanceSteal).diag = s.diag := rfl
@[simp] theorem advanceSteal_port : (s.advanceSteal).port = s.port := rfl
@[simp] theorem advanceSteal_result : (s.advanceSteal).result = s.result := rfl
@[simp] theorem advanceSteal_curSlot : (s.advanceSteal).curSlot = s.curSlot := rfl

/-! ### `mapVoices` -/

@[simp] theorem mapVoices_voices (f : Voice → Voice) : (s.mapVoices f).voices = s.voices.map f := rfl
@[simp] theorem mapVoices_fm (f : Voice → Voice) : (s.mapVoices f).fm = s.fm := rfl
@[simp] theorem mapVoices_stealCursor (f : Voice → Voice) : (s.mapVoices f).stealCursor = s.stealCursor := rfl
@[simp] theorem mapVoices_slots (f : Voice → Voice) : (s.mapVoices f).slots = s.slots := rfl
@[simp] theorem mapVoices_prog (f : Voice → Voice) : (s.mapVoices f).prog = s.prog := rfl
@[simp] theorem mapVoices_bankMaster (f : Voice → Voice) : (s.mapVoices f).bankMaster = s.bankMaster := rfl
@[simp] theorem mapVoices_rt (f : Voice → Voice) : (s.mapVoices f).rt = s.rt := rfl
@[simp] theorem mapVoices_rtBuilt (f : Voice → Voice) : (s.mapVoices f).rtBuilt = s.rtBuilt := rfl
@[simp] theorem mapVoices_delayLine (f : Voice → Voice) : (s.mapVoices f).delayLine = s.delayLine := rfl
@[simp] theorem mapVoices_wp (f : Voice → Voice) : (s.mapVoices f).wp = s.wp := rfl
@[simp] theorem mapVoices_diag (f : Voice → Voice) : (s.mapVoices f).diag = s.diag := rfl
@[simp] theorem mapVoices_port (f : Voice → Voice) : (s.mapVoices f).port = s.port := rfl
@[simp] theorem mapVoices_result (f : Voice → Voice) : (s.mapVoices f).result = s.result := rfl
@[simp] theorem mapVoices_curSlot (f : Voice → Voice) : (s.mapVoices f).curSlot = s.curSlot := rfl

/-! ### `setSlot` -/

@[simp] theorem setSlot_voices (k : Fin 16) (x : Slot) : (s.setSlot k x).voices = s.voices := rfl
@[simp] theorem setSlot_fm (k : Fin 16) (x : Slot) : (s.setSlot k x).fm = s.fm := rfl
@[simp] theorem setSlot_stealCursor (k : Fin 16) (x : Slot) : (s.setSlot k x).stealCursor = s.stealCursor := rfl
@[simp] theorem setSlot_slots (k : Fin 16) (x : Slot) : (s.setSlot k x).slots = s.slots.set k x := rfl
@[simp] theorem setSlot_prog (k : Fin 16) (x : Slot) : (s.setSlot k x).prog = s.prog := rfl
@[simp] theorem setSlot_bankMaster (k : Fin 16) (x : Slot) : (s.setSlot k x).bankMaster = s.bankMaster := rfl
@[simp] theorem setSlot_rt (k : Fin 16) (x : Slot) : (s.setSlot k x).rt = s.rt := rfl
@[simp] theorem setSlot_rtBuilt (k : Fin 16) (x : Slot) : (s.setSlot k x).rtBuilt = s.rtBuilt := rfl
@[simp] theorem setSlot_delayLine (k : Fin 16) (x : Slot) : (s.setSlot k x).delayLine = s.delayLine := rfl
@[simp] theorem setSlot_wp (k : Fin 16) (x : Slot) : (s.setSlot k x).wp = s.wp := rfl
@[simp] theorem setSlot_diag (k : Fin 16) (x : Slot) : (s.setSlot k x).diag = s.diag := rfl
@[simp] theorem setSlot_port (k : Fin 16) (x : Slot) : (s.setSlot k x).port = s.port := rfl
@[simp] theorem setSlot_result (k : Fin 16) (x : Slot) : (s.setSlot k x).result = s.result := rfl
@[simp] theorem setSlot_curSlot (k : Fin 16) (x : Slot) : (s.setSlot k x).curSlot = s.curSlot := rfl

/-! ### `mapSlots` -/

@[simp] theorem mapSlots_voices (f : Slot → Slot) : (s.mapSlots f).voices = s.voices := rfl
@[simp] theorem mapSlots_fm (f : Slot → Slot) : (s.mapSlots f).fm = s.fm := rfl
@[simp] theorem mapSlots_stealCursor (f : Slot → Slot) : (s.mapSlots f).stealCursor = s.stealCursor := rfl
@[simp] theorem mapSlots_slots (f : Slot → Slot) : (s.mapSlots f).slots = s.slots.map f := rfl
@[simp] theorem mapSlots_prog (f : Slot → Slot) : (s.mapSlots f).prog = s.prog := rfl
@[simp] theorem mapSlots_bankMaster (f : Slot → Slot) : (s.mapSlots f).bankMaster = s.bankMaster := rfl
@[simp] theorem mapSlots_rt (f : Slot → Slot) : (s.mapSlots f).rt = s.rt := rfl
@[simp] theorem mapSlots_rtBuilt (f : Slot → Slot) : (s.mapSlots f).rtBuilt = s.rtBuilt := rfl
@[simp] theorem mapSlots_delayLine (f : Slot → Slot) : (s.mapSlots f).delayLine = s.delayLine := rfl
@[simp] theorem mapSlots_wp (f : Slot → Slot) : (s.mapSlots f).wp = s.wp := rfl
@[simp] theorem mapSlots_diag (f : Slot → Slot) : (s.mapSlots f).diag = s.diag := rfl
@[simp] theorem mapSlots_port (f : Slot → Slot) : (s.mapSlots f).port = s.port := rfl
@[simp] theorem mapSlots_result (f : Slot → Slot) : (s.mapSlots f).result = s.result := rfl
@[simp] theorem mapSlots_curSlot (f : Slot → Slot) : (s.mapSlots f).curSlot = s.curSlot := rfl

/-! ### `forSlot` -/

@[simp] theorem forSlot_voices (k : Fin 16) : (s.forSlot k).voices = s.voices := rfl
@[simp] theorem forSlot_fm (k : Fin 16) : (s.forSlot k).fm = s.fm := rfl
@[simp] theorem forSlot_stealCursor (k : Fin 16) : (s.forSlot k).stealCursor = s.stealCursor := rfl
@[simp] theorem forSlot_slots (k : Fin 16) : (s.forSlot k).slots = s.slots := rfl
@[simp] theorem forSlot_prog (k : Fin 16) : (s.forSlot k).prog = s.prog := rfl
@[simp] theorem forSlot_bankMaster (k : Fin 16) : (s.forSlot k).bankMaster = s.bankMaster := rfl
@[simp] theorem forSlot_rt (k : Fin 16) : (s.forSlot k).rt = s.rt := rfl
@[simp] theorem forSlot_rtBuilt (k : Fin 16) : (s.forSlot k).rtBuilt = s.rtBuilt := rfl
@[simp] theorem forSlot_delayLine (k : Fin 16) : (s.forSlot k).delayLine = s.delayLine := rfl
@[simp] theorem forSlot_wp (k : Fin 16) : (s.forSlot k).wp = s.wp := rfl
@[simp] theorem forSlot_diag (k : Fin 16) : (s.forSlot k).diag = s.diag := rfl
@[simp] theorem forSlot_port (k : Fin 16) : (s.forSlot k).port = s.port := rfl
@[simp] theorem forSlot_result (k : Fin 16) : (s.forSlot k).result = s.result := rfl
@[simp] theorem forSlot_curSlot (k : Fin 16) : (s.forSlot k).curSlot = k := rfl

/-! ### `setProgram` -/

@[simp] theorem setProgram_voices (p : Fin 128) (g : Program) : (s.setProgram p g).voices = s.voices := rfl
@[simp] theorem setProgram_fm (p : Fin 128) (g : Program) : (s.setProgram p g).fm = s.fm := rfl
@[simp] theorem setProgram_stealCursor (p : Fin 128) (g : Program) : (s.setProgram p g).stealCursor = s.stealCursor := rfl
@[simp] theorem setProgram_slots (p : Fin 128) (g : Program) : (s.setProgram p g).slots = s.slots := rfl
@[simp] theorem setProgram_prog (p : Fin 128) (g : Program) : (s.setProgram p g).prog = s.prog.set p g := rfl
@[simp] theorem setProgram_bankMaster (p : Fin 128) (g : Program) : (s.setProgram p g).bankMaster = s.bankMaster := rfl
@[simp] theorem setProgram_rt (p : Fin 128) (g : Program) : (s.setProgram p g).rt = s.rt := rfl
@[simp] theorem setProgram_rtBuilt (p : Fin 128) (g : Program) : (s.setProgram p g).rtBuilt = s.rtBuilt := rfl
@[simp] theorem setProgram_delayLine (p : Fin 128) (g : Program) : (s.setProgram p g).delayLine = s.delayLine := rfl
@[simp] theorem setProgram_wp (p : Fin 128) (g : Program) : (s.setProgram p g).wp = s.wp := rfl
@[simp] theorem setProgram_diag (p : Fin 128) (g : Program) : (s.setProgram p g).diag = s.diag := rfl
@[simp] theorem setProgram_port (p : Fin 128) (g : Program) : (s.setProgram p g).port = s.port := rfl
@[simp] theorem setProgram_result (p : Fin 128) (g : Program) : (s.setProgram p g).result = s.result := rfl
@[simp] theorem setProgram_curSlot (p : Fin 128) (g : Program) : (s.setProgram p g).curSlot = s.curSlot := rfl

/-! ### `clearTones` -/

@[simp] theorem clearTones_voices : (s.clearTones).voices = s.voices := rfl
@[simp] theorem clearTones_fm : (s.clearTones).fm = s.fm := rfl
@[simp] theorem clearTones_stealCursor : (s.clearTones).stealCursor = s.stealCursor := rfl
@[simp] theorem clearTones_slots : (s.clearTones).slots = s.slots := rfl
@[simp] theorem clearTones_prog : (s.clearTones).prog = Vector.replicate 128 Program.empty := rfl
@[simp] theorem clearTones_bankMaster : (s.clearTones).bankMaster = 127 := rfl
@[simp] theorem clearTones_rt : (s.clearTones).rt = s.rt := rfl
@[simp] theorem clearTones_rtBuilt : (s.clearTones).rtBuilt = s.rtBuilt := rfl
@[simp] theorem clearTones_delayLine : (s.clearTones).delayLine = s.delayLine := rfl
@[simp] theorem clearTones_wp : (s.clearTones).wp = s.wp := rfl
@[simp] theorem clearTones_diag : (s.clearTones).diag = s.diag := rfl
@[simp] theorem clearTones_port : (s.clearTones).port = s.port := rfl
@[simp] theorem clearTones_result : (s.clearTones).result = s.result := rfl
@[simp] theorem clearTones_curSlot : (s.clearTones).curSlot = s.curSlot := rfl

/-! ### `setBankMaster` -/

@[simp] theorem setBankMaster_voices (b : Byte) : (s.setBankMaster b).voices = s.voices := rfl
@[simp] theorem setBankMaster_fm (b : Byte) : (s.setBankMaster b).fm = s.fm := rfl
@[simp] theorem setBankMaster_stealCursor (b : Byte) : (s.setBankMaster b).stealCursor = s.stealCursor := rfl
@[simp] theorem setBankMaster_slots (b : Byte) : (s.setBankMaster b).slots = s.slots := rfl
@[simp] theorem setBankMaster_prog (b : Byte) : (s.setBankMaster b).prog = s.prog := rfl
@[simp] theorem setBankMaster_bankMaster (b : Byte) : (s.setBankMaster b).bankMaster = b := rfl
@[simp] theorem setBankMaster_rt (b : Byte) : (s.setBankMaster b).rt = s.rt := rfl
@[simp] theorem setBankMaster_rtBuilt (b : Byte) : (s.setBankMaster b).rtBuilt = s.rtBuilt := rfl
@[simp] theorem setBankMaster_delayLine (b : Byte) : (s.setBankMaster b).delayLine = s.delayLine := rfl
@[simp] theorem setBankMaster_wp (b : Byte) : (s.setBankMaster b).wp = s.wp := rfl
@[simp] theorem setBankMaster_diag (b : Byte) : (s.setBankMaster b).diag = s.diag := rfl
@[simp] theorem setBankMaster_port (b : Byte) : (s.setBankMaster b).port = s.port := rfl
@[simp] theorem setBankMaster_result (b : Byte) : (s.setBankMaster b).result = s.result := rfl
@[simp] theorem setBankMaster_curSlot (b : Byte) : (s.setBankMaster b).curSlot = s.curSlot := rfl

/-! ### `reverbWrite` -/

@[simp] theorem reverbWrite_voices (m : Stereo) : (s.reverbWrite m).voices = s.voices := rfl
@[simp] theorem reverbWrite_fm (m : Stereo) : (s.reverbWrite m).fm = s.fm := rfl
@[simp] theorem reverbWrite_stealCursor (m : Stereo) : (s.reverbWrite m).stealCursor = s.stealCursor := rfl
@[simp] theorem reverbWrite_slots (m : Stereo) : (s.reverbWrite m).slots = s.slots := rfl
@[simp] theorem reverbWrite_prog (m : Stereo) : (s.reverbWrite m).prog = s.prog := rfl
@[simp] theorem reverbWrite_bankMaster (m : Stereo) : (s.reverbWrite m).bankMaster = s.bankMaster := rfl
@[simp] theorem reverbWrite_rt (m : Stereo) : (s.reverbWrite m).rt = s.rt := rfl
@[simp] theorem reverbWrite_rtBuilt (m : Stereo) : (s.reverbWrite m).rtBuilt = s.rtBuilt := rfl
@[simp] theorem reverbWrite_delayLine (m : Stereo) : (s.reverbWrite m).delayLine = s.delayLine.write s.wp ((m.left + m.right) / 2 + openTimes Config.reverbDecay (s.delayLine.read s.wp)) := rfl
@[simp] theorem reverbWrite_wp (m : Stereo) : (s.reverbWrite m).wp = nextEntry s.wp := rfl
@[simp] theorem reverbWrite_diag (m : Stereo) : (s.reverbWrite m).diag = s.diag := rfl
@[simp] theorem reverbWrite_port (m : Stereo) : (s.reverbWrite m).port = s.port := rfl
@[simp] theorem reverbWrite_result (m : Stereo) : (s.reverbWrite m).result = s.result := rfl
@[simp] theorem reverbWrite_curSlot (m : Stereo) : (s.reverbWrite m).curSlot = s.curSlot := rfl

/-! ### `withResult` -/

@[simp] theorem withResult_voices (r : Result) : (s.withResult r).voices = s.voices := rfl
@[simp] theorem withResult_fm (r : Result) : (s.withResult r).fm = s.fm := rfl
@[simp] theorem withResult_stealCursor (r : Result) : (s.withResult r).stealCursor = s.stealCursor := rfl
@[simp] theorem withResult_slots (r : Result) : (s.withResult r).slots = s.slots := rfl
@[simp] theorem withResult_prog (r : Result) : (s.withResult r).prog = s.prog := rfl
@[simp] theorem withResult_bankMaster (r : Result) : (s.withResult r).bankMaster = s.bankMaster := rfl
@[simp] theorem withResult_rt (r : Result) : (s.withResult r).rt = s.rt := rfl
@[simp] theorem withResult_rtBuilt (r : Result) : (s.withResult r).rtBuilt = s.rtBuilt := rfl
@[simp] theorem withResult_delayLine (r : Result) : (s.withResult r).delayLine = s.delayLine := rfl
@[simp] theorem withResult_wp (r : Result) : (s.withResult r).wp = s.wp := rfl
@[simp] theorem withResult_diag (r : Result) : (s.withResult r).diag = s.diag := rfl
@[simp] theorem withResult_port (r : Result) : (s.withResult r).port = s.port := rfl
@[simp] theorem withResult_result (r : Result) : (s.withResult r).result = r := rfl
@[simp] theorem withResult_curSlot (r : Result) : (s.withResult r).curSlot = s.curSlot := rfl

/-! ### `emit` -/

@[simp] theorem emit_voices (d : Diag) : (s.emit d).voices = s.voices := rfl
@[simp] theorem emit_fm (d : Diag) : (s.emit d).fm = s.fm := rfl
@[simp] theorem emit_stealCursor (d : Diag) : (s.emit d).stealCursor = s.stealCursor := rfl
@[simp] theorem emit_slots (d : Diag) : (s.emit d).slots = s.slots := rfl
@[simp] theorem emit_prog (d : Diag) : (s.emit d).prog = s.prog := rfl
@[simp] theorem emit_bankMaster (d : Diag) : (s.emit d).bankMaster = s.bankMaster := rfl
@[simp] theorem emit_rt (d : Diag) : (s.emit d).rt = s.rt := rfl
@[simp] theorem emit_rtBuilt (d : Diag) : (s.emit d).rtBuilt = s.rtBuilt := rfl
@[simp] theorem emit_delayLine (d : Diag) : (s.emit d).delayLine = s.delayLine := rfl
@[simp] theorem emit_wp (d : Diag) : (s.emit d).wp = s.wp := rfl
@[simp] theorem emit_diag (d : Diag) : (s.emit d).diag = s.diag ++ [d] := rfl
@[simp] theorem emit_port (d : Diag) : (s.emit d).port = s.port := rfl
@[simp] theorem emit_result (d : Diag) : (s.emit d).result = s.result := rfl
@[simp] theorem emit_curSlot (d : Diag) : (s.emit d).curSlot = s.curSlot := rfl

/-! ### `withPort` -/

@[simp] theorem withPort_voices (l : List Transaction) : (s.withPort l).voices = s.voices := rfl
@[simp] theorem withPort_fm (l : List Transaction) : (s.withPort l).fm = s.fm := rfl
@[simp] theorem withPort_stealCursor (l : List Transaction) : (s.withPort l).stealCursor = s.stealCursor := rfl
@[simp] theorem withPort_slots (l : List Transaction) : (s.withPort l).slots = s.slots := rfl
@[simp] theorem withPort_prog (l : List Transaction) : (s.withPort l).prog = s.prog := rfl
@[simp] theorem withPort_bankMaster (l : List Transaction) : (s.withPort l).bankMaster = s.bankMaster := rfl
@[simp] theorem withPort_rt (l : List Transaction) : (s.withPort l).rt = s.rt := rfl
@[simp] theorem withPort_rtBuilt (l : List Transaction) : (s.withPort l).rtBuilt = s.rtBuilt := rfl
@[simp] theorem withPort_delayLine (l : List Transaction) : (s.withPort l).delayLine = s.delayLine := rfl
@[simp] theorem withPort_wp (l : List Transaction) : (s.withPort l).wp = s.wp := rfl
@[simp] theorem withPort_diag (l : List Transaction) : (s.withPort l).diag = s.diag := rfl
@[simp] theorem withPort_port (l : List Transaction) : (s.withPort l).port = l := rfl
@[simp] theorem withPort_result (l : List Transaction) : (s.withPort l).result = s.result := rfl
@[simp] theorem withPort_curSlot (l : List Transaction) : (s.withPort l).curSlot = s.curSlot := rfl

end Fields

/-! ### Reading voices back -/

@[simp] theorem voice_setVoice_self (s : State) (i : Fin 127) (v : Voice) : (s.setVoice i v).voice i = v := by
  simp [State.voice]

theorem voice_setVoice (s : State) (i j : Fin 127) (v : Voice) :
    (s.setVoice i v).voice j = if i = j then v else s.voice j := by
  simp [State.voice, Vector.getElem_set, Fin.ext_iff]

@[simp] theorem voice_setVoice_ne (s : State) {i j : Fin 127} (v : Voice) (h : i ≠ j) :
    (s.setVoice i v).voice j = s.voice j := by
  simp [voice_setVoice, h]

@[simp] theorem voice_mapVoices (s : State) (f : Voice → Voice) (i : Fin 127) :
    (s.mapVoices f).voice i = f (s.voice i) := by
  simp [State.voice]

@[simp] theorem setVoice_voice (s : State) (i : Fin 127) : s.setVoice i (s.voice i) = s := by
  simp [State.setVoice, State.voice]

@[simp] theorem voice_reset (i : Fin 127) : State.reset.voice i = Voice.reset := by
  simp [State.voice, State.reset]

/-! ### Reading slots and channels back -/

@[simp] theorem slot_setSlot_self (s : State) (k : Fin 16) (x : Slot) : (s.setSlot k x).slot k = x := by
  simp [State.slot]

theorem slot_setSlot (s : State) (k l : Fin 16) (x : Slot) :
    (s.setSlot k x).slot l = if k = l then x else s.slot l := by
  simp [State.slot, Vector.getElem_set, Fin.ext_iff]

@[simp] theorem slot_setSlot_ne (s : State) {k l : Fin 16} (x : Slot) (h : k ≠ l) :
    (s.setSlot k x).slot l = s.slot l := by
  simp [slot_setSlot, h]

@[simp] theorem slot_mapSlots (s : State) (f : Slot → Slot) (k : Fin 16) : (s.mapSlots f).slot k = f (s.slot k) := by
  simp [State.slot]

@[simp] theorem setSlot_slot (s : State) (k : Fin 16) : s.setSlot k (s.slot k) = s := by
  simp [State.setSlot, State.slot]

@[simp] theorem setSlot_setSlot (s : State) (k : Fin 16) (x y : Slot) : (s.setSlot k x).setSlot k y = s.setSlot k y := by
  simp [State.setSlot, Vector.set_set]

@[simp] theorem slot_reset (k : Fin 16) : State.reset.slot k = Slot.reset := by
  simp [State.slot, State.reset]

@[simp] theorem channel_setChannel_self (x : Slot) (c : BitVec 4) (y : Channel) : (x.setChannel c y).channel c = y := by
  simp [Slot.channel, Slot.setChannel]

theorem channel_setChannel (x : Slot) (c d : BitVec 4) (y : Channel) :
    (x.setChannel c y).channel d = if c = d then y else x.channel d := by
  simp [Slot.channel, Slot.setChannel, Vector.getElem_set, BitVec.toNat_eq]

@[simp] theorem channel_setChannel_ne (x : Slot) {c d : BitVec 4} (y : Channel) (h : c ≠ d) :
    (x.setChannel c y).channel d = x.channel d := by
  simp [channel_setChannel, h]

/-! ### Reading programs back -/

@[simp] theorem program_setProgram_self (s : State) (p : Fin 128) (g : Program) :
    (s.setProgram p g).program p = g := by
  simp [State.program]

theorem program_setProgram (s : State) (p : Fin 128) (q : Nat) (g : Program) :
    (s.setProgram p g).program q = if p.val = q then g else s.program q := by
  by_cases h : q < 128
  · simp [State.program, h, Vector.getElem_set]
  · have : p.val ≠ q := by omega
    simp [State.program, h, this]

/-- The tone memory alone decides what a program number reads as. -/
theorem program_congr {s t : State} (h : t.prog = s.prog) (p : Nat) : t.program p = s.program p := by
  simp [State.program, h]

/-- The tone memory alone decides what a tone reference names. -/
theorem toneAt_congr {s t : State} (h : t.prog = s.prog) (r : ToneRef) : t.toneAt r = s.toneAt r := by
  simp [State.toneAt, program_congr h]

/-- The tone memory alone decides which tones are playable. -/
theorem playable_congr {s t : State} (h : t.prog = s.prog) (r : ToneRef) : t.playable r = s.playable r := by
  simp [State.playable, toneAt_congr h]

@[simp] theorem program_reset (p : Nat) : State.reset.program p = Program.empty := by
  by_cases h : p < 128 <;> simp [State.program, State.reset, h]

/-! ### Two states with the same fields -/

/-- The registers of the other kinds decide nothing about a voice. -/
theorem voice_congr {s t : State} (h : t.voices = s.voices) (i : Fin 127) : t.voice i = s.voice i := by
  simp [State.voice, h]

theorem slot_congr {s t : State} (h : t.slots = s.slots) (k : Fin 16) : t.slot k = s.slot k := by
  simp [State.slot, h]

end Sys2Proof.Machine
end

