-- ==== Sys2Proof/Laws/Numeric.lean ====
section
/-! SUPPORT. What the numeric operations can answer: `pick` and `near` stay inside their interval, rounding is monotone, `outputOf` is the quantised `tanh`, gains lie in [0,1]. -/

namespace Sys2Proof.Machine

open Sys2Proof

/-! ### Free values -/

/-- The share of an interval that a free rational selects is strictly between 0 and 1. -/
theorem pick_share (c : NumQ) : 0 < (1 + c / (1 + |c|)) / 2 ∧ (1 + c / (1 + |c|)) / 2 < 1 := by
  have hp : (0 : ℚ) < 1 + |c| := by positivity
  have h1 : -1 < c / (1 + |c|) := by
    rw [lt_div_iff₀ hp]; linarith [neg_abs_le c]
  have h2 : c / (1 + |c|) < 1 := by
    rw [div_lt_one hp]; linarith [le_abs_self c]
  constructor <;> linarith

/-- A free value lies strictly inside its interval. -/
theorem pick_mem {lo hi : NumQ} (c : NumQ) (h : lo < hi) : lo < pick lo hi c ∧ pick lo hi c < hi := by
  obtain ⟨h1, h2⟩ := pick_share c
  unfold pick
  have hd : 0 < hi - lo := by linarith
  constructor <;> nlinarith

theorem slack_pos : 0 < Config.slack := by unfold Config.slack; norm_num

/-- The enclosure of a value near `m` in `[lo, hi]` is an open interval when `m` is not far outside it. -/
theorem near_order {m lo hi : NumQ} (h : lo < hi) (h1 : lo ≤ m) (h2 : m ≤ hi) : nearLow m lo < nearHigh m hi := by
  have := slack_pos
  unfold nearLow nearHigh
  rw [max_lt_iff, lt_min_iff, lt_min_iff]
  refine ⟨⟨h, ?_⟩, ?_, ?_⟩ <;> linarith

/-- A value near `m` lies strictly between the ends of its enclosure. -/
theorem near_mem {m lo hi : NumQ} (c : NumQ) (h : lo < hi) (h1 : lo ≤ m) (h2 : m ≤ hi) :
    nearLow m lo < near m lo hi c ∧ near m lo hi c < nearHigh m hi := pick_mem c (near_order h h1 h2)

/-- A value near `m` lies strictly inside the bounds that are known of it, and within the slack of `m`. -/
theorem near_bounds {m lo hi : NumQ} (c : NumQ) (h : lo < hi) (h1 : lo ≤ m) (h2 : m ≤ hi) :
    lo < near m lo hi c ∧ near m lo hi c < hi ∧ |near m lo hi c - m| < Config.slack := by
  obtain ⟨a, b⟩ := near_mem c h h1 h2
  refine ⟨lt_of_le_of_lt (le_max_left _ _) a, lt_of_lt_of_le b (min_le_left _ _), ?_⟩
  rw [abs_lt]
  have a' := lt_of_le_of_lt (le_max_right lo (m - Config.slack)) a
  have b' := lt_of_lt_of_le b (min_le_right hi (m + Config.slack))
  constructor <;> linarith

/-- The product with an open coefficient is the product. -/
theorem openTimes_eq (c d : NumQ) : openTimes c d = c * d := by
  unfold openTimes; split
  · next h => rw [h, mul_zero]
  · rfl

@[simp] theorem openTimes_zero (c : NumQ) : openTimes c 0 = 0 := by simp [openTimes_eq]

theorem dbCorr_nonneg (t : NumQ) : 0 ≤ dbCorr t := abs_nonneg _

/-! ### Rounding -/

theorem floorOf_eq (x : NumQ) : floorOf x = ⌊x⌋ := rfl

theorem floorOf_mono {x y : NumQ} (h : x ≤ y) : floorOf x ≤ floorOf y := by
  rw [floorOf_eq, floorOf_eq]; exact Int.floor_le_floor h

theorem roundAway_mono {x y : NumQ} (h : x ≤ y) : roundAway x ≤ roundAway y := by
  unfold roundAway
  split <;> split
  · exact floorOf_mono (by linarith)
  · linarith
  · have h1 : 0 ≤ floorOf (-x + 1 / 2) := by rw [floorOf_eq]; exact Int.floor_nonneg.mpr (by linarith)
    have h2 : 0 ≤ floorOf (y + 1 / 2) := by rw [floorOf_eq]; exact Int.floor_nonneg.mpr (by linarith)
    omega
  · have := floorOf_mono (show -y + 1 / 2 ≤ -x + 1 / 2 by linarith)
    omega

theorem clamp16_mono {x y : Int} (h : x ≤ y) : clamp16 x ≤ clamp16 y := by
  unfold clamp16 clampInt; omega

theorem clamp16_range (x : Int) : -32768 ≤ clamp16 x ∧ clamp16 x ≤ 32767 := by
  unfold clamp16 clampInt; omega

theorem toI16_toInt {x : Int} (h : -32768 ≤ x ∧ x ≤ 32767) : (toI16 x).toInt = x := by
  unfold toI16; rw [BitVec.toInt_ofInt]; simp [Int.bmod]; omega

/-- The quantiser's number before it is put into a word. -/
theorem quantise_toInt (y : NumQ) : (quantise y).toInt = clamp16 (roundAway (y * 32767)) :=
  toI16_toInt (clamp16_range _)

theorem quantise_mono {x y : NumQ} (h : x ≤ y) : (quantise x).toInt ≤ (quantise y).toInt := by
  rw [quantise_toInt, quantise_toInt]
  exact clamp16_mono (roundAway_mono (by linarith))

theorem quantise_between {lo x hi : NumQ} (h1 : lo ≤ x) (h2 : x ≤ hi) (h : quantise lo = quantise hi) :
    quantise x = quantise lo := by
  apply BitVec.eq_of_toInt_eq
  have a := quantise_mono h1
  have b := quantise_mono h2
  rw [← h] at b
  omega

/-! ### The approximations stay in range -/

theorem grid_le (x : NumQ) : grid x ≤ x := by
  unfold grid
  rw [div_le_iff₀ (by positivity), floorOf_eq]
  exact Int.floor_le _

theorem grid_ge {x : NumQ} (n : Int) (h : (n : NumQ) ≤ x) : (n : NumQ) ≤ grid x := by
  unfold grid
  rw [le_div_iff₀ (by positivity), floorOf_eq]
  have hz : n * 2 ^ 80 ≤ ⌊x * 2 ^ 80⌋ := by
    rw [Int.le_floor]; push_cast; exact mul_le_mul_of_nonneg_right h (by positivity)
  exact_mod_cast hz

theorem grid_nonneg {x : NumQ} (h : 0 ≤ x) : 0 ≤ grid x := by
  have := grid_ge 0 (by simpa using h); simpa using this

theorem expSeries_ge_one (n k : Nat) {y : NumQ} (h : 0 ≤ y) : 1 ≤ expSeries n k y := by
  induction n generalizing k with
  | zero => simp [expSeries]
  | succ n ih =>
    simp only [expSeries]
    have h1 := ih (k + 1)
    have h2 : 0 ≤ y / ((k + 1 : Nat) : NumQ) := by positivity
    nlinarith

theorem expSeries_mono (n k : Nat) {y z : NumQ} (h : 0 ≤ y) (hz : y ≤ z) : expSeries n k y ≤ expSeries n k z := by
  induction n generalizing k with
  | zero => simp [expSeries]
  | succ n ih =>
    simp only [expSeries]
    have h1 := ih (k + 1)
    have h2 := expSeries_ge_one n (k + 1) h
    have h3 : y / ((k + 1 : Nat) : NumQ) ≤ z / ((k + 1 : Nat) : NumQ) := div_le_div_of_nonneg_right hz (by positivity)
    have h4 : 0 ≤ y / ((k + 1 : Nat) : NumQ) := by positivity
    nlinarith [mul_le_mul h3 h1 (by linarith) (by linarith : (0:ℚ) ≤ z / ((k + 1 : Nat) : NumQ))]

theorem pow2Approx_range {r : NumQ} (h0 : 0 ≤ r) (h1 : r < 1) : 1 ≤ pow2Approx r ∧ pow2Approx r ≤ 2 := by
  have hl : (0 : ℚ) ≤ ln2 := by unfold ln2; norm_num
  have hy : 0 ≤ grid (r * ln2) := grid_nonneg (by positivity)
  have hy2 : grid (r * ln2) ≤ ln2 := le_trans (grid_le _) (by nlinarith)
  unfold pow2Approx
  constructor
  · have := grid_ge 1 (by simpa using expSeries_ge_one 20 0 hy); simpa using this
  · refine le_trans (grid_le _) (le_trans (expSeries_mono 20 0 hy hy2) ?_)
    unfold ln2
    norm_num [expSeries]

theorem altSeries_range (n k : Nat) {q : NumQ} (h : 0 ≤ q) (h2 : q ≤ 2) :
    0 ≤ altSeries n k q ∧ altSeries n k q ≤ 1 := by
  induction n generalizing k with
  | zero => simp [altSeries]
  | succ n ih =>
    simp only [altSeries]
    obtain ⟨a, b⟩ := ih (k + 2)
    have hk : (2 : ℚ) ≤ (((k + 1) * (k + 2) : Nat) : NumQ) := by
      have : 2 ≤ (k + 1) * (k + 2) := by nlinarith
      exact_mod_cast this
    have h3 : 0 ≤ q / (((k + 1) * (k + 2) : Nat) : NumQ) := by positivity
    have h4 : q / (((k + 1) * (k + 2) : Nat) : NumQ) ≤ 1 := by rw [div_le_one (by linarith)]; linarith
    constructor <;> nlinarith

/-- The angle of the pan approximations. -/
theorem quarterAngle_range {p : NumQ} (h0 : 0 ≤ p) (h1 : p ≤ 1 / 2) :
    0 ≤ grid (p * halfPi) ∧ grid (p * halfPi) ≤ 1 := by
  have hp : (0 : ℚ) ≤ halfPi := by unfold halfPi; norm_num
  have hp2 : halfPi ≤ 2 := by unfold halfPi; norm_num
  exact ⟨grid_nonneg (by positivity), le_trans (grid_le _) (by nlinarith)⟩

theorem cosApprox_range {p : NumQ} (h0 : 0 ≤ p) (h1 : p ≤ 1 / 2) : 0 ≤ cosApprox p ∧ cosApprox p ≤ 1 := by
  obtain ⟨a, b⟩ := quarterAngle_range h0 h1
  obtain ⟨c, d⟩ := altSeries_range 10 0 (q := grid (p * halfPi) * grid (p * halfPi)) (by positivity) (by nlinarith)
  exact ⟨grid_nonneg c, le_trans (grid_le _) d⟩

theorem sinApprox_range {p : NumQ} (h0 : 0 ≤ p) (h1 : p ≤ 1 / 2) : 0 ≤ sinApprox p ∧ sinApprox p ≤ 1 := by
  obtain ⟨a, b⟩ := quarterAngle_range h0 h1
  obtain ⟨c, d⟩ := altSeries_range 10 1 (q := grid (p * halfPi) * grid (p * halfPi)) (by positivity) (by nlinarith)
  exact ⟨grid_nonneg (by positivity), le_trans (grid_le _) (by nlinarith)⟩

theorem tanhMiddle_range {x : NumQ} (h : 0 < x) : 0 ≤ tanhMiddle x ∧ tanhMiddle x ≤ 1 := by
  unfold tanhMiddle
  split
  · have he : 1 ≤ expSeries 20 0 (grid x / 32) :=
      expSeries_ge_one 20 0 (div_nonneg (grid_nonneg h.le) (by norm_num))
    have hp : (1 : ℚ) ≤ expSeries 20 0 (grid x / 32) ^ 64 := one_le_pow₀ he
    have h2 : 2 / (expSeries 20 0 (grid x / 32) ^ 64 + 1) ≤ 1 := by rw [div_le_one (by linarith)]; linarith
    have h3 : 0 ≤ 2 / (expSeries 20 0 (grid x / 32) ^ 64 + 1) := by positivity
    exact ⟨grid_nonneg (by linarith), le_trans (grid_le _) (by linarith)⟩
  · norm_num

/-! ### The four functions -/

theorem tanhPos_mem {x : NumQ} (h : 0 < x) :
    nearLow (tanhMiddle x) 0 < tanhPos x ∧ tanhPos x < nearHigh (tanhMiddle x) 1 :=
  near_mem _ (by norm_num) (tanhMiddle_range h).1 (tanhMiddle_range h).2

/-- `tanh` of a positive number lies in (0, 1). -/
theorem tanhPos_range {x : NumQ} (h : 0 < x) : 0 < tanhPos x ∧ tanhPos x < 1 := by
  obtain ⟨a, b, -⟩ := near_bounds (Config.tanhFree x) (show (0 : ℚ) < 1 by norm_num) (tanhMiddle_range h).1
    (tanhMiddle_range h).2
  exact ⟨a, b⟩

/-- `tanh` lies between the ends of its enclosure. -/
theorem tanhNum_mem (x : NumQ) : tanhLow x ≤ tanhNum x ∧ tanhNum x ≤ tanhHigh x := by
  unfold tanhLow tanhNum tanhHigh
  split
  · simp
  · split
    · next h => exact ⟨(tanhPos_mem h).1.le, (tanhPos_mem h).2.le⟩
    · next h0 h =>
      have hx : 0 < -x := by
        rcases lt_trichotomy x 0 with h' | h' | h'
        · linarith
        · exact absurd h' h0
        · exact absurd h' h
      have := tanhPos_mem hx
      constructor <;> linarith [this.1, this.2]

/-- `tanh` lies in (-1, 1). -/
theorem tanhNum_range (x : NumQ) : -1 < tanhNum x ∧ tanhNum x < 1 := by
  unfold tanhNum
  split
  · norm_num
  · split
    · next h => have := tanhPos_range h; constructor <;> linarith
    · next h0 h =>
      have hx : 0 < -x := by
        rcases lt_trichotomy x 0 with h' | h' | h'
        · linarith
        · exact absurd h' h0
        · exact absurd h' h
      have := tanhPos_range hx
      constructor <;> linarith

/-- The output of a channel is its soft clip quantised (43_pool_mixer.md R255, R256). -/
theorem outputOf_eq (x : NumQ) : outputOf x = quantise (tanhNum x) := by
  unfold outputOf
  split
  · next h => exact (quantise_between (tanhNum_mem x).1 (tanhNum_mem x).2 h).symm
  · rfl

@[simp] theorem tanhNum_zero : tanhNum 0 = 0 := by simp [tanhNum]

theorem quantise_zero : quantise 0 = 0 := by decide +kernel

@[simp] theorem outputOf_zero : outputOf 0 = 0 := by rw [outputOf_eq, tanhNum_zero, quantise_zero]

theorem cosQuarter_range {p : NumQ} (h0 : 0 ≤ p) (h1 : p ≤ 1) : 0 ≤ cosQuarter p ∧ cosQuarter p ≤ 1 := by
  unfold cosQuarter
  split
  · norm_num
  · split
    · norm_num
    · have hm : 0 ≤ (if p ≤ 1 / 2 then cosApprox p else sinApprox (1 - p)) ∧
          (if p ≤ 1 / 2 then cosApprox p else sinApprox (1 - p)) ≤ 1 := by
        split
        · next h => exact cosApprox_range h0 h
        · next h => exact sinApprox_range (by linarith) (by linarith)
      obtain ⟨a, b, -⟩ := near_bounds (Config.cosFree p) (by norm_num) hm.1 hm.2
      exact ⟨a.le, b.le⟩

theorem sinQuarter_range {p : NumQ} (h0 : 0 ≤ p) (h1 : p ≤ 1) : 0 ≤ sinQuarter p ∧ sinQuarter p ≤ 1 := by
  unfold sinQuarter
  split
  · norm_num
  · split
    · norm_num
    · have hm : 0 ≤ (if p ≤ 1 / 2 then sinApprox p else cosApprox (1 - p)) ∧
          (if p ≤ 1 / 2 then sinApprox p else cosApprox (1 - p)) ≤ 1 := by
        split
        · next h => exact sinApprox_range h0 h
        · next h => exact cosApprox_range (by linarith) (by linarith)
      obtain ⟨a, b, -⟩ := near_bounds (Config.sinFree p) (by norm_num) hm.1 hm.2
      exact ⟨a.le, b.le⟩

theorem clampNum_unit (x : NumQ) : 0 ≤ clampNum x 0 1 ∧ clampNum x 0 1 ≤ 1 := by
  unfold clampNum
  exact ⟨le_min (le_max_right _ _) (by norm_num), min_le_right _ _⟩

/-- The gains of a voice lie in [0, 1] (42_voice.md R192, 10_state.md R21). -/
theorem panGains_range (vol pan : NumQ) :
    (0 ≤ (panGains vol pan).left ∧ (panGains vol pan).left ≤ 1) ∧
      0 ≤ (panGains vol pan).right ∧ (panGains vol pan).right ≤ 1 := by
  obtain ⟨v0, v1⟩ := clampNum_unit vol
  obtain ⟨p0, p1⟩ := clampNum_unit pan
  obtain ⟨c0, c1⟩ := cosQuarter_range p0 p1
  obtain ⟨s0, s1⟩ := sinQuarter_range p0 p1
  simp only [panGains]
  refine ⟨⟨?_, ?_⟩, ?_, ?_⟩ <;> nlinarith

theorem pow2Int_pos (n : Int) : 0 < pow2Int n := by
  unfold pow2Int; split <;> positivity

/-- `pow2` of an integer is exact. -/
theorem pow2_int (n : Int) : pow2 (n : NumQ) = pow2Int n := by
  simp [pow2, floorOf_eq]

theorem pow2_zero : pow2 0 = 1 := by
  have := pow2_int 0; simpa [pow2Int] using this

theorem pow2_pos (x : NumQ) : 0 < pow2 x := by
  unfold pow2
  simp only
  split
  · exact pow2Int_pos _
  · next h =>
    have h0 : 0 ≤ x - (floorOf x : NumQ) := by rw [floorOf_eq]; exact Int.fract_nonneg x
    have h1 : x - (floorOf x : NumQ) < 1 := by rw [floorOf_eq]; exact Int.fract_lt_one x
    obtain ⟨a, -, -⟩ := near_bounds (Config.pow2Free x) (show (1 : ℚ) < 2 by norm_num) (pow2Approx_range h0 h1).1
      (pow2Approx_range h0 h1).2
    exact mul_pos (pow2Int_pos _) (by linarith)

/-- A bend of 0 leaves the pitch alone (43_pool_mixer.md R238). -/
theorem bendFactor_zero : bendFactor 0 = 1 := by simp [bendFactor, pow2_zero]

/-! ### `fmod` -/

/-- `fmod` answers in `[0, n)` (00_scope.md R9). -/
theorem fmod_range (a : NumQ) {n : NumQ} (h : 0 < n) : 0 ≤ fmod a n ∧ fmod a n < n := by
  unfold fmod
  rw [floorOf_eq]
  have h1 := Int.floor_le (a / n)
  have h2 := Int.lt_floor_add_one (a / n)
  rw [le_div_iff₀ h] at h1
  rw [div_lt_iff₀ h] at h2
  constructor <;> nlinarith

/-- Rounding leaves an integer alone (00_scope.md R9). -/
theorem roundAway_int (z : Int) : roundAway (z : NumQ) = z := by
  have h (n : Int) : ⌊(n : NumQ) + 1 / 2⌋ = n := by
    rw [Int.floor_eq_iff]; constructor <;> norm_num
  unfold roundAway
  show (if (0 : NumQ) ≤ z then ⌊(z : NumQ) + 1 / 2⌋ else -⌊-(z : NumQ) + 1 / 2⌋) = z
  split
  · exact h z
  · have := h (-z); push_cast at this; rw [this]; omega

end Sys2Proof.Machine
end

