-- ==== Sys2Proof/Laws/Ops.lean ====
section
/-! SUPPORT. What the shared operations of Sys2Proof/Machine/Ops.lean and Operands.lean do: the delay line's reads, writes and canonical form, the ids, the taking of a stream exception, the reading of a delay. -/

namespace Sys2Proof.Machine

open Sys2Proof

/-! ### The delay line -/

@[simp] theorem Memory.read_nil (a : Nat) : Memory.read [] a = 0 := rfl

theorem Memory.read_cons (b : Nat) (w : NumQ) (m : Memory) (a : Nat) :
    Memory.read ((b, w) :: m) a = if a = b then w else Memory.read m a := rfl

theorem Memory.wfFrom_cons (lo b : Nat) (w : NumQ) (m : Memory) :
    Memory.wfFrom lo ((b, w) :: m) = true ↔ lo ≤ b ∧ b < Config.reverbLen ∧ w ≠ 0 ∧ Memory.wfFrom (b + 1) m = true := by
  simp [Memory.wfFrom, and_assoc]

theorem Memory.wfFrom_mono {lo lo' : Nat} (m : Memory) (h : lo' ≤ lo) (hm : m.wfFrom lo = true) : m.wfFrom lo' = true := by
  cases m with
  | nil => rfl
  | cons e m =>
    obtain ⟨b, w⟩ := e
    rw [Memory.wfFrom_cons] at hm ⊢
    exact ⟨by omega, hm.2⟩

/-- Below the first index that a canonical memory can list, it reads as 0. -/
theorem Memory.read_below {lo a : Nat} (m : Memory) (hm : m.wfFrom lo = true) (h : a < lo) : m.read a = 0 := by
  induction m generalizing lo with
  | nil => rfl
  | cons e m ih =>
    obtain ⟨b, w⟩ := e
    rw [Memory.wfFrom_cons] at hm
    rw [Memory.read_cons, if_neg (by omega)]
    exact ih hm.2.2.2 (by omega)

/-- What a write leaves at every index of a canonical memory. -/
theorem Memory.read_write {lo : Nat} (m : Memory) (hm : m.wfFrom lo = true) (a : Nat) (v : NumQ) (c : Nat) :
    (m.write a v).read c = if c = a then v else m.read c := by
  induction m generalizing lo with
  | nil =>
    unfold Memory.write
    split
    · next h => subst h; simp
    · rw [Memory.read_cons]
  | cons e m ih =>
    obtain ⟨b, w⟩ := e
    have hm' := hm
    rw [Memory.wfFrom_cons] at hm
    have hz : Memory.read m b = 0 := Memory.read_below m hm.2.2.2 (by omega)
    unfold Memory.write
    split
    · next h =>
      have hz' : Memory.read ((b, w) :: m) a = 0 := by
        rw [Memory.read_cons, if_neg (by omega)]
        exact Memory.read_below m hm.2.2.2 (by omega)
      split
      · next hv =>
        subst hv
        by_cases hc : c = a
        · rw [if_pos hc, hc, hz']
        · rw [if_neg hc]
      · rw [Memory.read_cons]
    · split
      · next h1 h2 =>
        subst h2
        split
        · next hv =>
          subst hv
          by_cases hc : c = a
          · rw [if_pos hc, hc, hz]
          · rw [if_neg hc, Memory.read_cons, if_neg hc]
        · rw [Memory.read_cons, Memory.read_cons]
          by_cases hc : c = a
          · simp [hc]
          · simp [hc]
      · next h1 h2 =>
        rw [Memory.read_cons, Memory.read_cons, ih hm.2.2.2]
        by_cases hc : c = a
        · subst hc; simp [h2]
        · simp [hc]

/-- A write below the length keeps the canonical form. -/
theorem Memory.write_wfFrom {lo : Nat} (m : Memory) (hm : m.wfFrom lo = true) {a : Nat} (v : NumQ) (hlo : lo ≤ a)
    (ha : a < Config.reverbLen) : (m.write a v).wfFrom lo = true := by
  induction m generalizing lo with
  | nil =>
    unfold Memory.write
    split
    · rfl
    · next h => rw [Memory.wfFrom_cons]; exact ⟨hlo, ha, h, rfl⟩
  | cons e m ih =>
    obtain ⟨b, w⟩ := e
    have hm' := hm
    rw [Memory.wfFrom_cons] at hm
    unfold Memory.write
    split
    · split
      · exact hm'
      · next h hv =>
        rw [Memory.wfFrom_cons, Memory.wfFrom_cons]
        exact ⟨hlo, ha, hv, by omega, hm.2⟩
    · split
      · next h1 h2 =>
        subst h2
        split
        · exact Memory.wfFrom_mono m (by omega) hm.2.2.2
        · next hv => rw [Memory.wfFrom_cons]; exact ⟨hlo, ha, hv, hm.2.2.2⟩
      · next h1 h2 =>
        rw [Memory.wfFrom_cons]
        exact ⟨hm.1, hm.2.1, hm.2.2.1, ih hm.2.2.2 (by omega)⟩

/-- A write keeps the canonical form of the delay line. -/
theorem Memory.write_wf (m : Memory) (hm : m.wf = true) {a : Nat} (v : NumQ) (ha : a < Config.reverbLen) :
    (m.write a v).wf = true := Memory.write_wfFrom m hm v (Nat.zero_le _) ha

/-- The delay line after reset is in canonical form. -/
theorem reset_line : State.reset.LineOk := rfl

/-! ### Ids -/

theorem voiceIndex_some {id : Int} {i : Fin 127} : voiceIndex id = some i ↔ id = (i.val : Int) := by
  unfold voiceIndex
  split
  · next h =>
    constructor
    · intro e; cases e; simp; omega
    · intro e; subst e; simp
  · next h => constructor
              · intro e; cases e
              · intro e; exact absurd ⟨by omega, by omega⟩ h

theorem voiceIndex_none {id : Int} (h : id < 0 ∨ 126 < id) : voiceIndex id = none := by
  unfold voiceIndex; rw [dif_neg]; omega

@[simp] theorem voiceIndex_coe (i : Fin 127) : voiceIndex (i.val : Int) = some i := voiceIndex_some.mpr rfl

theorem slotIndex_some {id : Int} {k : Fin 16} : slotIndex id = some k ↔ id = (k.val : Int) := by
  unfold slotIndex
  split
  · next h =>
    constructor
    · intro e; cases e; simp; omega
    · intro e; subst e; simp
  · next h => constructor
              · intro e; cases e
              · intro e; exact absurd ⟨by omega, by omega⟩ h

theorem slotIndex_none {id : Int} (h : id < 0 ∨ 15 < id) : slotIndex id = none := by
  unfold slotIndex; rw [dif_neg]; omega

@[simp] theorem slotIndex_coe (k : Fin 16) : slotIndex (k.val : Int) = some k := slotIndex_some.mpr rfl

theorem programIndex_some {p : Int} {q : Fin 128} : programIndex p = some q ↔ p = (q.val : Int) := by
  unfold programIndex
  split
  · next h =>
    constructor
    · intro e; cases e; simp; omega
    · intro e; subst e; simp
  · next h => constructor
              · intro e; cases e
              · intro e; exact absurd ⟨by omega, by omega⟩ h

theorem programIndex_none {p : Int} (h : p < 0 ∨ 127 < p) : programIndex p = none := by
  unfold programIndex; rw [dif_neg]; omega

@[simp] theorem programIndex_coe (q : Fin 128) : programIndex (q.val : Int) = some q := programIndex_some.mpr rfl

/-! ### The taking of a stream exception (60_exceptions.md R380) -/

theorem raiseSlot_slot_self (s : State) (k : Fin 16) (d : Diag) :
    (s.raiseSlot k d).slot k = { s.slot k with active := false, buf := none } := by
  simp [State.raiseSlot, Slot.stopped, State.slot, State.setSlot, State.emit]

theorem raiseSlot_slot_ne (s : State) {k l : Fin 16} (d : Diag) (h : k ≠ l) :
    (s.raiseSlot k d).slot l = s.slot l := by
  rw [show (s.raiseSlot k d).slot l = (s.setSlot k (s.slot k).stopped).slot l from rfl]
  exact slot_setSlot_ne s _ h

/-- Everything that taking the exception does. -/
theorem raiseSlot_eq (s : State) (k : Fin 16) (d : Diag) :
    s.raiseSlot k d =
      { s with slots := s.slots.set k { s.slot k with active := false, buf := none }, diag := s.diag ++ [d] } := rfl

theorem raiseStream_eq (s : State) (k : Fin 16) (cursor : Nat) (e : StreamError) :
    s.raiseStream k cursor e = s.raiseSlot k (streamDiag e k cursor) := rfl

/-! ### The reading of a delay (30_encoding.md R102) -/

/-- Everything that reading a delay can do: it answers a value, which becomes the wait, or it raises. -/
theorem readDelay_cases (s : State) (k : Fin 16) :
    (∃ v, (decodeVlq (s.slot k).stream).result = .ok v ∧
      s.readDelay k = s.setSlot k { s.slot k with cursor := (s.slot k).cursor + (decodeVlq (s.slot k).stream).used, wait := v }) ∨
    (∃ e, (decodeVlq (s.slot k).stream).result = .error e ∧
      s.readDelay k = (s.setSlot k { s.slot k with cursor := (s.slot k).cursor + (decodeVlq (s.slot k).stream).used,
                                                   active := false, buf := none }).emit
        (streamDiag e k (s.slot k).cursor)) := by
  unfold State.readDelay
  simp only
  split
  · next v hv => exact .inl ⟨v, hv, rfl⟩
  · next e he =>
    refine .inr ⟨e, he, ?_⟩
    simp only [State.raiseStream, State.raiseSlot, slot_setSlot_self, Slot.stopped, setSlot_setSlot]

/-- Reading a delay that decodes moves the cursor past it and sets the wait. -/
theorem readDelay_of_ok (s : State) (k : Fin 16) (v n : Nat) (h : decodeVlq (s.slot k).stream = { used := n, result := .ok v }) :
    s.readDelay k = s.setSlot k { s.slot k with cursor := (s.slot k).cursor + n, wait := v } := by
  unfold State.readDelay; simp only [h]

/-- Reading a delay that does not decode moves the cursor past the bytes read, stops the slot and emits the record. -/
theorem readDelay_of_error (s : State) (k : Fin 16) (e : StreamError) (n : Nat)
    (h : decodeVlq (s.slot k).stream = { used := n, result := .error e }) :
    s.readDelay k =
      (s.setSlot k { s.slot k with active := false, buf := none, cursor := (s.slot k).cursor + n }).emit
        (streamDiag e k (s.slot k).cursor) := by
  unfold State.readDelay
  simp only [h, raiseStream_eq, State.raiseSlot, slot_setSlot_self, Slot.stopped, setSlot_setSlot]

/-- Reading a delay changes the slots and the diagnostic port only. -/
theorem readDelay_frame (s : State) (k : Fin 16) :
    s.readDelay k = { s with slots := (s.readDelay k).slots, diag := (s.readDelay k).diag } := by
  rcases readDelay_cases s k with ⟨v, -, h⟩ | ⟨e, -, h⟩ <;> rw [h] <;> rfl

/-- Reading a delay leaves the other slots alone. -/
theorem readDelay_slot_ne (s : State) {k l : Fin 16} (h : k ≠ l) : (s.readDelay k).slot l = s.slot l := by
  rcases readDelay_cases s k with ⟨v, -, e⟩ | ⟨_, -, e⟩ <;> rw [e]
  · exact slot_setSlot_ne s _ h
  · exact slot_setSlot_ne s _ h

end Sys2Proof.Machine
end

