-- ==== Sys2Proof/Laws/Pool.lean ====
section
/-! SUPPORT. What the allocator and the operations of the voice pool do (43_pool_mixer.md R230 to R239, 42_voice.md R191, R193). -/

namespace Sys2Proof.Machine

open Sys2Proof

/-! ### The least voice with a property -/

theorem leastVoice_some {s : State} {f : Voice → Bool} {i : Fin 127} (h : s.leastVoice f = some i) :
    f (s.voice i) = true ∧ ∀ j : Fin 127, j < i → f (s.voice j) = false := by
  unfold State.leastVoice at h
  rw [List.find?_eq_some_iff_append] at h
  obtain ⟨hf, as, bs, hl, hb⟩ := h
  refine ⟨hf, fun j hj => ?_⟩
  have hmem : j ∈ as := by
    have hp : (List.finRange 127).Pairwise (· < ·) := List.pairwise_lt_finRange 127
    rw [hl, List.pairwise_append] at hp
    have hjm : j ∈ as ++ i :: bs := by rw [← hl]; exact List.mem_finRange j
    rcases List.mem_append.mp hjm with h1 | h1
    · exact h1
    · rcases List.mem_cons.mp h1 with h2 | h2
      · subst h2; exact absurd hj (lt_irrefl _)
      · exact absurd ((List.pairwise_cons.mp hp.2.1).1 j h2) (not_lt.mpr hj.le)
  simpa using hb j hmem

theorem leastVoice_none {s : State} {f : Voice → Bool} (h : s.leastVoice f = none) (i : Fin 127) :
    f (s.voice i) = false := by
  unfold State.leastVoice at h
  have := List.find?_eq_none.mp h i (List.mem_finRange i)
  simpa using this

/-- The least voice is the one that has the property while no voice below it has. -/
theorem leastVoice_eq {s : State} {f : Voice → Bool} {i : Fin 127} (h : f (s.voice i) = true)
    (hl : ∀ j : Fin 127, j < i → f (s.voice j) = false) : s.leastVoice f = some i := by
  cases h' : s.leastVoice f with
  | none => rw [leastVoice_none h' i] at h; cases h
  | some j =>
    obtain ⟨hj, hj'⟩ := leastVoice_some h'
    rcases lt_trichotomy i j with h2 | h2 | h2
    · rw [hj' i h2] at h; cases h
    · rw [h2]
    · rw [hl j h2] at hj; cases hj

theorem leastVoice_eq_none {s : State} {f : Voice → Bool} (h : ∀ i, f (s.voice i) = false) : s.leastVoice f = none := by
  cases h' : s.leastVoice f with
  | none => rfl
  | some j => have := (leastVoice_some h').1; rw [h j] at this; cases this

/-! ### The allocator (43_pool_mixer.md R230 to R232) -/

/-- Everything the allocator can do. -/
theorem allocate_cases (s : State) :
    (∃ i, s.allocate = (s, i) ∧ (s.voice i).active = false ∧ ∀ j : Fin 127, j < i → (s.voice j).active = true) ∨
    (∃ i, s.allocate = (s, i) ∧ (∀ j, (s.voice j).active = true) ∧ (s.voice i).phase = .release ∧
      ∀ j : Fin 127, j < i → (s.voice j).phase ≠ .release) ∨
    (s.allocate = (s.advanceSteal.emit (.voiceStolen s.stealCursor), s.stealCursor) ∧
      (∀ j, (s.voice j).active = true) ∧ ∀ j, (s.voice j).phase ≠ .release) := by
  unfold State.allocate
  split
  · next i h =>
    obtain ⟨h1, h2⟩ := leastVoice_some h
    exact .inl ⟨i, rfl, by simpa using h1, fun j hj => by simpa using h2 j hj⟩
  · next h =>
    have ha : ∀ j, (s.voice j).active = true := fun j => by simpa using leastVoice_none h j
    split
    · next i h2 =>
      obtain ⟨h3, h4⟩ := leastVoice_some h2
      exact .inr (.inl ⟨i, rfl, ha, by simpa using h3, fun j hj => by simpa using h4 j hj⟩)
    · next h2 => exact .inr (.inr ⟨rfl, ha, fun j => by simpa using leastVoice_none h2 j⟩)

/-- The allocator moves nothing but the steal cursor and the diagnostic port. -/
theorem allocate_frame (s : State) :
    s.allocate.1 = { s with stealCursor := s.allocate.1.stealCursor, diag := s.allocate.1.diag } := by
  rcases allocate_cases s with ⟨i, h, -⟩ | ⟨i, h, -⟩ | ⟨h, -⟩
  · rw [h]
  · rw [h]
  · rw [h]; rfl

/-- Everything that `PLAY_NOTE` on a tone reference can do. -/
theorem playTone_cases (s : State) (r : ToneRef) (pitch volume : NumQ) (fm : Bool) (pan : NumQ) (note prog : Nat) :
    (s.playable r = false ∧ s.playTone r pitch volume fm pan note prog = { state := s, voice := none }) ∨
    (s.playable r = true ∧ s.playTone r pitch volume fm pan note prog =
      { state := (s.allocate.1.setFm s.allocate.2 fm).setVoice s.allocate.2 (armedVoice r pitch volume pan note prog)
        voice := some s.allocate.2 }) := by
  unfold State.playTone
  cases h : s.playable r with
  | false => exact .inl ⟨rfl, by simp⟩
  | true => exact .inr ⟨rfl, by simp⟩

/-- `PLAY_NOTE` changes voices, FM flags, the steal cursor and the diagnostic port only. -/
theorem playTone_frame (s : State) (r : ToneRef) (pitch volume : NumQ) (fm : Bool) (pan : NumQ) (note prog : Nat) :
    (s.playTone r pitch volume fm pan note prog).state =
      { s with voices := (s.playTone r pitch volume fm pan note prog).state.voices
               fm := (s.playTone r pitch volume fm pan note prog).state.fm
               stealCursor := (s.playTone r pitch volume fm pan note prog).state.stealCursor
               diag := (s.playTone r pitch volume fm pan note prog).state.diag } := by
  rcases playTone_cases s r pitch volume fm pan note prog with ⟨-, h⟩ | ⟨-, h⟩
  · rw [h]
  · rw [h]
    have := allocate_frame s
    generalize s.allocate = a at this ⊢
    obtain ⟨t, i⟩ := a
    simp only at this ⊢
    rw [this]; rfl

/-- Each voice after `PLAY_NOTE` is the one armed or the one before. -/
theorem playTone_voice (s : State) (r : ToneRef) (pitch volume : NumQ) (fm : Bool) (pan : NumQ) (note prog : Nat)
    (i : Fin 127) :
    (s.playTone r pitch volume fm pan note prog).state.voice i = s.voice i ∨
      s.playable r = true ∧
        (s.playTone r pitch volume fm pan note prog).state.voice i = armedVoice r pitch volume pan note prog := by
  rcases playTone_cases s r pitch volume fm pan note prog with ⟨-, h⟩ | ⟨hp, h⟩
  · rw [h]; exact .inl rfl
  · rw [h]
    simp only
    rw [voice_setVoice]
    split
    · exact .inr ⟨hp, rfl⟩
    · left
      have hv : (s.allocate.1.setFm s.allocate.2 fm).voices = s.voices := by
        rw [setFm_voices, allocate_frame s]
      exact voice_congr hv i

/-! ### Playable tones (43_pool_mixer.md R234) -/

theorem playable_iff (s : State) (r : ToneRef) :
    s.playable r = true ↔ ∃ t, s.toneAt r = some t ∧ 1 ≤ t.data.length ∧ t.synthetic = false := by
  unfold State.playable
  cases h : s.toneAt r with
  | none => simp
  | some t => simp [Tone.len, -decide_eq_true_eq]; exact fun _ => decide_eq_true_iff

theorem toneAt_some_program {s : State} {r : ToneRef} {t : Tone} (h : s.toneAt r = some t) : r.program < 128 := by
  by_contra hp
  unfold State.toneAt State.program at h
  rw [dif_neg hp] at h
  simp [Program.empty] at h

theorem toneRefOf_some {p t : Int} {r : ToneRef} :
    toneRefOf p t = some r ↔ 0 ≤ p ∧ 0 ≤ t ∧ r = { program := p.toNat, index := t.toNat } := by
  unfold toneRefOf
  split
  · next h => constructor
              · intro e; cases e; exact ⟨h.1, h.2, rfl⟩
              · rintro ⟨-, -, e⟩; rw [e]
  · next h => constructor
              · intro e; cases e
              · rintro ⟨h1, h2, -⟩; exact absurd ⟨h1, h2⟩ h

/-! ### Phase changes of one voice -/

/-- `NoteOff` in one line (42_voice.md R193). -/
theorem noteOff_eq (v : Voice) :
    v.noteOff = if v.phase = .attack ∨ v.phase = .decay ∨ v.phase = .sustain then { v with phase := .release } else v := by
  unfold Voice.noteOff
  cases h : v.phase <;> simp

@[simp] theorem noteOff_active (v : Voice) : v.noteOff.active = v.active := by
  unfold Voice.noteOff; cases v.phase <;> rfl

@[simp] theorem noteOff_tone (v : Voice) : v.noteOff.tone = v.tone := by
  unfold Voice.noteOff; cases v.phase <;> rfl

@[simp] theorem noteOff_cursor (v : Voice) : v.noteOff.cursor = v.cursor := by
  unfold Voice.noteOff; cases v.phase <;> rfl

/-! ### One voice or every voice -/

theorem onVoice_some (s : State) {id : Int} {i : Fin 127} (h : id = (i.val : Int)) (f : Voice → Voice) :
    s.onVoice id f = s.setVoice i (f (s.voice i)) := by
  unfold State.onVoice; rw [voiceIndex_some.mpr h]

theorem onVoice_none (s : State) {id : Int} (h : id < 0 ∨ 126 < id) (f : Voice → Voice) : s.onVoice id f = s := by
  unfold State.onVoice; rw [voiceIndex_none h]

/-- Everything `onVoice` can do. -/
theorem onVoice_cases (s : State) (id : Int) (f : Voice → Voice) :
    s.onVoice id f = s ∨ ∃ i : Fin 127, s.onVoice id f = s.setVoice i (f (s.voice i)) := by
  unfold State.onVoice
  cases voiceIndex id with
  | none => exact .inl rfl
  | some i => exact .inr ⟨i, rfl⟩

theorem programBend_frame (s : State) (p : Nat) (bend : NumQ) :
    s.programBend p bend = { s with voices := (s.programBend p bend).voices } := rfl

theorem programBend_voice (s : State) (p : Nat) (bend : NumQ) (i : Fin 127) :
    (s.programBend p bend).voice i =
      if (s.voice i).active = true ∧ (s.voice i).programId = some p then
        { s.voice i with pitch := (s.voice i).basePitch * pow2 (bend * 2 / 12) }
      else s.voice i := by
  unfold State.programBend
  rw [voice_mapVoices]
  simp only [Voice.ofProgram, Bool.and_eq_true, decide_eq_true_eq]
  rfl

end Sys2Proof.Machine
end

