-- ==== Sys2Proof/Laws/Voice.lean ====
section
/-! SUPPORT. What one call of a voice's operations can do (42_voice.md R191 to R211): the easing step, the envelope step, the cursor, the gains. -/

namespace Sys2Proof.Machine

open Sys2Proof

/-! ### The envelope step -/

/-- An easing step stays between its start and its target (42_voice.md R201). -/
theorem ease_between (x target k dt : NumQ) (h : 0 ≤ k * dt) :
    min x target ≤ ease x target k dt ∧ ease x target k dt ≤ max x target := by
  unfold ease
  have h1 : 0 ≤ min 1 (k * dt) := le_min (by norm_num) h
  have h2 : min 1 (k * dt) ≤ 1 := min_le_left _ _
  rcases le_total x target with hx | hx
  · rw [min_eq_left hx, max_eq_right hx]; constructor <;> nlinarith
  · rw [min_eq_right hx, max_eq_left hx]; constructor <;> nlinarith

theorem ease_unit {x target k dt : NumQ} (h : 0 ≤ k * dt) (hx : 0 ≤ x ∧ x ≤ 1) (ht : 0 ≤ target ∧ target ≤ 1) :
    0 ≤ ease x target k dt ∧ ease x target k dt ≤ 1 := by
  obtain ⟨a, b⟩ := ease_between x target k dt h
  exact ⟨le_trans (le_min hx.1 ht.1) a, le_trans b (max_le hx.2 ht.2)⟩

/-- A step of a live envelope: what it leaves in the voice besides `env`, and what `env` becomes. -/
theorem envelopeStep_frame (e : Adsr) (dt : NumQ) (v : Voice) :
    envelopeStep e dt v =
      { v with env := (envelopeStep e dt v).env, phase := (envelopeStep e dt v).phase,
               active := (envelopeStep e dt v).active, lastOut := (envelopeStep e dt v).lastOut } := by
  unfold envelopeStep
  cases v.phase with
  | attack =>
    simp only [attackStep]
    generalize (if e.attack ≤ 0 then (1 : NumQ) else v.env + dt / e.attack) = x
    split <;> rfl
  | decay => simp only [decayStep]; split <;> rfl
  | sustain => rfl
  | release => simp only [releaseStep]; split <;> rfl
  | idle => rfl

/-- The envelope parameters of a tone as the loader makes them. -/
structure Adsr.Ok (e : Adsr) : Prop where
  attack_nonneg : 0 ≤ e.attack
  decay_nonneg : 0 ≤ e.decay
  sustain_nonneg : 0 ≤ e.sustain
  sustain_le_one : e.sustain ≤ 1
  release_nonneg : 0 ≤ e.release

theorem Tone.Ok.adsr {t : Tone} (h : t.Ok) : t.adsr.Ok :=
  ⟨h.attack_nonneg, h.decay_nonneg, h.sustain_nonneg, h.sustain_le_one, h.release_nonneg⟩

theorem decayRate_nonneg {e : Adsr} (h : 0 ≤ e.decay) : 0 ≤ decayRate e := by
  unfold decayRate; positivity

/-- An envelope step keeps a voice's registers in their types and `active` equal to `phase ≠ Idle`
(42_voice.md R211). -/
theorem envelopeStep_ok {e : Adsr} (he : e.Ok) {dt : NumQ} (hdt : 0 ≤ dt) {v : Voice} (hv : v.Ok) :
    (envelopeStep e dt v).Ok := by
  have hk : 0 ≤ decayRate e * dt := mul_nonneg (decayRate_nonneg he.decay_nonneg) hdt
  have hs : 0 ≤ e.sustain ∧ e.sustain ≤ 1 := ⟨he.sustain_nonneg, he.sustain_le_one⟩
  have henv : 0 ≤ v.env ∧ v.env ≤ 1 := ⟨hv.env_nonneg, hv.env_le_one⟩
  have hd := ease_unit hk henv hs
  unfold envelopeStep
  cases hp : v.phase with
  | idle => exact hv
  | attack =>
    have ha : v.active = true := hv.active_iff.mpr (by rw [hp]; decide)
    have hq : 0 ≤ if e.attack ≤ 0 then (1 : ℚ) else v.env + dt / e.attack := by
      split
      · norm_num
      · have := he.attack_nonneg; have := hv.env_nonneg; positivity
    simp only [attackStep]
    generalize (if e.attack ≤ 0 then (1 : NumQ) else v.env + dt / e.attack) = x at hq ⊢
    split
    · exact ⟨by simp [ha], by norm_num, by norm_num, hv.cursor_nonneg, hv.volL_nonneg, hv.volR_nonneg, hv.override_nonneg⟩
    · next h => exact ⟨by simp [ha, hp], hq, (not_le.mp h).le, hv.cursor_nonneg, hv.volL_nonneg, hv.volR_nonneg, hv.override_nonneg⟩
  | decay =>
    have ha : v.active = true := hv.active_iff.mpr (by rw [hp]; decide)
    simp only [decayStep]
    split
    · exact ⟨by simp [ha], hd.1, hd.2, hv.cursor_nonneg, hv.volL_nonneg, hv.volR_nonneg, hv.override_nonneg⟩
    · exact ⟨by simp [ha, hp], hd.1, hd.2, hv.cursor_nonneg, hv.volL_nonneg, hv.volR_nonneg, hv.override_nonneg⟩
  | sustain =>
    have ha : v.active = true := hv.active_iff.mpr (by rw [hp]; decide)
    exact ⟨by simp [sustainStep, ha, hp], hd.1, hd.2, hv.cursor_nonneg, hv.volL_nonneg, hv.volR_nonneg, hv.override_nonneg⟩
  | release =>
    have ha : v.active = true := hv.active_iff.mpr (by rw [hp]; decide)
    have hr : 0 ≤ releaseTime e v := by
      unfold releaseTime
      cases ho : v.relOverride with
      | none => exact he.release_nonneg
      | some r => exact hv.override_nonneg r ho
    have hr' := ease_unit (x := v.env) (target := 0) (k := 8 / (releaseTime e v + 5 / 1000)) (dt := dt)
      (by positivity) henv ⟨le_refl _, by norm_num⟩
    simp only [releaseStep]
    split
    · exact ⟨by simp, le_refl _, by norm_num, hv.cursor_nonneg, hv.volL_nonneg, hv.volR_nonneg, hv.override_nonneg⟩
    · exact ⟨by simp [ha, hp], hr'.1, hr'.2, hv.cursor_nonneg, hv.volL_nonneg, hv.volR_nonneg, hv.override_nonneg⟩

/-! ### The cursor -/

/-- A settled cursor lies inside the data, and a settled voice keeps its registers in their types
(42_voice.md R204, R205, R210, R211). -/
theorem settleCursor_ok {t : Tone} (ht : 1 ≤ t.len) {v : Voice} (ha : v.active = true) (hp : v.phase ≠ .idle)
    (henv : 0 ≤ v.env ∧ v.env ≤ 1) (hl : 0 ≤ v.volL) (hr : 0 ≤ v.volR) (ho : ∀ r, v.relOverride = some r → 0 ≤ r) :
    (settleCursor t v).Ok ∧ (settleCursor t v).cursor < (t.len : NumQ) := by
  have hlen : (1 : ℚ) ≤ (t.len : NumQ) := by exact_mod_cast ht
  have hf := fmod_range v.cursor (show (0 : ℚ) < (t.len : NumQ) by linarith)
  unfold settleCursor
  split
  · split
    · exact ⟨⟨by simp [ha, hp], henv.1, henv.2, hf.1, hl, hr, ho⟩, hf.2⟩
    · exact ⟨⟨by simp [ha, hp], henv.1, henv.2, le_refl _, hl, hr, ho⟩, by simp only; linarith⟩
  · next h0 =>
    split
    · split
      · exact ⟨⟨by simp [ha, hp], henv.1, henv.2, hf.1, hl, hr, ho⟩, hf.2⟩
      · refine ⟨⟨by simp [ha], henv.1, henv.2, by simp only; linarith, hl, hr, ?_⟩, by simp only; linarith⟩
        intro r h; cases h; norm_num
    · next h1 => exact ⟨⟨by simp [ha, hp], henv.1, henv.2, not_lt.mp h0, hl, hr, ho⟩, not_le.mp h1⟩

theorem settleCursor_frame (t : Tone) (v : Voice) :
    settleCursor t v =
      { v with cursor := (settleCursor t v).cursor, relOverride := (settleCursor t v).relOverride,
               phase := (settleCursor t v).phase } := by
  unfold settleCursor
  split
  · rfl
  · split
    · split <;> rfl
    · rfl

/-! ### GetSamples -/

/-- Writing the last output keeps a voice's rules: no rule speaks of it. -/
theorem Voice.Ok.withLastOut {v : Voice} (h : v.Ok) (x : NumQ) : ({ v with lastOut := x } : Voice).Ok :=
  ⟨h.active_iff, h.env_nonneg, h.env_le_one, h.cursor_nonneg, h.volL_nonneg, h.volR_nonneg, h.override_nonneg⟩

/-- What a call of `GetSamples` writes (10_state.md R22). -/
theorem getSamples_frame (t : Tone) (dt m : NumQ) (v : Voice) :
    (getSamples t dt m v).voice =
      { v with env := (getSamples t dt m v).voice.env, phase := (getSamples t dt m v).voice.phase
               active := (getSamples t dt m v).voice.active, lastOut := (getSamples t dt m v).voice.lastOut
               cursor := (getSamples t dt m v).voice.cursor
               relOverride := (getSamples t dt m v).voice.relOverride } := by
  unfold getSamples
  split
  · simp only
    split
    · simp only [outputStep]
      rw [settleCursor_frame, envelopeStep_frame]
    · rw [envelopeStep_frame]
  · rfl

/-- A call of `GetSamples` keeps a voice's rules, and a voice that is active after it has its cursor inside the
data (42_voice.md R211). -/
theorem getSamples_ok {t : Tone} (ht : 1 ≤ t.len) (he : t.adsr.Ok) {dt : NumQ} (hdt : 0 ≤ dt) (m : NumQ) {v : Voice}
    (hv : v.Ok) : (getSamples t dt m v).voice.Ok ∧
      ((getSamples t dt m v).voice.active = true → (getSamples t dt m v).voice.cursor < (t.len : NumQ)) := by
  have hs := envelopeStep_ok he hdt hv
  unfold getSamples
  split
  · simp only
    split
    · next ha =>
      have := settleCursor_ok (t := t) ht
        (v := { envelopeStep t.adsr dt v with
          cursor := (envelopeStep t.adsr dt v).cursor + cursorStep (envelopeStep t.adsr dt v) dt m })
        ha (hs.active_iff.mp ha) ⟨hs.env_nonneg, hs.env_le_one⟩ hs.volL_nonneg hs.volR_nonneg hs.override_nonneg
      exact ⟨this.1.withLastOut _, fun _ => this.2⟩
    · next ha => exact ⟨hs, fun h => absurd h ha⟩
  · next ha => exact ⟨hv.withLastOut 0, fun h => absurd h ha⟩

/-! ### Other writers of a voice -/

theorem reset_voice_ok : Voice.reset.Ok :=
  ⟨by decide, le_refl _, by decide +kernel, le_refl _, le_refl _, le_refl _, by simp [Voice.reset]⟩

theorem armedVoice_ok (r : ToneRef) (pitch volume pan : NumQ) (note prog : Nat) :
    (armedVoice r pitch volume pan note prog).Ok := by
  obtain ⟨⟨l, -⟩, r', -⟩ := panGains_range volume pan
  exact ⟨by simp [armedVoice], le_refl _, by simp [armedVoice], le_refl _, l, r', by simp [armedVoice]⟩

theorem noteOff_ok {v : Voice} (h : v.Ok) : v.noteOff.Ok := by
  unfold Voice.noteOff
  cases hp : v.phase with
  | idle => exact h
  | release => exact h
  | _ =>
    have ha : v.active = true := h.active_iff.mpr (by rw [hp]; decide)
    exact ⟨by simp [ha], h.env_nonneg, h.env_le_one, h.cursor_nonneg, h.volL_nonneg, h.volR_nonneg, h.override_nonneg⟩

theorem bent_ok {v : Voice} (h : v.Ok) (bend : NumQ) : (v.bent bend).Ok :=
  ⟨h.active_iff, h.env_nonneg, h.env_le_one, h.cursor_nonneg, h.volL_nonneg, h.volR_nonneg, h.override_nonneg⟩

theorem withGains_ok {v : Voice} (h : v.Ok) (vol pan : NumQ) : (v.withGains (panGains vol pan)).Ok := by
  obtain ⟨⟨l, -⟩, r, -⟩ := panGains_range vol pan
  exact ⟨h.active_iff, h.env_nonneg, h.env_le_one, h.cursor_nonneg, l, r, h.override_nonneg⟩

theorem cut_ok {v : Voice} (h : v.Ok) : v.cut.Ok :=
  ⟨by simp [Voice.cut], le_refl _, by simp [Voice.cut], h.cursor_nonneg, h.volL_nonneg, h.volR_nonneg, by simp [Voice.cut]⟩

end Sys2Proof.Machine
end

