-- ==== Sys2Proof/Laws/Bank.lean ====
section
/-! SUPPORT. What the ADPCM decoder, the envelope converter and the bank loader answer (40_adpcm_decoder.md, 41_envelope_generator.md, 45_bank_loader.md). -/

namespace Sys2Proof.Machine

open Sys2Proof

/-! ### The decoder -/

theorem decodeNibbles_length (shift filter : Nat) (bytes : Bytes) (a : Accumulators) :
    (decodeNibbles shift filter bytes a).2.length = 2 * bytes.length := by
  induction bytes generalizing a with
  | nil => rfl
  | cons b rest ih => simp only [decodeNibbles, List.length_cons, ih]; omega

theorem decodeBlocks_length (n : Nat) (data : Bytes) (a : Accumulators) (h : 16 * n ≤ data.length) :
    28 ∣ (decodeBlocks n data a).samples.length ∧ (decodeBlocks n data a).samples.length ≤ 28 * n := by
  induction n generalizing data a with
  | zero => simp [decodeBlocks]
  | succ n ih =>
    have hl : (memRead data 2 14).length = 14 := by simp [memRead]; omega
    simp only [decodeBlocks]
    split
    · simp only [decodeNibbles_length, hl]; omega
    · have := ih (data.drop 16)
        (decodeNibbles (BitVec.extractLsb' 0 4 (data.getD 0 0)).toNat (BitVec.extractLsb' 4 4 (data.getD 0 0)).toNat
          (memRead data 2 14) a).1 (by simp; omega)
      simp only [List.length_append, decodeNibbles_length, hl]
      omega

/-- The decoder emits whole blocks of 28 samples, at most one for each whole block of the data
(40_adpcm_decoder.md R131). -/
theorem adpcm_length (data : Bytes) :
    28 ∣ (adpcm data).samples.length ∧ (adpcm data).samples.length ≤ 28 * (data.length / 16) :=
  decodeBlocks_length _ _ _ (by omega)

/-- The nibble of sample `n` of a list of data bytes, low nibble first (40_adpcm_decoder.md R135). -/
def nibbleAt (bs : Bytes) (n : Nat) : BitVec 4 :=
  if n % 2 = 0 then (bs.getD (n / 2) 0).extractLsb' 0 4 else (bs.getD (n / 2) 0).extractLsb' 4 4

/-- The samples of a list of data bytes, one after another: where `A` follows the accumulators, sample `n` is what
decoding its nibble with `A n` emits. -/
theorem decodeNibbles_sample (sh fi : Nat) (bs : Bytes) (A : Nat → Accumulators)
    (hA : ∀ n < 2 * bs.length, A (n + 1) = (decodeNibble sh fi (nibbleAt bs n) (A n)).1) :
    (decodeNibbles sh fi bs (A 0)).1 = A (2 * bs.length) ∧
    ∀ n < 2 * bs.length, (decodeNibbles sh fi bs (A 0)).2[n]? = some (decodeNibble sh fi (nibbleAt bs n) (A n)).2 := by
  induction bs generalizing A with
  | nil => exact ⟨rfl, fun n hn => absurd hn (by simp)⟩
  | cons b rest ih =>
    have h0 : A 1 = (decodeNibble sh fi (b.extractLsb' 0 4) (A 0)).1 := hA 0 (by simp)
    have h1 : A 2 = (decodeNibble sh fi (b.extractLsb' 4 4) (A 1)).1 := hA 1 (by simp; omega)
    have hn (n : Nat) : nibbleAt (b :: rest) (n + 2) = nibbleAt rest n := by
      unfold nibbleAt; rw [show (n + 2) / 2 = n / 2 + 1 by omega, show (n + 2) % 2 = n % 2 by omega]; simp
    obtain ⟨i1, i2⟩ := ih (fun n => A (n + 2)) (fun n hlt => by
      show A (n + 2 + 1) = _
      rw [← hn]; exact hA (n + 2) (by simp only [List.length_cons]; omega))
    simp only [decodeNibbles, ← h0, ← h1, Nat.zero_add] at *
    refine ⟨by rw [i1]; congr 1, fun n hlt => ?_⟩
    match n with
    | 0 => rfl
    | 1 => rfl
    | n + 2 => simp only [List.getElem?_cons_succ]; rw [i2 n (by simp only [List.length_cons] at hlt; omega), hn]

/-- Sample `n` of a stream, from the accumulators before it: they carry from block to block
(40_adpcm_decoder.md R130, R141). -/
def decodeSample (data : Bytes) (n : Nat) (a : Accumulators) : Accumulators × BitVec 16 :=
  let header := data.getD (16 * (n / 28)) 0
  decodeNibble (header.extractLsb' 0 4).toNat (header.extractLsb' 4 4).toNat
    (nibbleAt (data.drop (16 * (n / 28) + 2)) (n % 28)) a

/-- The samples of a stream, one after another, where `A` follows the accumulators. -/
theorem decodeBlocks_sample (m : Nat) (data : Bytes) (A : Nat → Accumulators) (hl : 16 * m ≤ data.length)
    (hA : ∀ n < 28 * m, A (n + 1) = (decodeSample data n (A n)).1) :
    ∀ n < (decodeBlocks m data (A 0)).samples.length,
      (decodeBlocks m data (A 0)).samples[n]? = some (decodeSample data n (A n)).2 := by
  unfold decodeSample at *
  simp only at *
  induction m generalizing data A with
  | zero => intro n hn; simp [decodeBlocks] at hn
  | succ m ih =>
    have hlen : (memRead data 2 14).length = 14 := by unfold memRead; rw [List.length_take, List.length_drop]; omega
    have hnib : ∀ n < 28, nibbleAt (memRead data 2 14) n = nibbleAt (data.drop 2) n := by
      intro n hn; unfold nibbleAt memRead
      have : ((data.drop 2).take 14).getD (n / 2) 0 = (data.drop 2).getD (n / 2) 0 := by
        simp only [List.getD_eq_getElem?_getD]; rw [List.getElem?_take_of_lt (by omega)]
      rw [this]
    obtain ⟨b1, b2⟩ := decodeNibbles_sample ((data.getD 0 0).extractLsb' 0 4).toNat
      ((data.getD 0 0).extractLsb' 4 4).toNat (memRead data 2 14) A (by
      intro n hn; rw [hlen] at hn
      have := hA n (by omega)
      rw [show n / 28 = 0 by omega, show n % 28 = n by omega] at this
      rw [hnib n (by omega)]; exact this)
    rw [hlen] at b1 b2
    have first : ∀ n < 28, (decodeNibbles ((data.getD 0 0).extractLsb' 0 4).toNat ((data.getD 0 0).extractLsb' 4 4).toNat (memRead data 2 14) (A 0)).2[n]? = some (decodeNibble ((data.getD (16 * (n / 28)) 0).extractLsb' 0 4).toNat
      ((data.getD (16 * (n / 28)) 0).extractLsb' 4 4).toNat (nibbleAt (data.drop (16 * (n / 28) + 2)) (n % 28)) (A n)).2 := by
      intro n hn
      rw [b2 n (by omega), hnib n hn, show n / 28 = 0 by omega, show n % 28 = n by omega]
    intro n
    simp only [decodeBlocks]
    split
    · intro hn; rw [decodeNibbles_length, hlen] at hn; exact first n hn
    · simp only [b1]
      intro hn
      have l28 : (decodeNibbles ((data.getD 0 0).extractLsb' 0 4).toNat ((data.getD 0 0).extractLsb' 4 4).toNat (memRead data 2 14) (A 0)).2.length = 28 := by
        rw [decodeNibbles_length, hlen]
      by_cases h : n < 28
      · rw [List.getElem?_append_left (by omega)]; exact first n h
      · rw [List.getElem?_append_right (by omega), l28]
        rw [List.length_append, l28] at hn
        have gd : ∀ k, (data.drop 16).getD (16 * k) 0 = data.getD (16 * (k + 1)) 0 := by
          intro k; simp only [List.getD_eq_getElem?_getD, List.getElem?_drop]; congr 2; omega
        have gg : ∀ k, (data.drop 16).drop (16 * k + 2) = data.drop (16 * (k + 1) + 2) := by
          intro k; rw [List.drop_drop]; congr 1; omega
        have := ih (data.drop 16) (fun n => A (28 + n)) (by rw [List.length_drop]; omega) (fun n hn => by
          have := hA (28 + n) (by omega)
          rw [show (28 + n) / 28 = n / 28 + 1 by omega, show (28 + n) % 28 = n % 28 by omega] at this
          rw [gd, gg]; exact this) (n - 28) (by show _ < (decodeBlocks m (List.drop 16 data) (A 28)).samples.length; have : 2 * 14 = 28 := rfl; rw [this] at hn; omega)
        rw [gd, gg, show (n - 28) / 28 + 1 = n / 28 by omega, show (n - 28) % 28 = n % 28 by omega] at this
        simp only [show 28 + (n - 28) = n by omega] at this
        exact this

/-- A sample as a number lies in [-1, 1) (45_bank_loader.md R347). -/
theorem normalised_range (x : BitVec 16) : -1 ≤ normalised x ∧ normalised x < 1 := by
  have h1 : (-32768 : Int) ≤ x.toInt := by have := BitVec.le_toInt x; simpa using this
  have h2 : x.toInt < 32768 := by have := BitVec.toInt_lt (x := x); simpa using this
  unfold normalised
  constructor
  · rw [le_div_iff₀ (by norm_num)]; have : ((-32768 : Int) : ℚ) ≤ (x.toInt : ℚ) := by exact_mod_cast h1
    push_cast at this; linarith
  · rw [div_lt_one (by norm_num)]; exact_mod_cast h2

/-- What a decoded VAG holds (45_bank_loader.md R346). -/
theorem decodeVag_some {slice : Bytes} {g : Vag} (h : decodeVag slice = some g) :
    1 ≤ g.data.length ∧ 28 ∣ g.data.length ∧ ∀ x ∈ g.data, -1 ≤ x ∧ x < 1 := by
  unfold decodeVag at h
  simp only at h
  split at h
  · cases h
  · next hne =>
    cases h
    refine ⟨?_, ?_, ?_⟩
    · simp only [List.length_map]; exact List.length_pos_iff.mpr hne
    · simp only [List.length_map]; exact (adpcm_length slice).1
    · intro x hx
      obtain ⟨y, -, rfl⟩ := List.mem_map.mp hx
      exact normalised_range y

/-! ### The converter -/

theorem steppedLoop_le (rt : Vector (BitVec 32) 160) (base : Int) (l : Option Nat) (fuel e n : Nat) :
    (steppedLoop rt base l fuel e n).2 ≤ e := by
  induction fuel generalizing e n with
  | zero => simp [steppedLoop]
  | succ f ih =>
    unfold steppedLoop
    split
    · exact le_trans (ih _ _) (Nat.sub_le _ _)
    · exact le_refl _

/-- `Stepped` counts the turns until its loop stops, which the fuel suffices for where every rate read is positive
(41_envelope_generator.md R157). -/
theorem steppedLoop_stops (rt : Vector (BitVec 32) 160) (base : Int) (l : Option Nat)
    (hr : ∀ e, 0 < rateAt rt (base + stepOffset (e / 2 ^ 28))) (fuel e n : Nat) (he : e ≤ fuel) :
    let turn (c : Nat) : Nat := c - rateAt rt (base + stepOffset (c / 2 ^ 28))
    ∃ N, steppedLoop rt base l fuel e n = (n + N, turn^[N] e) ∧ (∀ m < N, steppedGoesOn l (turn^[m] e) = true) ∧
      steppedGoesOn l (turn^[N] e) = false := by
  intro turn
  induction fuel generalizing e n with
  | zero => 
    obtain rfl : e = 0 := by omega
    exact ⟨0, rfl, by simp, rfl⟩
  | succ f ih =>
    unfold steppedLoop
    split
    · next h =>
      have h0 : 0 < e := by simp only [steppedGoesOn, Bool.and_eq_true, decide_eq_true_eq] at h; exact h.1
      obtain ⟨N, h1, h2, h3⟩ := ih (turn e) (n + 1) (by have := hr e; simp only [turn]; omega)
      refine ⟨N + 1, by rw [h1, show n + 1 + N = n + (N + 1) by omega]; rfl, fun m hm => ?_, h3⟩
      cases m with
      | zero => exact h
      | succ m => exact h2 m (by omega)
    · next h => exact ⟨0, rfl, by simp, by simpa using h⟩

/-- The rates of the built table that the converter reads (41_envelope_generator.md R152, R157). -/
theorem rateAt_table (x : Int) (h : x ≤ 127) :
    rateAt rateTable x = min ((4 + x.toNat % 4) * 2 ^ (x.toNat / 4)) 0x3FFFFFFF := by
  have key : ∀ n : Fin 128, (rateTable.toList.getD (n.val + 32) 0).toNat = min ((4 + n.val % 4) * 2 ^ (n.val / 4)) 0x3FFFFFFF := by decide +kernel
  exact key ⟨x.toNat, by omega⟩

theorem stepOffset_range (n : Nat) : 0 ≤ stepOffset n ∧ stepOffset n ≤ 12 := by
  unfold stepOffset; split <;> simp

theorem rateAt_table_pos (x : Int) (h : x ≤ 127) : 0 < rateAt rateTable x := by
  rw [rateAt_table x h]
  exact lt_min (Nat.mul_pos (by omega) (Nat.two_pow_pos _)) (by norm_num)

theorem seconds_nonneg (n : Nat) : 0 ≤ seconds n := by unfold seconds; positivity

theorem sustainTime_nonneg {rt : Vector (BitVec 32) 160} {f : AdsrFields} {t : NumQ} (h : sustainTime rt f = some t) :
    0 ≤ t := by
  unfold sustainTime at h
  split at h
  · cases h; exact dbCorr_nonneg _
  · cases h

theorem decayAndSustain_range (rt : Vector (BitVec 32) 160) (f : AdsrFields) :
    0 ≤ (decayAndSustain rt f).1 ∧ 0 ≤ (decayAndSustain rt f).2 ∧ (decayAndSustain rt f).2 ≤ 1 := by
  have hd : (decayCount rt f).2 ≤ envMax := steppedLoop_le _ _ _ _ _ _
  have hq : ((decayCount rt f).2 : ℚ) ≤ (envMax : ℚ) := by exact_mod_cast hd
  have hp : (0 : ℚ) < (envMax : ℚ) := by unfold envMax; norm_num
  have h1 : 0 ≤ seconds (decayCount rt f).1 := seconds_nonneg _
  have h2 : (0 : ℚ) ≤ ((decayCount rt f).2 : ℚ) / (envMax : ℚ) := by positivity
  have h3 : ((decayCount rt f).2 : ℚ) / (envMax : ℚ) ≤ 1 := (div_le_one hp).mpr hq
  unfold decayAndSustain
  simp only
  split
  · next t ht =>
    split
    · exact ⟨sustainTime_nonneg ht, le_refl _, by norm_num⟩
    · exact ⟨h1, h2, h3⟩
  · exact ⟨h1, h2, h3⟩

/-- Times are non-negative and the sustain level lies in [0,1], whatever the table (41_envelope_generator.md R165). -/
theorem convertFields_ok (rt : Vector (BitVec 32) 160) (f : AdsrFields) : (convertFields rt f).Ok := by
  obtain ⟨a, b, c⟩ := decayAndSustain_range rt f
  exact ⟨seconds_nonneg _, a, b, c, dbCorr_nonneg _⟩

/-- No field cut from two words can be out of range (41_envelope_generator.md R156). -/
theorem unpackAdsr_inRange (a b : BitVec 16) : (unpackAdsr a b).inRange = true := by
  have h (n : Nat) (x : BitVec n) : x.toNat ≤ 2 ^ n - 1 := by have := x.isLt; omega
  simp only [AdsrFields.inRange, unpackAdsr, Bool.and_eq_true]
  refine ⟨⟨⟨⟨⟨⟨⟨⟨?_, ?_⟩, ?_⟩, ?_⟩, ?_⟩, ?_⟩, ?_⟩, ?_⟩, ?_⟩ <;> exact decide_eq_true (h _ _)

/-- The converter builds the table on first use and answers from it (41_envelope_generator.md R153, R154). -/
theorem makeAdsr_eq (a b : BitVec 16) (s : State) :
    makeAdsr a b s = (s.ensureTable, convertFields s.ensureTable.rt (unpackAdsr a b)) := by
  unfold makeAdsr convAdsr
  simp only
  rw [if_pos (unpackAdsr_inRange a b)]

theorem ensureTable_cases (s : State) :
    (s.rtBuilt = true ∧ s.ensureTable = s) ∨
    (s.rtBuilt = false ∧ s.ensureTable = { s with rt := rateTable, rtBuilt := true }) := by
  unfold State.ensureTable
  cases h : s.rtBuilt with
  | true => exact .inl ⟨rfl, by simp⟩
  | false => exact .inr ⟨rfl, by simp⟩

/-- Where a built table is the table, the converter reads the table. -/
theorem ensureTable_eq {s : State} (h : s.TableOk) : s.ensureTable = { s with rt := rateTable, rtBuilt := true } := by
  rcases ensureTable_cases s with ⟨hb, e⟩ | ⟨-, e⟩
  · rw [e]; have := h hb; cases s; simp_all
  · exact e

/-! ### The loader -/

theorem walkFrom_mem {hdr body : Bytes} {addr n k pos : Nat} {g : Vag}
    (h : some g ∈ walkFrom hdr body addr n k pos) : ∃ slice, decodeVag slice = some g := by
  induction n generalizing k pos with
  | zero => cases h
  | succ n ih =>
    simp only [walkFrom] at h
    split at h
    · rcases List.mem_cons.mp h with h | h
      · cases h
      · exact ih h
    · rcases List.mem_cons.mp h with h | h
      · exact ⟨_, h.symm⟩
      · exact ih h

/-- What decoding a VAG answers (45_bank_loader.md R346). -/
theorem decodeVag_eq (slice : Bytes) : decodeVag slice = if (adpcm slice).samples ≠ [] then
    some { data := (adpcm slice).samples.map normalised, loop := loopFlag (adpcm slice).endFlags } else none := by
  unfold decodeVag; simp only
  split
  · next h => rw [if_neg (by simpa using h)]
  · next h => simp

/-- The walk in terms of the positions it passes: an entry is decoded where it stands, or skipped
(45_bank_loader.md R345). -/
theorem walkFrom_getElem (hdr body : Bytes) (addr : Nat) (pos : Nat → Nat) (n k : Nat)
    (hp : ∀ j, k ≤ j → pos (j + 1) = if vagSize hdr addr j = 0 ∨ body.length < pos j + vagSize hdr addr j then pos j else pos j + vagSize hdr addr j)
    (j : Nat) (hj : j < n) :
    (walkFrom hdr body addr n k (pos k))[j]? = some (if vagSize hdr addr (k + j) ≠ 0 ∧ pos (k + j) + vagSize hdr addr (k + j) ≤ body.length then
      decodeVag (memRead body (pos (k + j)) (vagSize hdr addr (k + j))) else none) := by
  induction n generalizing k j with
  | zero => omega
  | succ n ih =>
    have e : walkFrom hdr body addr (n + 1) k (pos k) =
       (if vagSize hdr addr k ≠ 0 ∧ pos k + vagSize hdr addr k ≤ body.length then
      decodeVag (memRead body (pos k) (vagSize hdr addr k)) else none) :: walkFrom hdr body addr n (k + 1) (pos (k + 1)) := by
      simp only [walkFrom]
      rw [hp k (le_refl _)]
      by_cases h : vagSize hdr addr k = 0 ∨ body.length < pos k + vagSize hdr addr k
      · rw [if_pos h, if_pos h, if_neg (by omega)]
      · rw [if_neg h, if_neg h, if_pos (by omega)]
    rw [e]
    cases j with
    | zero => rfl
    | succ j =>
      rw [List.getElem?_cons_succ, ih (k + 1) (fun i hi => hp i (by omega)) j (by omega), show k + 1 + j = k + (j + 1) by omega]

theorem walkFrom_length (hdr body : Bytes) (addr n k pos : Nat) : (walkFrom hdr body addr n k pos).length = n := by
  induction n generalizing k pos with
  | zero => rfl
  | succ n ih => simp only [walkFrom]; split <;> simp [ih]

/-- What a VAG index names, in terms of the positions of the walk (45_bank_loader.md R344, R345, R354). -/
theorem namedVag_eq (hdr body : Bytes) (addr : Nat) (pos : Nat → Nat) (n v : Nat) (h1 : pos 1 = 0)
    (hp : ∀ j, 1 ≤ j → pos (j + 1) = if vagSize hdr addr j = 0 ∨ body.length < pos j + vagSize hdr addr j then pos j else pos j + vagSize hdr addr j) :
    namedVag (walkBody hdr body addr n) v = if 1 ≤ v ∧ v ≤ n ∧ vagSize hdr addr v ≠ 0 ∧ pos v + vagSize hdr addr v ≤ body.length then
      decodeVag (memRead body (pos v) (vagSize hdr addr v)) else none := by
  unfold namedVag walkBody
  cases v with
  | zero => simp
  | succ v =>
    rw [List.getElem?_cons_succ]
    by_cases h : v < n
    · have := walkFrom_getElem hdr body addr pos n 1 hp v h
      rw [h1] at this
      rw [this, Nat.add_comm 1 v]; simp only [Option.join_some]
      by_cases hc : vagSize hdr addr (v + 1) ≠ 0 ∧ pos (v + 1) + vagSize hdr addr (v + 1) ≤ body.length
      · rw [if_pos hc, if_pos ⟨by omega, by omega, hc⟩]
      · rw [if_neg hc, if_neg (fun h => hc h.2.2)]
    · rw [List.getElem?_eq_none (by rw [walkFrom_length]; omega), if_neg (by omega)]; rfl

/-- What a record's VAG index can name (45_bank_loader.md R354). -/
theorem namedVag_walk {hdr body : Bytes} {addr n v : Nat} {g : Vag} (h : namedVag (walkBody hdr body addr n) v = some g) :
    1 ≤ g.data.length ∧ 28 ∣ g.data.length ∧ ∀ x ∈ g.data, -1 ≤ x ∧ x < 1 := by
  unfold namedVag at h
  cases hv : (walkBody hdr body addr n)[v]? with
  | none => rw [hv] at h; cases h
  | some o =>
    rw [hv] at h
    have ho : o = some g := h
    subst ho
    have hm := List.mem_of_getElem? hv
    unfold walkBody at hm
    rcases List.mem_cons.mp hm with e | e
    · cases e
    · obtain ⟨slice, hs⟩ := walkFrom_mem e
      exact decodeVag_some hs

/-- A note range in order (45_bank_loader.md R350). -/
theorem noteRange_le (mn mx : Nat) (h1 : mn ≤ 255) (h2 : mx ≤ 255) :
    (noteRange mn mx).1 ≤ (noteRange mn mx).2 ∧ (noteRange mn mx).2 ≤ 255 := by
  unfold noteRange
  simp only
  generalize hm : (if mx = 0 then 127 else mx) = m
  have hm' : m ≤ 255 := by rw [← hm]; split <;> omega
  split
  · simp only; omega
  · simp only; omega

theorem toneVolume_range (a b : Nat) : 1 ≤ toneVolume a b ∧ toneVolume a b ≤ 127 := by
  unfold toneVolume
  simp only
  split <;> omega

theorem u8_le (buf : Bytes) (a : Nat) : u8 buf a ≤ 255 := by
  unfold u8; have := (buf.getD a 0).isLt; omega

/-- The tone of a record keeps to the rules of tones (10_state.md R30). -/
theorem toneOf_ok {hdr : Bytes} {base vol : Nat} {g : Vag} {e : Adsr} (he : e.Ok)
    (hg : 1 ≤ g.data.length ∧ 28 ∣ g.data.length ∧ ∀ x ∈ g.data, -1 ≤ x ∧ x < 1) : (toneOf hdr base vol g e).Ok := by
  obtain ⟨h1, h2⟩ := noteRange_le (u8 hdr (base + 6)) (u8 hdr (base + 7)) (u8_le _ _) (u8_le _ _)
  obtain ⟨v1, v2⟩ := toneVolume_range vol (u8 hdr (base + 2))
  have hc : 1 ≤ centerNoteOf (u8 hdr (base + 4)) ∧ centerNoteOf (u8 hdr (base + 4)) ≤ 255 := by
    have := u8_le hdr (base + 4)
    unfold centerNoteOf; split <;> omega
  have hn (n : Nat) (h : n ≤ 255) : (BitVec.ofNat 8 n).toNat = n := by rw [BitVec.toNat_ofNat]; omega
  exact
    { len_pos := hg.1
      len_blocks := hg.2.1
      sample_range := hg.2.2
      range := by simp only [toneOf]; rw [hn _ (by omega), hn _ (by omega)]; exact h1
      centre := by simp only [toneOf]; rw [hn _ hc.2]; exact hc.1
      attack_nonneg := he.attack_nonneg
      decay_nonneg := he.decay_nonneg
      sustain_nonneg := he.sustain_nonneg
      sustain_le_one := he.sustain_le_one
      release_nonneg := he.release_nonneg
      volume_range := by simp only [toneOf]; rw [hn _ (by omega)]; exact ⟨v1, v2⟩
      sampled := rfl }

/-- Everything that loading one tone record can do. -/
theorem loadTone_cases (hdr : Bytes) (pcm : List (Option Vag)) (p : Fin 128) (vol : Nat) (s : State) (t : Nat) :
    loadTone hdr pcm p vol s t = s ∨
    ∃ g, toneRecord p t + 32 ≤ hdr.length ∧ namedVag pcm (u16le hdr (toneRecord p t + 22)) = some g ∧
      loadTone hdr pcm p vol s t =
        s.ensureTable.appendTone p (toneOf hdr (toneRecord p t) vol g
          (convertFields s.ensureTable.rt
            (unpackAdsr (BitVec.ofNat 16 (u16le hdr (toneRecord p t + 16)))
              (BitVec.ofNat 16 (u16le hdr (toneRecord p t + 18)))))) := by
  unfold loadTone
  simp only
  split
  · exact .inl rfl
  · next h =>
    split
    · next g hg => exact .inr ⟨g, by omega, hg, by rw [makeAdsr_eq]⟩
    · exact .inl rfl

/-- The tone that a record gives, if it gives one (45_bank_loader.md R349, R354). -/
def recordTone (hdr : Bytes) (pcm : List (Option Vag)) (p vol t : Nat) : Option Tone :=
  let base := toneRecord p t
  if base + 32 ≤ hdr.length then
    (namedVag pcm (u16le hdr (base + 22))).map fun g =>
      toneOf hdr base vol g (convertFields rateTable
        (unpackAdsr (BitVec.ofNat 16 (u16le hdr (base + 16))) (BitVec.ofNat 16 (u16le hdr (base + 18)))))
  else none

/-- Loading a record appends its tone and builds the table, or does nothing. -/
theorem loadTone_eq (hdr : Bytes) (pcm : List (Option Vag)) (p : Fin 128) (vol : Nat) {s : State} (hs : s.TableOk) (t : Nat) :
    loadTone hdr pcm p vol s t = match recordTone hdr pcm p vol t with
      | some x => ({ s with rt := rateTable, rtBuilt := true } : State).appendTone p x
      | none => s := by
  unfold loadTone recordTone
  simp only
  by_cases h : toneRecord p t + 32 ≤ hdr.length
  · rw [if_neg (by omega), if_pos h]
    cases namedVag pcm (u16le hdr (toneRecord p t + 22)) with
    | none => rfl
    | some g => simp only [Option.map_some, makeAdsr_eq, ensureTable_eq hs]
  · rw [if_pos (by omega), if_neg h]

/-- Loading records of one program appends their tones in order, leaves the other programs alone, and builds the rate
table exactly when there is a tone (41_envelope_generator.md R153). -/
theorem loadTones_eq (hdr : Bytes) (pcm : List (Option Vag)) (p : Fin 128) (vol : Nat) (l : List Nat) {s : State} (hs : s.TableOk) :
    let t := l.foldl (loadTone hdr pcm p vol) s
    let xs := l.filterMap (recordTone hdr pcm p vol)
    t.TableOk ∧ (t.program p).tones = (s.program p).tones ++ xs ∧ (∀ q : Nat, q ≠ p.val → t.program q = s.program q) ∧
      (xs ≠ [] → t.rt = rateTable ∧ t.rtBuilt = true) ∧ (xs = [] → t.rt = s.rt ∧ t.rtBuilt = s.rtBuilt) ∧
      (s.rt = rateTable → s.rtBuilt = true → t.rt = rateTable ∧ t.rtBuilt = true) := by
  induction l generalizing s with
  | nil => exact ⟨hs, by simp, fun _ _ => rfl, fun h => absurd rfl h, fun _ => ⟨rfl, rfl⟩, fun a b => ⟨a, b⟩⟩
  | cons r l ih =>
    simp only [List.foldl_cons]
    rw [loadTone_eq hdr pcm p vol hs]
    cases hr : recordTone hdr pcm p vol r with
    | none =>
      rw [List.filterMap_cons_none hr]
      exact ih hs
    | some x =>
      rw [List.filterMap_cons_some hr]
      have ht : (({ s with rt := rateTable, rtBuilt := true } : State).appendTone p x).TableOk := fun _ => rfl
      obtain ⟨a, b, c, d, e, f⟩ := ih ht
      have hp : ((({ s with rt := rateTable, rtBuilt := true } : State).appendTone p x).program p).tones = (s.program p).tones ++ [x] := by
        unfold State.appendTone; rw [program_setProgram_self]; rfl
      have hq : ∀ q : Nat, q ≠ p.val → (({ s with rt := rateTable, rtBuilt := true } : State).appendTone p x).program q = s.program q := by
        intro q hq; unfold State.appendTone; rw [program_setProgram, if_neg (Ne.symm hq)]; rfl
      refine ⟨a, by rw [b, hp, List.append_assoc]; rfl, fun q h => by rw [c q h, hq q h], fun _ => f rfl rfl, fun h => by simp at h, fun _ _ => f rfl rfl⟩

/-- A property that every loaded tone keeps holds after the tables of a bank have been loaded. -/
theorem loadBank_keeps {P : State → Prop} (hdr body : Bytes) (s : State)
    (hp : ∀ (t : State) (p : Fin 128) (vol r : Nat), P t →
      P (loadTone hdr (walkBody hdr body (tableAddress (u16le hdr 18)) (u16le hdr 22)) p vol t r))
    (h : P (s.setBankMaster (BitVec.ofNat 8 (u8 hdr 24)))) : P (s.loadBank hdr body) := by
  unfold State.loadBank
  simp only
  generalize walkBody hdr body _ _ = pcm at hp ⊢
  generalize s.setBankMaster _ = t at h ⊢
  have hin : ∀ (l : List Nat) (t : State) (p : Fin 128) (vol : Nat), P t → P (l.foldl (loadTone hdr pcm p vol) t) := by
    intro l
    induction l with
    | nil => intro t p vol ht; exact ht
    | cons r l ih => intro t p vol ht; exact ih _ p vol (hp t p vol r ht)
  have hout : ∀ (l : List (Fin 128)) (t : State), P t → P (l.foldl (loadProgram hdr pcm) t) := by
    intro l
    induction l with
    | nil => intro t ht; exact ht
    | cons p l ih => intro t ht; exact ih _ (hin _ t p _ ht)
  exact hout _ t h

/-- What loading the tables writes: the tone memory, `BANK_MASTER`, the rate table (45_bank_loader.md R340). -/
theorem loadBank_frame (hdr body : Bytes) (s : State) :
    s.loadBank hdr body =
      { s with prog := (s.loadBank hdr body).prog, bankMaster := (s.loadBank hdr body).bankMaster
               rt := (s.loadBank hdr body).rt, rtBuilt := (s.loadBank hdr body).rtBuilt } := by
  refine loadBank_keeps
    (P := fun t => t = { s with prog := t.prog, bankMaster := t.bankMaster, rt := t.rt, rtBuilt := t.rtBuilt })
    hdr body s (fun t p vol r ht => ?_) rfl
  rcases loadTone_cases hdr _ p vol t r with e | ⟨g, -, -, e⟩
  · rw [e]; exact ht
  · rw [e]
    rcases ensureTable_cases t with ⟨-, e2⟩ | ⟨-, e2⟩
    · rw [e2, ht]; rfl
    · rw [e2, ht]; rfl

end Sys2Proof.Machine
end

