-- ==== Sys2Proof/Laws/Decode.lean ====
section
/-! SUPPORT. What the decoders can answer: how many bytes a fetch passes, what its running status is, which instructions it yields, and how status and data bytes come apart. -/

namespace Sys2Proof

/-! ### Bytes -/

@[simp] theorem low7_dataByte (d : BitVec 7) : low7 (dataByte d) = d := by revert d; decide

theorem dataByte_lt (d : BitVec 7) : dataByte d < 0x80 := by revert d; decide

theorem dataByte_low7 (b : Byte) (h : b < 0x80) : dataByte (low7 b) = b := by revert b; decide

@[simp] theorem channelOf_statusByte (k c : BitVec 4) : channelOf (statusByte k c) = c := by revert k c; decide

@[simp] theorem statusByte_kind (k c : BitVec 4) : (statusByte k c >>> 4).toNat = k.toNat := by revert k c; decide

theorem statusByte_ge (k c : BitVec 4) (h : 8 ≤ k.toNat) : 0x80 ≤ statusByte k c := by revert k c; decide

theorem statusByte_ff (c : BitVec 4) : statusByte 0xF c = 0xFF ↔ c = 15 := by revert c; decide

/-! ### Event fetches -/

/-- What holds of every fetch of an event from `used` bytes on: it passes no more bytes than there are, it
leaves the running status it was given, and what it answers is an event. -/
structure EventFetch.From (f : EventFetch) (running : Byte) (used len : Nat) : Prop where
  used_ge : used ≤ f.used
  used_le : f.used ≤ used + len
  running_eq : f.running = running
  event : ∀ i, f.result = .ok i → i.isEvent = true

theorem decodeData1_from (running : Byte) (used : Nat) (bytes : Bytes) (make : BitVec 7 → Instr)
    (h : ∀ d, (make d).isEvent = true) : (decodeData1 running used bytes make).From running used bytes.length := by
  cases bytes with
  | nil => exact ⟨le_refl _, by simp [decodeData1], rfl, by simp [decodeData1]⟩
  | cons d rest =>
    unfold decodeData1
    simp only
    split
    · exact ⟨by simp, by simp, rfl, fun i e => by cases e; exact h _⟩
    · exact ⟨by simp, by simp, rfl, by simp⟩

theorem decodeData2_from (running : Byte) (used : Nat) (bytes : Bytes) (make : BitVec 7 → BitVec 7 → Instr)
    (h : ∀ d e, (make d e).isEvent = true) : (decodeData2 running used bytes make).From running used bytes.length := by
  cases bytes with
  | nil => exact ⟨le_refl _, by simp [decodeData2], rfl, by simp [decodeData2]⟩
  | cons d rest =>
    unfold decodeData2
    simp only
    split
    · have := decodeData1_from running (used + 1) rest (make (low7 d)) (h _)
      exact ⟨by have := this.used_ge; omega, by have := this.used_le; simp; omega, this.running_eq, this.event⟩
    · exact ⟨by simp, by simp, rfl, by simp⟩

theorem decodeMeta_from (running : Byte) (used : Nat) (bytes : Bytes) :
    (decodeMeta running used bytes).From running used bytes.length := by
  unfold decodeMeta
  split
  · exact ⟨le_refl _, by simp, rfl, by simp⟩
  · next ty rest =>
    split
    · exact ⟨by simp, by simp, rfl, fun i e => by cases e; rfl⟩
    · split
      · split
        · exact ⟨by simp, by simp, rfl, fun i e => by cases e; rfl⟩
        · exact ⟨by simp only; omega, by simp only [List.length_cons]; omega, rfl, by simp⟩
      · split
        · exact ⟨by simp, by simp, rfl, by simp⟩
        · next n body _ =>
          split
          · next hn => exact ⟨by simp only; omega, by simp only [List.length_cons]; omega, rfl, fun i e => by cases e; rfl⟩
          · exact ⟨by simp only; omega, by simp only [List.length_cons]; omega, rfl, by simp⟩

theorem controlChange_isEvent (c : BitVec 4) (d e : BitVec 7) : (controlChange c d e).isEvent = true := by
  unfold controlChange
  repeat' split
  all_goals rfl

theorem decodeBody_from (status : Byte) (used : Nat) (bytes : Bytes) :
    (decodeBody status used bytes).From status used bytes.length := by
  unfold decodeBody
  simp only
  split
  · exact decodeData2_from _ _ _ _ (fun _ _ => rfl)
  · exact decodeData2_from _ _ _ _ (fun _ _ => rfl)
  · exact ⟨le_refl _, by simp, rfl, fun i e => by cases e; rfl⟩
  · exact decodeData2_from _ _ _ _ (controlChange_isEvent _)
  · exact decodeData1_from _ _ _ _ (fun _ => rfl)
  · exact ⟨le_refl _, by simp, rfl, fun i e => by cases e; rfl⟩
  · exact decodeData2_from _ _ _ _ (fun _ _ => rfl)
  · split
    · exact decodeMeta_from _ _ _
    · exact ⟨le_refl _, by simp, rfl, fun i e => by cases e; rfl⟩
  · exact ⟨le_refl _, by simp, rfl, by simp⟩

/-- The three ways a fetch of an event goes: past the end, without a status, or by its effective status. -/
theorem decodeEvent_cases (running : Byte) (bytes : Bytes) :
    (bytes = [] ∧ decodeEvent running bytes = { used := 0, running := running, result := .error (.overrun 0) }) ∨
    (∃ b rest, bytes = b :: rest ∧ 0x80 ≤ b ∧ decodeEvent running bytes = decodeBody b 1 rest) ∨
    (∃ b rest, bytes = b :: rest ∧ b < 0x80 ∧ running = 0 ∧
      decodeEvent running bytes = { used := 0, running := running, result := .error (.badEvent 0) }) ∨
    (∃ b rest, bytes = b :: rest ∧ b < 0x80 ∧ running ≠ 0 ∧ decodeEvent running bytes = decodeBody running 0 bytes) := by
  cases bytes with
  | nil => exact .inl ⟨rfl, rfl⟩
  | cons b rest =>
    right
    by_cases h : 0x80 ≤ b
    · exact .inl ⟨b, rest, rfl, h, by unfold decodeEvent; simp only; rw [if_pos h]⟩
    · have hb : b < 0x80 := BitVec.not_le.mp h
      by_cases hr : running = 0
      · exact .inr (.inl ⟨b, rest, rfl, hb, hr, by unfold decodeEvent; simp only; rw [if_neg h, if_pos hr]⟩)
      · exact .inr (.inr ⟨b, rest, rfl, hb, hr, by unfold decodeEvent; simp only; rw [if_neg h, if_neg hr]⟩)

/-- A fetch passes no more bytes than there are. -/
theorem decodeEvent_used (running : Byte) (bytes : Bytes) : (decodeEvent running bytes).used ≤ bytes.length := by
  rcases decodeEvent_cases running bytes with ⟨_, e⟩ | ⟨b, rest, hb, -, e⟩ | ⟨b, rest, hb, -, -, e⟩ | ⟨b, rest, hb, -, -, e⟩
  · rw [e]; simp
  · rw [e, hb]; have := (decodeBody_from b 1 rest).used_le; simp; omega
  · rw [e]; simp
  · rw [e]; have := (decodeBody_from running 0 bytes).used_le; simpa using this

/-- The running status after a fetch is the old one or a status byte. -/
theorem decodeEvent_running (running : Byte) (bytes : Bytes) :
    (decodeEvent running bytes).running = running ∨ 0x80 ≤ (decodeEvent running bytes).running := by
  rcases decodeEvent_cases running bytes with ⟨_, e⟩ | ⟨b, rest, -, h, e⟩ | ⟨b, rest, -, -, -, e⟩ | ⟨b, rest, -, -, -, e⟩
  · rw [e]; simp
  · rw [e, (decodeBody_from b 1 rest).running_eq]; exact .inr h
  · rw [e]; simp
  · rw [e, (decodeBody_from running 0 bytes).running_eq]; exact .inl rfl

/-- What a fetch answers is an event, never a host command (60_exceptions.md R390). -/
theorem decodeEvent_isEvent (running : Byte) (bytes : Bytes) (i : Instr)
    (h : (decodeEvent running bytes).result = .ok i) : i.isEvent = true := by
  rcases decodeEvent_cases running bytes with ⟨_, e⟩ | ⟨b, rest, -, -, e⟩ | ⟨b, rest, -, -, -, e⟩ | ⟨b, rest, -, -, -, e⟩
  · rw [e] at h; cases h
  · rw [e] at h; exact (decodeBody_from b 1 rest).event i h
  · rw [e] at h; cases h
  · rw [e] at h; exact (decodeBody_from running 0 bytes).event i h

/-! ### Variable-length quantities -/

theorem decodeVlqFrom_used (fuel used v : Nat) (bytes : Bytes) :
    (decodeVlqFrom fuel used v bytes).used ≤ used + bytes.length := by
  induction fuel generalizing used v bytes with
  | zero => simp [decodeVlqFrom]
  | succ n ih =>
    cases bytes with
    | nil => simp [decodeVlqFrom]
    | cons b rest =>
      unfold decodeVlqFrom
      split
      · simp
      · have := ih (used + 1) (v * 128 + (low7 b).toNat) rest
        simp; omega

/-- Reading a quantity passes no more bytes than there are. -/
theorem decodeVlq_used (bytes : Bytes) : (decodeVlq bytes).used ≤ bytes.length := by
  have := decodeVlqFrom_used Config.vlqMaxBytes 0 0 bytes
  rwa [Nat.zero_add] at this

theorem decodeVlqFrom_lt (fuel used v w : Nat) (bytes : Bytes) (h : (decodeVlqFrom fuel used v bytes).result = .ok w) :
    w < (v + 1) * 128 ^ fuel := by
  induction fuel generalizing used v bytes with
  | zero => simp [decodeVlqFrom] at h
  | succ n ih =>
    cases bytes with
    | nil => simp [decodeVlqFrom] at h
    | cons b rest =>
      unfold decodeVlqFrom at h
      have hb : (low7 b).toNat < 128 := (low7 b).isLt
      have hp : 1 ≤ 128 ^ n := Nat.one_le_two_pow.trans (Nat.pow_le_pow_left (by omega) n)
      split at h
      · cases h
        have : (v * 128 + (low7 b).toNat + 1) * 1 ≤ (v + 1) * 128 * 128 ^ n := Nat.mul_le_mul (by omega) hp
        rw [pow_succ]; nlinarith
      · have := ih _ _ rest h
        have h2 : (v * 128 + (low7 b).toNat + 1) * 128 ^ n ≤ ((v + 1) * 128) * 128 ^ n := Nat.mul_le_mul_right _ (by omega)
        rw [pow_succ]; nlinarith

/-- A quantity read is at most `0x0FFFFFFF` (44_sequencer.md R288). -/
theorem decodeVlq_lt (bytes : Bytes) (w : Nat) (h : (decodeVlq bytes).result = .ok w) : w < 2 ^ 28 := by
  have := decodeVlqFrom_lt _ _ _ _ _ h
  simpa [Config.vlqMaxBytes] using this

end Sys2Proof
end

