-- ==== Sys2Proof/Laws/Mixer.lean ====
section
/-! SUPPORT. What frames of the mixer do (43_pool_mixer.md R250 to R260): which state they write, how many values they emit, what keeps. -/

namespace Sys2Proof.Machine

open Sys2Proof

/-! ### One voice, every voice -/

/-- A voice's part of a frame writes that voice only. -/
theorem mixVoice_state (x : MixState) (i : Fin 127) :
    (mixVoice x i).state = x.state.setVoice i ((mixVoice x i).state.voice i) := by
  unfold mixVoice
  simp only
  split
  · simp
  · simp

/-- A property that every voice's part keeps holds after every voice's part. -/
theorem mixVoices_keeps {P : State → Prop} (s : State) (hp : ∀ x i, P x.state → P (mixVoice x i).state) (h : P s) :
    P (mixVoices s).state := by
  unfold mixVoices
  have : ∀ (l : List (Fin 127)) (x : MixState), P x.state → P (l.foldl mixVoice x).state := by
    intro l
    induction l with
    | nil => intro x hx; exact hx
    | cons i l ih => intro x hx; exact ih _ (hp x i hx)
  exact this _ _ h

/-- The voices' parts of a frame write voices only. -/
theorem mixVoices_frame (s : State) : (mixVoices s).state = { s with voices := (mixVoices s).state.voices } := by
  refine mixVoices_keeps (P := fun t => t = { s with voices := t.voices }) s (fun x i h => ?_) rfl
  rw [mixVoice_state, h]; rfl

/-! ### Frames -/

theorem frame_state (s : State) : (frame s).state = (mixVoices s).state.reverbWrite (mixVoices s).sum := rfl

/-- What a frame writes: voices, the delay line, `wp`. -/
theorem frame_frame (s : State) :
    (frame s).state =
      { s with voices := (frame s).state.voices, delayLine := (frame s).state.delayLine, wp := (frame s).state.wp } := by
  have h := mixVoices_frame s
  rw [frame_state]
  generalize (mixVoices s).sum = m
  generalize (mixVoices s).state = x at h ⊢
  rw [h]
  rfl

theorem frame_voice (s : State) (i : Fin 127) : (frame s).state.voice i = (mixVoices s).state.voice i :=
  voice_congr (by rw [frame_state, reverbWrite_voices]) i

theorem frame_wp (s : State) : (frame s).state.wp = nextEntry s.wp := by
  rw [frame_state, reverbWrite_wp, mixVoices_frame]

theorem frame_delayLine (s : State) :
    (frame s).state.delayLine = s.delayLine.write s.wp
      (((mixVoices s).sum.left + (mixVoices s).sum.right) / 2 + Config.reverbDecay * s.delayLine.read s.wp) := by
  rw [frame_state, reverbWrite_delayLine, openTimes_eq, mixVoices_frame]

/-- The two values of a frame (43_pool_mixer.md R254 to R256). -/
theorem frame_out (s : State) :
    (frame s).out =
      [quantise (tanhNum ((mixVoices s).sum.left + Config.reverbWet * s.delayLine.read s.wp)),
        quantise (tanhNum ((mixVoices s).sum.right + Config.reverbWet * s.delayLine.read s.wp))] := by
  simp only [frame, State.reverbOut, openTimes_eq, outputOf_eq]
  rw [mixVoices_frame]

@[simp] theorem frames_zero (s : State) : frames 0 s = { state := s, out := [] } := rfl

theorem frames_succ_state (n : Nat) (s : State) : (frames (n + 1) s).state = (frames n (frame s).state).state := rfl

theorem frames_succ_out (n : Nat) (s : State) :
    (frames (n + 1) s).out = (frame s).out ++ (frames n (frame s).state).out := rfl

/-- A property that every frame keeps holds after any number of them. -/
theorem frames_keeps {P : State → Prop} (n : Nat) (s : State) (hp : ∀ t, P t → P (frame t).state) (h : P s) :
    P (frames n s).state := by
  induction n generalizing s with
  | zero => exact h
  | succ n ih => exact ih _ (hp s h)

/-- What frames write: voices, the delay line, `wp`. -/
theorem frames_frame (n : Nat) (s : State) :
    (frames n s).state =
      { s with voices := (frames n s).state.voices, delayLine := (frames n s).state.delayLine
               wp := (frames n s).state.wp } := by
  refine frames_keeps (P := fun t => t = { s with voices := t.voices, delayLine := t.delayLine, wp := t.wp }) n s
    (fun t h => ?_) rfl
  rw [frame_frame, h]

/-- Two values a frame (20_memory.md R68). -/
theorem frames_length (n : Nat) (s : State) : (frames n s).out.length = 2 * n := by
  induction n generalizing s with
  | zero => rfl
  | succ n ih => rw [frames_succ_out, List.length_append, ih]; simp [frame]; omega

theorem frames_wp (n : Nat) (s : State) : ((frames n s).state.wp : Nat) = (s.wp + n) % Config.reverbLen := by
  induction n generalizing s with
  | zero =>
    show (s.wp : Nat) = (s.wp + 0) % Config.reverbLen
    rw [Nat.add_zero, Nat.mod_eq_of_lt s.wp.isLt]
  | succ n ih =>
    rw [frames_succ_state, ih, frame_wp]
    simp only [nextEntry]
    rw [Nat.mod_add_mod, show (s.wp : Nat) + 1 + n = s.wp + (n + 1) by omega]

/-- Frames keep the delay line in canonical form. -/
theorem frame_line {s : State} (h : s.LineOk) : (frame s).state.LineOk := by
  unfold State.LineOk at *
  rw [frame_delayLine]
  exact Memory.write_wf _ h _ s.wp.isLt

/-! ### Live tones (10_state.md R23) -/

theorem tonesLive_iff (s : State) :
    s.tonesLive = true ↔ ∀ i : Fin 127, (s.voice i).active = true →
      ∃ r, (s.voice i).tone = some r ∧ s.playable r = true := by
  unfold State.tonesLive
  rw [List.all_eq_true]
  constructor
  · intro h i hi
    have := h i (List.mem_finRange i)
    rw [hi] at this
    cases ht : (s.voice i).tone with
    | none => rw [ht] at this; simp at this
    | some r => rw [ht] at this; exact ⟨r, rfl, by simpa using this⟩
  · intro h i _
    cases ha : (s.voice i).active with
    | false => simp
    | true => obtain ⟨r, h1, h2⟩ := h i ha; rw [h1]; simpa using h2

/-- What `GENERATE_AUDIO` can do. -/
theorem generateAudio_cases (n : Int) (s : State) :
    (exec (.generateAudio n) s = .next ((frames (frameCap n) s).state.withResult (.pcm (frames (frameCap n) s).out))) ∨
    (frameCap n ≠ 0 ∧ s.tonesLive = false ∧ exec (.generateAudio n) s = .fault .danglingTone) := by
  simp only [exec, execGenerateAudio]
  split
  · exact .inl rfl
  · next h =>
    push Not at h
    exact .inr ⟨h.1, by simpa using h.2, rfl⟩

end Sys2Proof.Machine
end

