-- ==== Sys2Proof/Laws/Sequencer.lean ====
section
/-! SUPPORT. What the events and the turns of the sequencer do (44_sequencer.md R285 to R312): every event answers a next state, what it leaves alone, and how the catch-up loop is taken apart. -/

namespace Sys2Proof.Machine

open Sys2Proof

/-! ### What the sequencer leaves alone -/

/-- `t` differs from `s` at most in the voices, the FM flags, the steal cursor, the slots and the diagnostic port. -/
def SeqFrame (s t : State) : Prop :=
  t = { s with voices := t.voices, fm := t.fm, stealCursor := t.stealCursor, slots := t.slots, diag := t.diag }

theorem SeqFrame.refl (s : State) : SeqFrame s s := rfl

theorem SeqFrame.trans {s t u : State} (h1 : SeqFrame s t) (h2 : SeqFrame t u) : SeqFrame s u := by
  unfold SeqFrame at *; rw [h2, h1]

theorem SeqFrame.fields {s t : State} (h : SeqFrame s t) :
    t.prog = s.prog ∧ t.bankMaster = s.bankMaster ∧ t.rt = s.rt ∧ t.rtBuilt = s.rtBuilt ∧ t.delayLine = s.delayLine ∧
      t.wp = s.wp ∧ t.port = s.port ∧ t.result = s.result ∧ t.curSlot = s.curSlot := by
  unfold SeqFrame at h; rw [h]; simp

theorem setSlot_seqFrame (s : State) (k : Fin 16) (x : Slot) : SeqFrame s (s.setSlot k x) := rfl

theorem raiseSlot_seqFrame (s : State) (k : Fin 16) (d : Diag) : SeqFrame s (s.raiseSlot k d) := rfl

theorem readDelay_seqFrame (s : State) (k : Fin 16) : SeqFrame s (s.readDelay k) := by
  have := readDelay_frame s k
  unfold SeqFrame; rw [this]

theorem playTone_seqFrame (s : State) (r : ToneRef) (pitch volume : NumQ) (fm : Bool) (pan : NumQ) (note prog : Nat) :
    SeqFrame s (s.playTone r pitch volume fm pan note prog).state := by
  have := playTone_frame s r pitch volume fm pan note prog
  unfold SeqFrame; rw [this]

/-! ### Notes -/

/-- Everything that one tone of a NoteOn can do. -/
theorem triggerTone_cases (p : Nat) (volume pan : NumQ) (key : BitVec 7) (s : State) (index : Nat) :
    s.triggerTone p volume pan key index = s ∨
    ∃ t, s.toneAt { program := p, index := index } = some t ∧ t.covers key = true ∧
      s.triggerTone p volume pan key index =
        (s.playTone { program := p, index := index } (notePitch t key) volume Config.seqFm pan key.toNat p).state := by
  unfold State.triggerTone
  split
  · next t h =>
    split
    · next hc => exact .inr ⟨t, h, hc, rfl⟩
    · exact .inl rfl
  · exact .inl rfl

theorem triggerTone_seqFrame (p : Nat) (volume pan : NumQ) (key : BitVec 7) (s : State) (index : Nat) :
    SeqFrame s (s.triggerTone p volume pan key index) := by
  rcases triggerTone_cases p volume pan key s index with h | ⟨t, -, -, h⟩
  · rw [h]; exact SeqFrame.refl s
  · rw [h]; exact playTone_seqFrame ..

theorem triggerTone_slots (p : Nat) (volume pan : NumQ) (key : BitVec 7) (s : State) (index : Nat) :
    (s.triggerTone p volume pan key index).slots = s.slots := by
  rcases triggerTone_cases p volume pan key s index with h | ⟨t, -, -, h⟩
  · rw [h]
  · rw [h, playTone_frame]

/-- A property that every `PLAY_NOTE` of a NoteOn keeps holds after the NoteOn. -/
theorem triggerNote_keeps {P : State → Prop} (c : BitVec 4) (key vel : BitVec 7) (s : State)
    (hp : ∀ (t : State) (r : ToneRef) (pitch volume pan : NumQ) (note prog : Nat), P t →
      P (t.playTone r pitch volume Config.seqFm pan note prog).state) (h : P s) : P (s.triggerNote c key vel) := by
  unfold State.triggerNote
  simp only
  generalize List.range _ = l
  generalize s.noteVolume c vel = volume
  generalize unit127 _ = pan
  generalize s.curProgram c = p
  clear c vel
  induction l generalizing s with
  | nil => exact h
  | cons a l ih =>
    rw [List.foldl_cons]
    apply ih
    rcases triggerTone_cases p volume pan key s a with e | ⟨t, -, -, e⟩
    · rw [e]; exact h
    · rw [e]; exact hp _ _ _ _ _ _ _ h

theorem triggerNote_seqFrame (s : State) (c : BitVec 4) (key vel : BitVec 7) : SeqFrame s (s.triggerNote c key vel) :=
  triggerNote_keeps (P := SeqFrame s) c key vel s (fun _ _ _ _ _ _ _ ht => ht.trans (playTone_seqFrame ..))
    (SeqFrame.refl s)

theorem triggerNote_slots (s : State) (c : BitVec 4) (key vel : BitVec 7) : (s.triggerNote c key vel).slots = s.slots :=
  triggerNote_keeps (P := fun t => t.slots = s.slots) c key vel s
    (fun t r a b d e f ht => by rw [playTone_frame]; exact ht) rfl

/-! ### Events -/

/-- Every event answers a next state (44_sequencer.md R290). -/
theorem exec_event_next (i : Instr) (h : i.isEvent = true) (s : State) : ∃ t, exec i s = .next t := by
  cases i <;> first | exact ⟨_, rfl⟩ | cases h

/-- The turn of the catch-up loop runs the meaning that `exec` gives the event. -/
theorem runEvent_eq (i : Instr) (h : i.isEvent = true) {s t : State} (he : exec i s = .next t) : runEvent i s = t := by
  cases i <;> first | (cases h; done) | (simp only [runEvent, exec] at *; rw [he]; rfl)

/-- An event changes the voices, the FM flags, the steal cursor, the slots and the diagnostic port only. -/
theorem exec_event_seqFrame (i : Instr) (h : i.isEvent = true) {s t : State} (he : exec i s = .next t) : SeqFrame s t := by
  cases i with
  | noteOn c key vel =>
    simp only [exec, execNoteOn] at he
    cases he
    split
    · rfl
    · exact triggerNote_seqFrame ..
  | tempo t2 t1 t0 =>
    simp only [exec, execTempo] at he
    cases he
    split <;> rfl
  | _ => first | (cases h; done) | (cases he; rfl)

/-- An event leaves the slots of the other sequences alone. -/
theorem exec_event_slot_ne (i : Instr) (h : i.isEvent = true) {s t : State} (he : exec i s = .next t) {l : Fin 16}
    (hl : s.curSlot ≠ l) : t.slot l = s.slot l := by
  cases i with
  | noteOn c key vel =>
    simp only [exec, execNoteOn] at he
    cases he
    split
    · rfl
    · exact slot_congr (triggerNote_slots s c key vel) l
  | tempo t2 t1 t0 =>
    simp only [exec, execTempo] at he
    cases he
    split
    · exact raiseSlot_slot_ne s _ hl
    · exact slot_setSlot_ne s _ hl
  | noteOff => cases he; rfl
  | ccOther => cases he; rfl
  | metaEvent => cases he; rfl
  | pb => cases he; rfl
  | reservedA0 => cases he; exact raiseSlot_slot_ne s _ hl
  | reservedD0 => cases he; exact raiseSlot_slot_ne s _ hl
  | reservedF0 => cases he; exact raiseSlot_slot_ne s _ hl
  | ccVolume => cases he; exact slot_setSlot_ne s _ hl
  | ccPan => cases he; exact slot_setSlot_ne s _ hl
  | ccExpr => cases he; exact slot_setSlot_ne s _ hl
  | pc => cases he; exact slot_setSlot_ne s _ hl
  | eot => cases he; exact slot_setSlot_ne s _ hl
  | _ => cases h

/-! ### Turns -/

/-- Everything that a fetch and execution of an event can do: the meaning of the decoded event, on the slot past
its bytes, or the exception of the fetch. -/
theorem execEventAt_cases (s : State) (k : Fin 16) :
    (∃ i t, (s.fetchEvent k).result = .ok i ∧ i.isEvent = true ∧
      exec i ((s.passEvent k (s.fetchEvent k)).forSlot k) = .next t ∧ s.execEventAt k = t.forSlot s.curSlot) ∨
    (∃ e, (s.fetchEvent k).result = .error e ∧
      s.execEventAt k = (s.passEvent k (s.fetchEvent k)).raiseStream k (s.slot k).cursor e) := by
  unfold State.execEventAt
  simp only
  split
  · next i hi =>
    have hev := decodeEvent_isEvent _ _ i hi
    obtain ⟨t, ht⟩ := exec_event_next i hev ((s.passEvent k (s.fetchEvent k)).forSlot k)
    exact .inl ⟨i, t, hi, hev, ht, by rw [runEvent_eq i hev ht]⟩
  · next e he => exact .inr ⟨e, he, rfl⟩

theorem forSlot_curSlot_self (s : State) : s.forSlot s.curSlot = s := rfl

theorem execEventAt_seqFrame (s : State) (k : Fin 16) : SeqFrame s (s.execEventAt k) := by
  rcases execEventAt_cases s k with ⟨i, t, -, hev, ht, e⟩ | ⟨er, -, e⟩
  · have := exec_event_seqFrame i hev ht
    rw [e]
    unfold SeqFrame at *
    rw [this]; rfl
  · rw [e]; rfl

theorem execEventAt_slot_ne (s : State) {k l : Fin 16} (h : k ≠ l) : (s.execEventAt k).slot l = s.slot l := by
  rcases execEventAt_cases s k with ⟨i, t, -, hev, ht, e⟩ | ⟨er, -, e⟩
  · have := exec_event_slot_ne i hev ht (l := l) (by simpa using h)
    rw [e]
    rw [show (t.forSlot s.curSlot).slot l = t.slot l from rfl, this]
    exact slot_setSlot_ne s _ h
  · rw [e]
    rw [raiseStream_eq, raiseSlot_slot_ne _ _ h]
    exact slot_setSlot_ne s _ h

theorem stepEvent_seqFrame (s : State) (k : Fin 16) : SeqFrame s (s.stepEvent k) := by
  have h := (setSlot_seqFrame s k (s.slot k).spend).trans (execEventAt_seqFrame _ k)
  unfold State.stepEvent
  simp only
  split
  · exact h.trans (readDelay_seqFrame _ k)
  · exact h

theorem stepEvent_slot_ne (s : State) {k l : Fin 16} (h : k ≠ l) : (s.stepEvent k).slot l = s.slot l := by
  have h1 : ((s.setSlot k (s.slot k).spend).execEventAt k).slot l = s.slot l := by
    rw [execEventAt_slot_ne _ h]; exact slot_setSlot_ne s _ h
  unfold State.stepEvent
  simp only
  split
  · rw [readDelay_slot_ne _ h]; exact h1
  · exact h1

/-- A turn whose bytes decode to an event that leaves the slot Active is the event and the reading of the next delay
(44_sequencer.md R286). -/
theorem stepEvent_of_event (s : State) (k : Fin 16) (i : Instr) (t : State) (f : EventFetch)
   (hf : decodeEvent (s.slot k).running (s.slot k).stream = f) (hi : f.result = .ok i)
   (ht : exec i (((s.setSlot k { s.slot k with acc := (s.slot k).acc - ((s.slot k).wait : NumQ), cursor := (s.slot k).cursor + f.used, running := f.running }).forSlot k)) = .next t) (hact : (t.slot k).active = true) :
   s.stepEvent k = (t.forSlot s.curSlot).readDelay k := by
  have hf' : (s.setSlot k (s.slot k).spend).fetchEvent k = f := by
    unfold State.fetchEvent; rw [slot_setSlot_self]; exact hf
  have hp : (s.setSlot k (s.slot k).spend).passEvent k f = s.setSlot k { s.slot k with acc := (s.slot k).acc - ((s.slot k).wait : NumQ), cursor := (s.slot k).cursor + f.used, running := f.running } := by
    unfold State.passEvent; rw [slot_setSlot_self, setSlot_setSlot]; rfl
  have hx : (s.setSlot k (s.slot k).spend).execEventAt k = t.forSlot s.curSlot := by
    unfold State.execEventAt
    simp only [hf', hi, hp]
    rw [runEvent_eq i (decodeEvent_isEvent _ _ i (by rw [hf]; exact hi)) ht]; rfl
  unfold State.stepEvent
  simp only [hx]
  exact if_pos hact

/-- A property that every due turn keeps holds after the catch-up loop. -/
theorem catchUp_keeps {P : State → Prop} (k : Fin 16) (n : Nat) (s : State)
    (hp : ∀ t, P t → (t.slot k).due = true → P (t.stepEvent k)) (h : P s) (hd : (s.slot k).due = true) :
    P (catchUp k n s) := by
  induction n generalizing s with
  | zero => exact h
  | succ n ih =>
    unfold catchUp
    simp only
    split
    · next hd' => exact ih _ (hp s h hd) hd'
    · exact hp s h hd

/-- The loop takes its `n` turns, one after another, where an event is due before each (44_sequencer.md R291). -/
theorem catchUp_iterate (k : Fin 16) (n : Nat) (s : State)
    (h : ∀ m < n, (((fun t : State => t.stepEvent k)^[m] s).slot k).due = true) :
    catchUp k n s = (fun t : State => t.stepEvent k)^[n] s := by
  induction n generalizing s with
  | zero => rfl
  | succ n ih =>
    unfold catchUp
    simp only
    cases n with
    | zero => split <;> rfl
    | succ n =>
      have h1 : ((s.stepEvent k).slot k).due = true := h 1 (by omega)
      rw [if_pos h1, ih _ (fun m hm => h (m + 1) (by omega))]; rfl

/-- A property that advancing a clock and every due turn keep holds after a slot's part of an update. -/
theorem updateSlot_keeps {P : State → Prop} (dt : NumQ) (k : Fin 16) (s : State)
    (ha : (s.slot k).active = true → P (s.setSlot k ((s.slot k).advance dt)))
    (hp : ∀ t, P t → (t.slot k).due = true → P (t.stepEvent k)) (h : P s) : P (updateSlot dt s k) := by
  unfold updateSlot
  split
  · next hact =>
    simp only
    split
    · next hd => exact catchUp_keeps k _ _ hp (ha hact) hd
    · exact ha hact
  · exact h

/-- A property that every slot's clock and every due turn keep holds after the slots of a list have had their part. -/
theorem updateSlots_keeps {P : State → Prop} (dt : NumQ) (l : List (Fin 16)) (s : State)
    (ha : ∀ t k, P t → (t.slot k).active = true → P (t.setSlot k ((t.slot k).advance dt)))
    (hp : ∀ t k, P t → (t.slot k).due = true → P (t.stepEvent k)) (h : P s) : P (l.foldl (updateSlot dt) s) := by
  induction l generalizing s with
  | nil => exact h
  | cons k l ih => exact ih _ (updateSlot_keeps dt k s (ha s k h) (fun t => hp t k) h)

theorem updateSlots_seqFrame (dt : NumQ) (l : List (Fin 16)) (s : State) : SeqFrame s (l.foldl (updateSlot dt) s) :=
  updateSlots_keeps (P := SeqFrame s) dt l s (fun t k h _ => h.trans (setSlot_seqFrame t k _))
    (fun t k h _ => h.trans (stepEvent_seqFrame t k)) (SeqFrame.refl s)

/-- A slot's part of an update leaves the other slots alone. -/
theorem updateSlot_slot_ne (dt : NumQ) (s : State) {k l : Fin 16} (h : k ≠ l) : (updateSlot dt s k).slot l = s.slot l :=
  updateSlot_keeps (P := fun t => t.slot l = s.slot l) dt k s (fun _ => slot_setSlot_ne s _ h)
    (fun t ht _ => by rw [stepEvent_slot_ne t h]; exact ht) rfl

/-- An inactive slot has no part in an update. -/
theorem updateSlot_idle (dt : NumQ) (s : State) (k : Fin 16) (h : (s.slot k).active = false) : updateSlot dt s k = s := by
  unfold updateSlot; rw [h]; rfl

/-- Inactive slots have no part in an update. -/
theorem updateSlots_idle (dt : NumQ) (l : List (Fin 16)) (s : State) (h : ∀ j ∈ l, (s.slot j).active = false) :
    l.foldl (updateSlot dt) s = s := by
  induction l with
  | nil => rfl
  | cons j l ih =>
    rw [List.foldl_cons, updateSlot_idle dt s j (h j List.mem_cons_self)]
    exact ih fun i hi => h i (List.mem_cons_of_mem j hi)

/-- Where one slot alone is Active, an update is its part. -/
theorem updateSlots_single (dt : NumQ) (s : State) (k : Fin 16) (h : ∀ l, l ≠ k → (s.slot l).active = false) :
    (List.finRange 16).foldl (updateSlot dt) s = updateSlot dt s k := by
  obtain ⟨a, b, e⟩ := List.append_of_mem (List.mem_finRange k)
  have hn : (a ++ k :: b).Nodup := e ▸ List.nodup_finRange 16
  have hk : k ∉ a ∧ k ∉ b := by
    rw [List.nodup_middle, List.nodup_cons, List.mem_append, not_or] at hn; exact hn.1
  rw [e, List.foldl_append, List.foldl_cons, updateSlots_idle dt a s fun j hj => h j fun hjk => hk.1 (hjk ▸ hj)]
  refine updateSlots_idle dt b _ fun j hj => ?_
  have hjk : j ≠ k := fun hjk => hk.2 (hjk ▸ hj)
  rw [updateSlot_slot_ne dt s hjk.symm]; exact h j hjk

theorem exec_seqUpdate (dt : NumQ) (s : State) :
    exec (.seqUpdate dt) s = .next (((List.finRange 16).foldl (updateSlot dt) s).withResult .none) := rfl

theorem due_iff (x : Slot) : x.due = true ↔ x.active = true ∧ (x.wait : NumQ) ≤ x.acc := by
  simp [Slot.due]

/-! ### Starting a stream (44_sequencer.md R281) -/

/-- Everything that starting a stream can do: the slot is loaded with its first delay, or the record is emitted. -/
theorem startSlot_cases (s : State) (k : Fin 16) (data : Bytes) (bankId : Int) :
    (∃ wait, (decodeVlq (data.drop 15)).result = .ok wait ∧ s.startSlot k data bankId =
      (s.setSlot k (startedSlot data bankId (decodeVlq (data.drop 15)).used wait)).withResult (.slotId k)) ∨
    (∃ e, (decodeVlq (data.drop 15)).result = .error e ∧
      s.startSlot k data bankId = (s.emit (streamDiag e k 15)).withResult (.slotId (-1))) := by
  unfold State.startSlot Config.seqHeaderLen
  simp only
  split
  · next wait h => exact .inl ⟨wait, h, rfl⟩
  · next e h => exact .inr ⟨e, h, rfl⟩

end Sys2Proof.Machine
end

