-- ==== Sys2Proof/Laws/Invariants.lean ====
section
/-! SUPPORT. How the rules of Sys2Proof/Safety.lean pass through the shared operations. -/

namespace Sys2Proof.Machine

open Sys2Proof

/-! ### Voices and tones -/

/-- A voice stays live when the tone memory stays as it was. -/
theorem voiceLive_congr {s t : State} (h : t.prog = s.prog) (v : Voice) (hv : s.VoiceLive v) : t.VoiceLive v := by
  intro ha; obtain ⟨r, T, h1, h2, h3⟩ := hv ha
  exact ⟨r, T, h1, by rw [toneAt_congr h]; exact h2, h3⟩

/-- The voices keep to their rules under a change of anything but voices and tone memory. -/
theorem voicesOk_congr {s t : State} (hp : t.prog = s.prog) (hv : t.voices = s.voices) (h : s.VoicesOk) : t.VoicesOk := by
  intro i; rw [voice_congr hv]; exact ⟨(h i).1, voiceLive_congr hp _ (h i).2⟩

/-- The tone memory keeps to its rules under a change of anything else. -/
theorem tonesOk_congr {s t : State} (hp : t.prog = s.prog) (h : s.TonesOk) : t.TonesOk := by
  intro p; rw [program_congr hp]; exact h p

/-- A tone that a reference names is one the loader made. -/
theorem tone_ok_of_toneAt {s : State} (h : s.TonesOk) {r : ToneRef} {T : Tone} (hT : s.toneAt r = some T) : T.Ok := by
  have hp := toneAt_some_program hT
  exact (h ⟨r.program, hp⟩).2 T (List.mem_of_getElem? hT)

/-- Writing a voice that keeps to the rules keeps them. -/
theorem voicesOk_setVoice {s : State} (h : s.VoicesOk) (i : Fin 127) (v : Voice) (h1 : v.Ok) (h2 : s.VoiceLive v) : (s.setVoice i v).VoicesOk := by
  intro j; rw [voice_setVoice]
  split
  · exact ⟨h1, voiceLive_congr rfl _ h2⟩
  · exact ⟨(h j).1, voiceLive_congr rfl _ (h j).2⟩

/-- Changing every voice by a function that keeps the rules keeps them. -/
theorem voicesOk_mapVoices {s : State} (h : s.VoicesOk) (f : Voice → Voice) (h1 : ∀ v, v.Ok → (f v).Ok) (h2 : ∀ v, v.Ok → s.VoiceLive v → s.VoiceLive (f v)) :
    (s.mapVoices f).VoicesOk := by
  intro j; rw [voice_mapVoices]; exact ⟨h1 _ (h j).1, voiceLive_congr rfl _ (h2 _ (h j).1 (h j).2)⟩

/-- A released voice is as live as before. -/
theorem voiceLive_noteOff {s : State} {v : Voice} (h : s.VoiceLive v) : s.VoiceLive v.noteOff := by
  intro ha; rw [noteOff_active] at ha; simpa using h ha

/-- `PLAY_NOTE` of a playable tone keeps the rules of the voices. -/
theorem voicesOk_playTone {s : State} (h : s.VoicesOk) (r : ToneRef) (a b c : NumQ) (fm : Bool) (n p : Nat) :
    (s.playTone r a b fm c n p).state.VoicesOk := by
  have hf := playTone_frame s r a b fm c n p
  have hp : (s.playTone r a b fm c n p).state.prog = s.prog := by rw [hf]
  intro i
  rcases playTone_voice s r a b fm c n p i with e | ⟨hpl, e⟩
  · rw [e]; exact ⟨(h i).1, voiceLive_congr hp _ (h i).2⟩
  · rw [e]
    refine ⟨armedVoice_ok .., voiceLive_congr hp _ ?_⟩
    intro _
    obtain ⟨T, h1, h2, h3⟩ := (playable_iff s r).mp hpl
    refine ⟨r, T, rfl, h1, h3, ?_⟩
    simp only [armedVoice, Tone.len]
    exact_mod_cast h2

/-! ### Slots -/

/-- The slots keep to their rules under a change of anything else. -/
theorem slotsOk_congr {s t : State} (hp : t.slots = s.slots) (h : s.SlotsOk) : t.SlotsOk := by
  intro p; rw [slot_congr hp]; exact h p

/-- Writing a slot that keeps to the rules keeps them. -/
theorem slotsOk_setSlot {s : State} (h : s.SlotsOk) (k : Fin 16) (x : Slot) (hx : x.Ok) : (s.setSlot k x).SlotsOk := by
  intro l; rw [slot_setSlot]; split; exact hx; exact h l

/-- A stopped slot keeps to the rules. -/
theorem stopped_slot_ok {x : Slot} (h : x.Ok) (c : Nat) (r : Byte) (hr : r = 0 ∨ 0x80 ≤ r.toNat) :
   ({ x with active := false, buf := none, cursor := c, running := r } : Slot).Ok :=
  ⟨by simp, by simp, by simp, by simp, by simp, h.acc_nonneg, h.wait_range, hr, h.channels⟩

/-- Writing a channel of 7-bit values keeps the rules of a slot. -/
theorem setChannel_ok {x : Slot} (h : x.Ok) (c : BitVec 4) (y : Channel) (hy : y.Ok) : (x.setChannel c y).Ok :=
  ⟨h.active_iff, h.header, h.cursor_low, h.cursor_high, h.tempo_pos, h.acc_nonneg, h.wait_range, h.running_range,
    fun d => by rw [channel_setChannel]; split; exact hy; exact h.channels d⟩

/-- A 7-bit value is one in its register. -/
theorem registerOf_lt (v : BitVec 7) : (registerOf v).toNat < 128 := by revert v; decide

/-- The bytes ahead of the cursor. -/
theorem stream_length_le {x : Slot} : x.stream.length ≤ match x.buf with | some b => b.length - x.cursor | none => 0 := by
  unfold Slot.stream; cases x.buf <;> simp

/-- Passing bytes that are there keeps the rules of a slot. -/
theorem pass_slot_ok {x : Slot} (h : x.Ok) (n : Nat) (hn : n ≤ x.stream.length) (r : Byte) (hr : r = 0 ∨ 0x80 ≤ r.toNat) (w : Nat) (hw : w < 2^28):
   ({ x with cursor := x.cursor + n, running := r, wait := w } : Slot).Ok := by
  refine ⟨h.active_iff, h.header, fun ha => le_trans (h.cursor_low ha) (Nat.le_add_right _ _), ?_, h.tempo_pos, h.acc_nonneg, hw, hr, h.channels⟩
  intro b hb
  have h1 := h.cursor_high b hb
  have h2 := stream_length_le (x := x)
  rw [show x.buf = some b from hb] at h2
  simp only at h2 ⊢
  omega

/-- Reading a delay keeps the rules of the slots. -/
theorem slotsOk_readDelay {s : State} (h : s.SlotsOk) (k : Fin 16) : (s.readDelay k).SlotsOk := by
  rcases readDelay_cases s k with ⟨v, hv, e⟩ | ⟨er, -, e⟩
  · rw [e]; exact slotsOk_setSlot h k _ (pass_slot_ok (h k) _ (decodeVlq_used _) _ (h k).running_range _ (decodeVlq_lt _ _ hv))
  · rw [e]
    exact slotsOk_congr (s := s.setSlot k _) rfl (slotsOk_setSlot h k _ (stopped_slot_ok (h k) _ _ (h k).running_range))

/-- A 24-bit value is below 2^24. -/
theorem u24be_lt (d : Bytes) (a : Nat) : u24be d a < 2^24 := by
  have := u8_le d a; have := u8_le d (a+1); have := u8_le d (a+2); unfold u24be; omega

/-- The channels of `SEQ_PLAY` hold 7-bit values. -/
theorem initial_channel_ok (c : BitVec 4) : (Channel.initials[c.toFin]).Ok := by revert c; unfold Channel.Ok; decide

end Sys2Proof.Machine
end

