-- ==== Sys2Proof/Laws/PerInstr.lean ====
section
/-! SUPPORT. The lemma families that are proved one instruction at a time. -/

namespace Sys2Proof.Laws

open Sys2Proof

/-- An instruction is written into a stream exactly if it is an event, on the command port otherwise
(30_encoding.md R104, R105, R112). -/
def EncodedWhere.Statement (i : Instr) : Prop := i.isEvent = true ↔ ∃ b, encode i = .stream b

theorem EncodedWhere.noteOff (c : BitVec 4) (key vel : BitVec 7) : EncodedWhere.Statement (.noteOff c key vel) :=
  ⟨fun _ => ⟨_, rfl⟩, fun _ => rfl⟩
theorem EncodedWhere.noteOn (c : BitVec 4) (key vel : BitVec 7) : EncodedWhere.Statement (.noteOn c key vel) :=
  ⟨fun _ => ⟨_, rfl⟩, fun _ => rfl⟩
theorem EncodedWhere.reservedA0 (c : BitVec 4) : EncodedWhere.Statement (.reservedA0 c) :=
  ⟨fun _ => ⟨_, rfl⟩, fun _ => rfl⟩
theorem EncodedWhere.ccVolume (c : BitVec 4) (val : BitVec 7) : EncodedWhere.Statement (.ccVolume c val) :=
  ⟨fun _ => ⟨_, rfl⟩, fun _ => rfl⟩
theorem EncodedWhere.ccPan (c : BitVec 4) (val : BitVec 7) : EncodedWhere.Statement (.ccPan c val) :=
  ⟨fun _ => ⟨_, rfl⟩, fun _ => rfl⟩
theorem EncodedWhere.ccExpr (c : BitVec 4) (val : BitVec 7) : EncodedWhere.Statement (.ccExpr c val) :=
  ⟨fun _ => ⟨_, rfl⟩, fun _ => rfl⟩
theorem EncodedWhere.ccOther (c : BitVec 4) (ctrl val : BitVec 7) : EncodedWhere.Statement (.ccOther c ctrl val) :=
  ⟨fun _ => ⟨_, rfl⟩, fun _ => rfl⟩
theorem EncodedWhere.pc (c : BitVec 4) (prog : BitVec 7) : EncodedWhere.Statement (.pc c prog) :=
  ⟨fun _ => ⟨_, rfl⟩, fun _ => rfl⟩
theorem EncodedWhere.reservedD0 (c : BitVec 4) : EncodedWhere.Statement (.reservedD0 c) :=
  ⟨fun _ => ⟨_, rfl⟩, fun _ => rfl⟩
theorem EncodedWhere.pb (c : BitVec 4) (ll mm : BitVec 7) : EncodedWhere.Statement (.pb c ll mm) :=
  ⟨fun _ => ⟨_, rfl⟩, fun _ => rfl⟩
theorem EncodedWhere.eot : EncodedWhere.Statement (.eot) :=
  ⟨fun _ => ⟨_, rfl⟩, fun _ => rfl⟩
theorem EncodedWhere.tempo (t2 t1 t0 : Byte) : EncodedWhere.Statement (.tempo t2 t1 t0) :=
  ⟨fun _ => ⟨_, rfl⟩, fun _ => rfl⟩
theorem EncodedWhere.metaEvent (ty : Byte) (data : Bytes) : EncodedWhere.Statement (.metaEvent ty data) :=
  ⟨fun _ => ⟨_, rfl⟩, fun _ => rfl⟩
theorem EncodedWhere.reservedF0 (low : BitVec 4) : EncodedWhere.Statement (.reservedF0 low) :=
  ⟨fun _ => ⟨_, rfl⟩, fun _ => rfl⟩
theorem EncodedWhere.playNote (p t : Int) (pitch volume : NumQ) (fmEnabled : Bool) (pan : NumQ) (note programId : BitVec 7) : EncodedWhere.Statement (.playNote p t pitch volume fmEnabled pan note programId) :=
  ⟨fun h => Bool.noConfusion h, fun ⟨_, h⟩ => Source.noConfusion h⟩
theorem EncodedWhere.stopVoice (id : Int) : EncodedWhere.Statement (.stopVoice id) :=
  ⟨fun h => Bool.noConfusion h, fun ⟨_, h⟩ => Source.noConfusion h⟩
theorem EncodedWhere.isSoundPlaying (id : Int) : EncodedWhere.Statement (.isSoundPlaying id) :=
  ⟨fun h => Bool.noConfusion h, fun ⟨_, h⟩ => Source.noConfusion h⟩
theorem EncodedWhere.setVoice3d (id : Int) (vol pan : NumQ) : EncodedWhere.Statement (.setVoice3d id vol pan) :=
  ⟨fun h => Bool.noConfusion h, fun ⟨_, h⟩ => Source.noConfusion h⟩
theorem EncodedWhere.updateVoicePitch (id : Int) (bend : NumQ) : EncodedWhere.Statement (.updateVoicePitch id bend) :=
  ⟨fun h => Bool.noConfusion h, fun ⟨_, h⟩ => Source.noConfusion h⟩
theorem EncodedWhere.generateAudio (frameCount : Int) : EncodedWhere.Statement (.generateAudio frameCount) :=
  ⟨fun h => Bool.noConfusion h, fun ⟨_, h⟩ => Source.noConfusion h⟩
theorem EncodedWhere.seqPlay (data : Bytes) (bankId : Int) : EncodedWhere.Statement (.seqPlay data bankId) :=
  ⟨fun h => Bool.noConfusion h, fun ⟨_, h⟩ => Source.noConfusion h⟩
theorem EncodedWhere.seqUpdate (dt : NumQ) : EncodedWhere.Statement (.seqUpdate dt) :=
  ⟨fun h => Bool.noConfusion h, fun ⟨_, h⟩ => Source.noConfusion h⟩
theorem EncodedWhere.seqStop (slotId : Int) : EncodedWhere.Statement (.seqStop slotId) :=
  ⟨fun h => Bool.noConfusion h, fun ⟨_, h⟩ => Source.noConfusion h⟩
theorem EncodedWhere.seqStopAll : EncodedWhere.Statement (.seqStopAll) :=
  ⟨fun h => Bool.noConfusion h, fun ⟨_, h⟩ => Source.noConfusion h⟩
theorem EncodedWhere.seqIsPlaying (slotId : Int) : EncodedWhere.Statement (.seqIsPlaying slotId) :=
  ⟨fun h => Bool.noConfusion h, fun ⟨_, h⟩ => Source.noConfusion h⟩
theorem EncodedWhere.programPitchBend (programId : Int) (bend : NumQ) : EncodedWhere.Statement (.programPitchBend programId bend) :=
  ⟨fun h => Bool.noConfusion h, fun ⟨_, h⟩ => Source.noConfusion h⟩
theorem EncodedWhere.bankLoad (header body : Bytes) : EncodedWhere.Statement (.bankLoad header body) :=
  ⟨fun h => Bool.noConfusion h, fun ⟨_, h⟩ => Source.noConfusion h⟩
theorem EncodedWhere.bankUnloadAll : EncodedWhere.Statement (.bankUnloadAll) :=
  ⟨fun h => Bool.noConfusion h, fun ⟨_, h⟩ => Source.noConfusion h⟩
theorem EncodedWhere.isProgramPopulated (p : Int) : EncodedWhere.Statement (.isProgramPopulated p) :=
  ⟨fun h => Bool.noConfusion h, fun ⟨_, h⟩ => Source.noConfusion h⟩
theorem EncodedWhere.decodeAdpcm (data : Bytes) : EncodedWhere.Statement (.decodeAdpcm data) :=
  ⟨fun h => Bool.noConfusion h, fun ⟨_, h⟩ => Source.noConfusion h⟩
theorem EncodedWhere.makeAdsr (adsr1 adsr2 : BitVec 16) : EncodedWhere.Statement (.makeAdsr adsr1 adsr2) :=
  ⟨fun h => Bool.noConfusion h, fun ⟨_, h⟩ => Source.noConfusion h⟩

end Sys2Proof.Laws
end

