-- ==== Sys2Proof/Tests/Slice0.lean ====
section
/-! SUPPORT. The model's own tests: well-formedness, one written-out word for each instruction, one-step tests from 95_test_vectors.md, and a witness for the hypotheses of each obligation. -/

namespace Sys2Proof.Tests

open Sys2Proof Sys2Proof.Machine

-- One theorem is checked at a time: each check in the kernel holds a thread with a large stack.
set_option Elab.async false

/-! ### Small states -/

/-- The state that an outcome goes on with. -/
def nextOf (o : Host.Outcome State Fault Refusal) : Option State :=
  match o with
  | .next s => some s
  | _ => none

/-- A step of the machine from `s`, checked by `p`; false where the step does not go on. -/
def after (i : Instr) (s : State) (p : State → Bool) : Bool :=
  match exec i s with
  | .next t => p t
  | _ => false

/-- A tone of the data `1/8`, as the loader makes it from the bank of P2 (95_test_vectors.md part 3). -/
def toneP2 : Tone :=
  { data := List.replicate 28 (1 / 8), minNote := 0, maxNote := 127, centerNote := 60, fineTune := 0, loop := true
    adsr := { attack := 1 / 44100, decay := 0, sustain := 1, release := 3 / 44100 }, volume := 127, synthetic := false }

/-- Reset, with that tone as tone 0 of program 0. -/
def bank : State := State.reset.setProgram 0 { tones := [toneP2] }

/-- A voice that plays that tone, at the end of its attack. -/
def voiceP2 : Voice := { armedVoice ⟨0, 0⟩ 1 1 0 60 0 with phase := .sustain, env := 1 }

/-- `bank` with that voice as voice 0. -/
def playing : State := bank.setVoice 0 voiceP2

/-- `playing` with slot 0 Active on `HDR` and these bytes, the first of them at the cursor, all of them due. -/
def streaming (bytes : Bytes) : State :=
  playing.setSlot 0 { Slot.reset with
    active := true, buf := some (testHeader ++ bytes), cursor := 15, tempo := 500000, resolution := 480, masterVolume := 127 }

/-! ### Well-formedness: each check refuses an ill-formed term -/

theorem test_wf_ccOther_volume : (Instr.ccOther 0 7 0).wellFormed = false := by decide
theorem test_wf_ccOther_pan : (Instr.ccOther 0 10 0).wellFormed = false := by decide
theorem test_wf_ccOther_expression : (Instr.ccOther 0 11 0).wellFormed = false := by decide
theorem test_wf_meta_end_of_track : (Instr.metaEvent 0x2F []).wellFormed = false := by decide
theorem test_wf_meta_tempo : (Instr.metaEvent 0x51 []).wellFormed = false := by decide
theorem test_wf_meta_too_long : (Instr.metaEvent 1 (List.replicate 256 0)).wellFormed = false := by decide +kernel
theorem test_wf_meta_longest : (Instr.metaEvent 1 (List.replicate 255 0)).wellFormed = true := by decide +kernel
theorem test_wf_reservedF0_ff : (Instr.reservedF0 15).wellFormed = false := by decide
theorem test_wf_seqUpdate_negative : (Instr.seqUpdate (-1)).wellFormed = false := by decide

/-! ### Decoding of words written out from 30_encoding.md R104, R105 and R112 -/

theorem test_decode_noteOff : decode (.stream [0x83, 0x3C, 0x40]) = some (.noteOff 3 60 64) := by decide
theorem test_decode_noteOn : decode (.stream [0x9F, 0x7F, 0x01]) = some (.noteOn 15 127 1) := by decide
theorem test_decode_reservedA0 : decode (.stream [0xA5]) = some (.reservedA0 5) := by decide
theorem test_decode_ccVolume : decode (.stream [0xB1, 0x07, 0x64]) = some (.ccVolume 1 100) := by decide
theorem test_decode_ccPan : decode (.stream [0xB2, 0x0A, 0x00]) = some (.ccPan 2 0) := by decide
theorem test_decode_ccExpr : decode (.stream [0xB0, 0x0B, 0x7F]) = some (.ccExpr 0 127) := by decide
theorem test_decode_ccOther : decode (.stream [0xB0, 0x40, 0x7F]) = some (.ccOther 0 64 127) := by decide
theorem test_decode_pc : decode (.stream [0xC4, 0x05]) = some (.pc 4 5) := by decide
theorem test_decode_reservedD0 : decode (.stream [0xDF]) = some (.reservedD0 15) := by decide
theorem test_decode_pb : decode (.stream [0xE0, 0x01, 0x60]) = some (.pb 0 1 0x60) := by decide
theorem test_decode_eot : decode (.stream [0xFF, 0x2F]) = some .eot := by decide
theorem test_decode_tempo : decode (.stream [0xFF, 0x51, 0x03, 0xD0, 0x90]) = some (.tempo 0x03 0xD0 0x90) := by decide
theorem test_decode_meta : decode (.stream [0xFF, 0x01, 0x02, 0x41, 0xC2]) = some (.metaEvent 1 [0x41, 0xC2]) := by decide
theorem test_decode_reservedF0 : decode (.stream [0xFE]) = some (.reservedF0 14) := by decide
theorem test_decode_playNote :
    decode (.port { code := 0x01, args := [.tone 2 1, .real 2, .real 1, .flag true, .real 0, .int 127, .int 3] }) =
      some (.playNote 2 1 2 1 true 0 127 3) := by decide
theorem test_decode_playNote_note_out_of_range :
    decode (.port { code := 0x01, args := [.tone 2 1, .real 2, .real 1, .flag true, .real 0, .int 128, .int 3] }) = none := by decide
theorem test_decode_stopVoice : decode (.port { code := 0x02, args := [.int (-1)] }) = some (.stopVoice (-1)) := by decide
theorem test_decode_isSoundPlaying : decode (.port { code := 0x03, args := [.int 7] }) = some (.isSoundPlaying 7) := by decide
theorem test_decode_setVoice3d :
    decode (.port { code := 0x04, args := [.int 7, .real 1, .real 0] }) = some (.setVoice3d 7 1 0) := by decide
theorem test_decode_updateVoicePitch :
    decode (.port { code := 0x05, args := [.int 7, .real (-1)] }) = some (.updateVoicePitch 7 (-1)) := by decide
theorem test_decode_generateAudio : decode (.port { code := 0x06, args := [.int 735] }) = some (.generateAudio 735) := by decide
theorem test_decode_seqPlay :
    decode (.port { code := 0x10, args := [.bytes [1, 2], .int 9] }) = some (.seqPlay [1, 2] 9) := by decide
theorem test_decode_seqUpdate : decode (.port { code := 0x11, args := [.real 2] }) = some (.seqUpdate 2) := by decide +kernel
theorem test_decode_seqUpdate_negative : decode (.port { code := 0x11, args := [.real (-2)] }) = none := by decide +kernel
theorem test_decode_seqStop : decode (.port { code := 0x12, args := [.int 16] }) = some (.seqStop 16) := by decide
theorem test_decode_seqStopAll : decode (.port { code := 0x13, args := [] }) = some .seqStopAll := by decide
theorem test_decode_seqIsPlaying : decode (.port { code := 0x14, args := [.int 15] }) = some (.seqIsPlaying 15) := by decide
theorem test_decode_programPitchBend :
    decode (.port { code := 0x15, args := [.int 128, .real 1] }) = some (.programPitchBend 128 1) := by decide
theorem test_decode_bankLoad :
    decode (.port { code := 0x20, args := [.bytes [1], .bytes [2]] }) = some (.bankLoad [1] [2]) := by decide
theorem test_decode_bankUnloadAll : decode (.port { code := 0x21, args := [] }) = some .bankUnloadAll := by decide
theorem test_decode_isProgramPopulated :
    decode (.port { code := 0x22, args := [.int 127] }) = some (.isProgramPopulated 127) := by decide
theorem test_decode_decodeAdpcm : decode (.port { code := 0x30, args := [.bytes [3]] }) = some (.decodeAdpcm [3]) := by decide
theorem test_decode_makeAdsr :
    decode (.port { code := 0x31, args := [.word 0x80FF, .word 0x5FC0] }) = some (.makeAdsr 0x80FF 0x5FC0) := by decide
theorem test_decode_no_such_code : decode (.port { code := 0x07, args := [] }) = none := by decide

/-- 95_test_vectors.md Q1, the values. -/
theorem test_vlq_values :
    [[0x00], [0x7F], [0x81, 0x00], [0xFF, 0x7F], [0x80, 0x00], [0x81, 0x80, 0x00], [0xFF, 0xFF, 0xFF, 0x7F]].map
        (fun b : Bytes => (decodeVlq b).result) =
      [.ok 0, .ok 127, .ok 128, .ok 16383, .ok 0, .ok 16384, .ok 0x0FFFFFFF] := by decide

/-- 95_test_vectors.md Q1b. -/
theorem test_vlq_too_long : decodeVlq [0x81, 0x80, 0x80, 0x80, 0x00] = { used := 4, result := .error (.badEvent 4) } := by decide

/-- 30_encoding.md R102, S7: the encodings of 128 and 16383. -/
theorem test_vlq_encode : encodeVlq 128 = [0x81, 0x00] ∧ encodeVlq 16383 = [0xFF, 0x7F] := by decide

/-! ### One step each, the expected values from 95_test_vectors.md -/

/-- 95_test_vectors.md S1. -/
theorem test_adpcm_s1 :
    (adpcm [0, 0, 0x11, 0x11, 0x11, 0x11, 0x11, 0x11, 0x11, 0x11, 0x11, 0x11, 0x11, 0x11, 0x11, 0x11]).samples =
      List.replicate 28 4096 := by decide +kernel

/-- 95_test_vectors.md A5, its first ten samples: filter 3, rounding away from zero. -/
theorem test_adpcm_a5 :
    ((adpcm ([0x36, 1, 1] ++ List.replicate 13 0)).samples.take 10).map BitVec.toInt =
      [64, 98, 95, 61, 12, -34, -63, -67, -48, -17] := by decide +kernel

/-- 95_test_vectors.md 2.2. -/
theorem test_rate_table : rateTable[35] = 7 ∧ rateTable[36] = 8 ∧ rateTable[143] = 0x38000000 ∧ rateTable[144] = 0x3FFFFFFF := by
  decide +kernel

/-- 95_test_vectors.md E5, without the release, which depends on `DBCORR`. -/
theorem test_makeAdsr_e5 :
    (fun f => (attackCount rateTable f, decayCount rateTable f, sustainCount rateTable f, releaseCount rateTable f))
        (unpackAdsr 0x808A 0xDFE7) = (1, (180, 0x57EFFFFF), none, 695) := by decide +kernel

/-- 95_test_vectors.md E9: the range error. -/
theorem test_adsr_range : (convAdsr { (unpackAdsr 0 0) with am := 2 } State.reset).2 = Adsr.default := by decide +kernel

/-- 95_test_vectors.md 2.4: the largest overshoot. -/
theorem test_cubic_overshoot : cubic (-1) 1 1 (-1) (1 / 2) = 5 / 4 := by decide +kernel

/-- 95_test_vectors.md M3, M4: one voice of P2 alone, whatever the free functions are. -/
theorem test_output_eighth : outputOf (1 / 8) = 4075 ∧ outputOf (1 / 4) = 8025 := by decide +kernel

/-- 95_test_vectors.md P2, frame 0. -/
theorem test_generateAudio_p2 : after (.generateAudio 1) playing
    (fun t => decide (t.result = .pcm [4075, 0] ∧ t.wp = 1 ∧ t.delayLine = [(0, 1 / 16)] ∧ (t.voice 0).cursor = 1)) = true := by
  decide +kernel

/-- 95_test_vectors.md M2. -/
theorem test_generateAudio_negative : after (.generateAudio (-3)) playing
    (fun t => decide (t.result = .pcm [] ∧ t.wp = 0)) = true := by decide +kernel

/-- 95_test_vectors.md 2.6, step 1, beside a voice that sounds: the least inactive voice. -/
theorem test_playNote_next : after (.playNote 0 0 1 1 true 0 61 0) playing
    (fun t => decide (t.result = .voiceId 1 ∧ (t.voice 1).active = true ∧ t.fm[1] = true ∧ (t.voice 0) = voiceP2)) = true := by
  decide +kernel

/-- 95_test_vectors.md 2.6, step 3. -/
theorem test_playNote_no_tone : after (.playNote 0 1 1 1 true 0 61 0) playing
    (fun t => decide (t.result = .voiceId (-1) ∧ t.voices = playing.voices)) = true := by decide +kernel

/-- 95_test_vectors.md 2.6, steps 6 and 8. -/
theorem test_stopVoice : after (.stopVoice 0) playing (fun t => decide ((t.voice 0).phase = .release)) = true ∧
    after (.stopVoice 200) playing (fun t => decide (t.voices = playing.voices)) = true := by decide +kernel

/-- 95_test_vectors.md 2.6, step 5. -/
theorem test_isSoundPlaying : after (.isSoundPlaying 0) playing (fun t => decide (t.result = .bool true)) = true ∧
    after (.isSoundPlaying 127) playing (fun t => decide (t.result = .bool false)) = true := by decide +kernel

/-- 95_test_vectors.md 2.5: `PanGains(2, -1) = (1, 0)`, `PanGains(1, 1) = (0, 1)`. -/
theorem test_setVoice3d : after (.setVoice3d 0 2 (-1)) playing
      (fun t => decide ((t.voice 0).volL = 1 ∧ (t.voice 0).volR = 0)) = true ∧
    after (.setVoice3d 0 1 1) playing (fun t => decide ((t.voice 0).volL = 0 ∧ (t.voice 0).volR = 1)) = true := by
  decide +kernel

/-- 43_pool_mixer.md R238 at a bend of six octaves' twelfths, where `pow2` is rational: `2^(6*2/12) = 2`. -/
theorem test_updateVoicePitch : after (.updateVoicePitch 0 6) playing
    (fun t => decide ((t.voice 0).pitch = 2 ∧ (t.voice 0).basePitch = 1)) = true := by decide +kernel

/-- 44_sequencer.md R318, R304 at the same bend. -/
theorem test_programPitchBend : after (.programPitchBend 0 (-6)) playing (fun t => decide ((t.voice 0).pitch = 1 / 2)) = true ∧
    after (.programPitchBend 128 1) playing (fun t => decide (t.voices = playing.voices)) = true := by decide +kernel

/-- 95_test_vectors.md Q5: the centre of the wheel. -/
theorem test_pb_centre : after (.pb 0 0 0x40) playing (fun t => decide ((t.voice 0).pitch = 1)) = true := by decide +kernel

/-- 95_test_vectors.md P3 step 4: only the key that is named is released. -/
theorem test_noteOff : after (.noteOff 0 60 0) playing (fun t => decide ((t.voice 0).phase = .release)) = true ∧
    after (.noteOff 0 64 0) playing (fun t => decide ((t.voice 0).phase = .sustain)) = true := by decide +kernel

/-- 95_test_vectors.md Q3, Q4b: velocity 127 at full volume, pan 0, one octave up. -/
theorem test_noteOn : after (.ccPan 0 0) playing (fun t => after (.noteOn 0 72 127) t
    (fun u => decide ((u.voice 1).volL = 1 ∧ (u.voice 1).volR = 0 ∧ (u.voice 1).pitch = 2 ∧ (u.voice 1).note = some 72))) = true := by
  decide +kernel

/-- 95_test_vectors.md P3 step 5: velocity 0 is a NoteOff. -/
theorem test_noteOn_velocity_zero : after (.noteOn 0 60 0) playing (fun t => decide ((t.voice 0).phase = .release)) = true := by
  decide +kernel

/-- 44_sequencer.md R302, R303. -/
theorem test_controllers : after (.ccVolume 3 100) playing (fun t => decide ((t.channel 0 3).volume = 100)) = true ∧
    after (.ccExpr 3 5) playing (fun t => decide ((t.channel 0 3).expression = 5)) = true ∧
    after (.pc 3 9) playing (fun t => decide ((t.channel 0 3).program = 9)) = true ∧
    exec (.ccOther 3 64 9) playing = .next playing := by
  refine ⟨?_, ?_, ?_, rfl⟩ <;> decide +kernel

/-- 44_sequencer.md R309 to R311. -/
theorem test_meta_events : after .eot (streaming []) (fun t => decide ((t.slot 0).cursor = 15 ∧ (t.slot 0).tempo = 500000)) = true ∧
    after (.tempo 3 0xD0 0x90) (streaming []) (fun t => decide ((t.slot 0).tempo = 250000)) = true ∧
    exec (.metaEvent 1 [2]) (streaming []) = .next (streaming []) := by
  refine ⟨?_, ?_, rfl⟩ <;> decide +kernel

/-- 95_test_vectors.md X1 to X3, X8: the slot stops and the record is appended. -/
theorem test_bad_events : ([.reservedA0 0, .reservedD0 0, .reservedF0 0, .tempo 0 0 0] : List Instr).all (fun i =>
    after i (streaming []) (fun t => decide (t.diag = [.seqBadEvent 0 15] ∧ (t.slot 0).buf = none ∧ (t.slot 0).tempo = 500000))) = true := by
  decide +kernel

/-- 95_test_vectors.md Q6c, P3 step 1. -/
theorem test_seqPlay : after (.seqPlay (testHeader ++ [0x83, 0x60, 0xFF, 0x2F]) 0) bank (fun t => decide (t.result = .slotId 0 ∧
    (t.slot 0).wait = 480 ∧ (t.slot 0).cursor = 17 ∧ (t.slot 0).tempo = 500000 ∧ (t.slot 0).resolution = 480)) = true := by
  decide +kernel

/-- 95_test_vectors.md Q6b. -/
theorem test_seqPlay_no_stream : after (.seqPlay testHeader 0) bank (fun t => decide (t.result = .slotId (-1) ∧
    t.diag = [.seqOverrun 0 15] ∧ t.slot 0 = Slot.reset)) = true := by decide +kernel

/-- 95_test_vectors.md Q2: half a second at 960 ticks a second, a wait not yet reached. -/
theorem test_seqUpdate_clock : after (.seqPlay (testHeader ++ [0x83, 0x61, 0xFF, 0x2F]) 0) bank (fun t =>
    after (.seqUpdate (1 / 2)) t (fun u => decide ((u.slot 0).acc = 480 ∧ (u.slot 0).cursor = 17))) = true := by decide +kernel

/-- 95_test_vectors.md P4 step 3: the NoteOff whose velocity is missing stops the slot and releases nothing. -/
theorem test_seqUpdate_overrun : after (.seqUpdate 0) (streaming [0x80, 0x3C]) (fun t => decide (t.diag = [.seqOverrun 0 17] ∧
    (t.slot 0).active = false ∧ (t.voice 0).phase = .sustain)) = true := by decide +kernel

/-- 44_sequencer.md R315 to R317. -/
theorem test_seqStop : after (.seqStop 0) (streaming []) (fun t => decide ((t.slot 0).buf = none)) = true ∧
    after .seqStopAll (streaming []) (fun t => decide ((t.slot 0).active = false ∧ (t.voice 0) = voiceP2)) = true ∧
    after (.seqIsPlaying 0) (streaming []) (fun t => decide (t.result = .bool true)) = true ∧
    after (.seqIsPlaying 16) (streaming []) (fun t => decide (t.result = .bool false)) = true := by decide +kernel

/-- The header of the bank of P1 and P2 (95_test_vectors.md part 3), as its first `length` bytes, at most 2596. -/
def headerP1 (length : Nat) : Bytes :=
  (List.replicate 18 0 ++ [1, 0, 0, 0, 1, 0, 0x7F] ++ List.replicate 7 0 ++ [1, 0x7F] ++ List.replicate 2048 0 ++
    [0x7F, 0, 0x3C, 0, 0, 0x7F] ++ List.replicate 8 0 ++ [0xFF, 0x80, 0xC0, 0x5F, 0, 0, 1] ++ List.replicate 491 0 ++ [2, 0]).take length

/-- The body of P2: one block of `4096`, looped. -/
def bodyP2 : Bytes := [0, 3] ++ List.replicate 14 0x11

/-- 95_test_vectors.md P2: the bank that gives the tone above; the envelope's release depends on `DBCORR`. -/
theorem test_bankLoad_p2 : after (.bankLoad (headerP1 2596) bodyP2) playing (fun t => decide (t.result = .bool true ∧ t.bankMaster = 127 ∧
    (t.program 0).tones.map (fun x => (x.data, x.loop, x.volume, x.maxNote, x.adsr.attack)) =
      [(toneP2.data, true, 127, 127, 1 / 44100)] ∧ (t.voice 0).active = false)) = true := by decide +kernel

/-- 95_test_vectors.md B3: the length 2595. -/
theorem test_bankLoad_short : after (.bankLoad (headerP1 2595) bodyP2) playing (fun t => decide (t.result = .bool false ∧
    (t.program 0).tones = [] ∧ (t.voice 0).active = false)) = true := by decide +kernel

/-- 95_test_vectors.md P7 step 1. -/
theorem test_bankUnloadAll : after .bankUnloadAll (streaming []) (fun t => decide ((t.voice 0).tone = none ∧
    (t.program 0).tones = [] ∧ (t.slot 0).active = true)) = true := by decide +kernel

/-- 45_bank_loader.md R358. -/
theorem test_isProgramPopulated : after (.isProgramPopulated 0) bank (fun t => decide (t.result = .bool true)) = true ∧
    after (.isProgramPopulated 128) bank (fun t => decide (t.result = .bool false)) = true := by decide +kernel

/-- 95_test_vectors.md 2.9. -/
theorem test_fixups : toneVolume 64 1 = 100 ∧ toneVolume 127 126 = 126 ∧ toneVolume 255 255 = 127 ∧ noteRange 100 10 = (10, 100) ∧
    noteRange 200 0 = (127, 200) ∧ tableAddress 128 = 67618 := by decide

/-! ### Placing an instruction, and the step that runs it -/

/-- A command word: the step after reset runs `BANK_UNLOAD_ALL`. -/
theorem test_step_command : (nextOf (step (State.reset.withFetchWord 8 0x21))).map (fun t => (t.port, t.bankMaster, t.result)) = some ([], 127, .none) := by
  decide +kernel

/-- An event word, `CC_VOLUME` on channel 5: its value byte is 0. -/
theorem test_step_event : (nextOf (step (State.reset.withFetchWord 16 0xB507))).map (fun t => (t.channel 0 5).volume) = some 0 := by
  decide +kernel

/-- The reserved status of 95_test_vectors.md X1. -/
theorem test_step_reserved : (nextOf (step (State.reset.withFetchWord 8 0xA0))).map State.diag = some [.seqBadEvent 0 16] := by
  decide +kernel

/-- 20_memory.md R73 (c): nothing happens without a command. -/
theorem test_step_idle : step State.reset = .next State.reset := by rfl

/-- 30_encoding.md R112: a code of no row is refused. -/
theorem test_step_unknown : step (State.reset.withPort [{ code := 0x07, args := [] }]) = .refused (.unknownCommand 0x07) := by
  rfl

/-! ### Witnesses: concrete inputs that meet the hypotheses of each obligation -/

theorem witness_DecodeEncodeRoundTrip : (Instr.ccOther 15 127 127).wellFormed = true ∧ (Instr.seqUpdate 0).wellFormed = true := by
  decide +kernel

theorem witness_EventDecodesInStream : (Instr.pb 1 0 127).wellFormed = true ∧ encode (.pb 1 0 127) = .stream [0xE1, 0x00, 0x7F] := by
  decide

theorem witness_RunningStatusDecodes : (Instr.noteOn 15 127 0).wellFormed = true ∧
    encode (.noteOn 15 127 0) = .stream (0x9F :: 0x7F :: [0x00]) ∧ (0x7F : Byte) < 0x80 := by decide

theorem witness_BadBytesRefused : (0x7F : Byte) < 0x80 ∧ (0xEF : Byte) >>> 4 ∈ ([0x8, 0x9, 0xB, 0xC, 0xE] : Bytes) ∧
    (0x80 : Byte) ≤ 0x80 ∧ (0x8F : Byte) >>> 4 ∈ ([0x8, 0x9, 0xB, 0xE] : Bytes) ∧ (0x80 : Byte) ≤ 0xFF ∧
    ([0x07, 0xA1] : Bytes).length < 3 ∧ ([] : Bytes).length < 3 ∧ (0x00 : Byte) ≠ 0x2F ∧ (0x00 : Byte) ≠ 0x51 ∧
    (List.replicate 254 (0 : Byte)).length < (0xFF : Byte).toNat ∧ ([] : Bytes).length < (0x01 : Byte).toNat ∧
    (0x80 : Byte) ≤ 0xFF := by decide +kernel

theorem witness_VlqRoundTrip : 0x0FFFFFFF < 2 ^ 28 ∧ 0 < 2 ^ 28 := by decide

theorem witness_VlqDecodes : (List.replicate 3 (127 : BitVec 7)).length ≤ 3 ∧ (List.replicate 4 (0 : BitVec 7)).length = 4 ∧
    ([] : List (BitVec 7)).length ≤ 3 := by decide

theorem witness_DecodedInstructionsWellFormed :
    (decodeEvent 0xB0 [0x0C, 0x7F]).result = .ok (.ccOther 0 12 127) ∧
    decodeCommand { code := 0x11, args := [.real 0] } = .ok (.seqUpdate 0) := by decide +kernel

theorem witness_CommandEncodingUnique : decodeCommand { code := 0x31, args := [.word 0xFFFF, .word 0] } = .ok (.makeAdsr 0xFFFF 0) := by
  decide

theorem witness_EventEncodingUnique : (0x80 : Byte) ≤ ([0xFF, 0x01, 0x01, 0x99, 0x00] : Bytes).headD 0 ∧
    (decodeEvent 0 [0xFF, 0x01, 0x01, 0x99, 0x00]).result = .ok (.metaEvent 1 [0x99]) := by decide

theorem witness_StepRunsPortCommand : (Instr.stopVoice 126).wellFormed = true ∧
    encode (.stopVoice 126) = .port { code := 0x02, args := [.int 126] } ∧
    (playing.withPort [{ code := 0x02, args := [.int 126] }]).port = { code := 0x02, args := [.int 126] } :: [] ∧
    playing.port = [] := by decide

theorem witness_StepRefusesOnlyNonCommands :
    step (playing.withPort [{ code := 0x02, args := [] }]) = .refused (.illTypedCommand 0x02) := by rfl

theorem witness_ExecTotal : ∀ n, Instr.seqUpdate 1 ≠ .generateAudio n := by intro n h; cases h

/-- Slot 0 with a NoteOff due, and a delay of 96 ticks after it. -/
def dueNoteOff : State := (streaming [0x80, 0x3C, 0x00, 0x60]).withPort [{ code := 0x11, args := [.real 0] }]

theorem witness_TurnRunsDecodedEvent :
    (decodeEvent (dueNoteOff.slot 0).running (dueNoteOff.slot 0).stream).result = .ok (.noteOff 0 60 0) := by decide +kernel

/-- The delays of every kind: of two bytes, cut short, of four bytes with bit 7 set, and past the end. -/
theorem witness_TurnRunsDecodedEvent_delay :
    decodeVlq ((streaming [0x83, 0x60]).slot 0).stream = { used := 2, result := .ok 480 } ∧
    decodeVlq ((streaming [0x81]).slot 0).stream = { used := 1, result := .error (.overrun 1) } ∧
    decodeVlq ((streaming [0x81, 0x80, 0x80, 0x80]).slot 0).stream = { used := 4, result := .error (.badEvent 4) } ∧
    decodeVlq ((streaming []).slot 0).stream = { used := 0, result := .error (.overrun 0) } ∧
    ((streaming [0x83, 0x60]).slot 0).buf = some (testHeader ++ [0x83, 0x60]) := by decide +kernel

/-- 95_test_vectors.md X10, from the event on: the controller is set, then the second byte of the delay is missing. -/
theorem witness_TurnRunsDecodedEvent_x10 : after (.seqUpdate 0) (streaming [0xB0, 0x07, 0x40, 0x81]) (fun t =>
    decide ((t.channel 0 0).volume = 64 ∧ t.diag = [.seqOverrun 0 19] ∧ (t.slot 0).active = false ∧ (t.slot 0).cursor = 19)) = true := by
  decide +kernel

theorem witness_StepRunsDueEvent : dueNoteOff.port = { code := 0x11, args := [.real 0] } :: [] ∧
    (∀ l : Fin 16, (dueNoteOff.slot l).active = true ↔ l = 0) ∧ ((dueNoteOff.slot 0).wait : NumQ) ≤ (dueNoteOff.slot 0).acc ∧
    (decodeEvent (dueNoteOff.slot 0).running (dueNoteOff.slot 0).stream).result = .ok (.noteOff 0 60 0) ∧
    (((dueNoteOff.withPort []).stepEvent 0).slot 0).acc < ((((dueNoteOff.withPort []).stepEvent 0).slot 0).wait : NumQ) := by
  decide +kernel

/-- The other two ends of such a step: an event that stops its slot, and a next delay that cannot be read. -/
theorem witness_StepRunsDueEvent_stops :
    after (.reservedA0 0) (streaming [0xA0]) (fun t => decide ((t.slot 0).active = false)) = true ∧
    after (.ccVolume 0 64) (streaming [0x81]) (fun t => decide ((t.slot 0).active = true ∧
      decodeVlq (t.slot 0).stream = { used := 1, result := .error (.overrun 1) })) = true := by decide +kernel

theorem witness_TurnTakesStreamException :
    (decodeEvent ((streaming [0x80, 0x3C]).slot 0).running ((streaming [0x80, 0x3C]).slot 0).stream).result = .error (.overrun 2) ∧
    (decodeEvent ((streaming [0x3C]).slot 0).running ((streaming [0x3C]).slot 0).stream).result = .error (.badEvent 0) := by
  decide +kernel

theorem witness_CatchUpLoop : (dueNoteOff.slot 0).active = true ∧ (dueNoteOff.slot 1).active = false := by decide

/-- `bank` with a second tone in program 0, from key 61 on. -/
def splitBank : State := State.reset.setProgram 0 { tones := [toneP2, { toneP2 with minNote := 61 }] }

theorem witness_NoteOnLayers : (1 : BitVec 7) ≠ 0 ∧
    (splitBank.program (splitBank.channel splitBank.curSlot 0).program.toNat).tones[0]? = some toneP2 ∧
    toneP2.minNote.toNat ≤ (60 : BitVec 7).toNat ∧ (60 : BitVec 7).toNat ≤ toneP2.maxNote.toNat ∧
    (splitBank.program (splitBank.channel splitBank.curSlot 0).program.toNat).tones[1]? = some { toneP2 with minNote := 61 } ∧
    ¬ (({ toneP2 with minNote := 61 } : Tone).minNote.toNat ≤ (60 : BitVec 7).toNat) := by decide +kernel

theorem witness_ChannelRegistersSet : Instr.ccVolume 15 127 = .ccVolume 15 127 ∧ Instr.ccPan 0 0 = .ccPan 0 0 ∧
    Instr.ccExpr 3 1 = .ccExpr 3 1 ∧ Instr.pc 15 127 = .pc 15 127 := by decide

theorem witness_ProgramBends : (0 : Int) ≤ 0 ∧ (127 : Int) ≤ 127 ∧ ((-1 : Int) < 0 ∨ (127 : Int) < -1) ∧ ((128 : Int) < 0 ∨ (127 : Int) < 128) := by
  decide

theorem witness_EndOfTrackAndTempo : 65536 * (0 : Byte).toNat + 256 * (0 : Byte).toNat + (1 : Byte).toNat ≠ 0 := by decide

theorem witness_UndecodableEventsRaise : Instr.reservedF0 14 ∈ [Instr.reservedA0 14, .reservedD0 14, .reservedF0 14, .tempo 0 0 0] ∧
    Instr.tempo 0 0 0 ∈ [Instr.reservedA0 14, .reservedD0 14, .reservedF0 14, .tempo 0 0 0] := by decide

theorem witness_EventsTouchOwnSlot : Instr.eot.isEvent = true ∧ ∃ t, exec .eot dueNoteOff = .next t := ⟨rfl, _, rfl⟩

/-- Every voice sounds, none of them in Release. -/
def fullPool : State := bank.mapVoices (fun _ => voiceP2)

/-- Every voice sounds, voice 126 alone in Release. -/
def releasingPool : State := fullPool.setVoice 126 { voiceP2 with phase := .release }

theorem witness_PlayNotePlays_idle : (playing.program (0 : Int).toNat).tones[(0 : Int).toNat]? = some toneP2 ∧
    1 ≤ toneP2.data.length ∧ toneP2.synthetic = false ∧ (playing.voice 1).active = false ∧
    (∀ j < (1 : Fin 127), (playing.voice j).active = true) := by decide +kernel

theorem witness_PlayNotePlays_release : (releasingPool.program (0 : Int).toNat).tones[(0 : Int).toNat]? = some toneP2 ∧
    (∀ j, (releasingPool.voice j).active = true) ∧ (releasingPool.voice 126).phase = .release ∧
    (∀ j < (126 : Fin 127), (releasingPool.voice j).phase ≠ .release) := by decide +kernel

theorem witness_PlayNotePlays_steal : (∀ j, (fullPool.voice j).active = true) ∧
    (∀ j, (fullPool.voice j).phase ≠ .release) ∧ fullPool.stealCursor = 0 := by decide +kernel

theorem witness_PlayNotePlays : (fullPool.program (0 : Int).toNat).tones[(0 : Int).toNat]? = some toneP2 ∧ 1 ≤ toneP2.data.length ∧
    toneP2.synthetic = false ∧ (0 : Int) ≤ 0 ∧ (0 : Int) ≤ 127 := by decide +kernel

theorem witness_PlayNoteUnplayable : ¬ ((0 : Int) ≤ -1 ∧ (-1 : Int) ≤ 127 ∧ (0 : Int) ≤ 0 ∧
    ∃ T, (bank.program (-1 : Int).toNat).tones[(0 : Int).toNat]? = some T ∧ 1 ≤ T.data.length ∧ T.synthetic = false) :=
  fun h => absurd h.1 (by decide)

theorem witness_StopVoiceReleases : ((-1 : Int) < 0 ∨ (126 : Int) < -1) ∧ ((127 : Int) < 0 ∨ (126 : Int) < 127) := by decide

theorem witness_SetVoice3dGains : (127 : Int) < 0 ∨ (126 : Int) < 127 := by decide

theorem witness_VoicePitchBends : (∃ t, exec (.updateVoicePitch ((126 : Fin 127) : Nat) 6) playing = .next t) ∧
    (∃ t, exec (.updateVoicePitch ((0 : Fin 127) : Nat) 0) playing = .next t) ∧ ((127 : Int) < 0 ∨ (126 : Int) < 127) :=
  ⟨⟨_, rfl⟩, ⟨_, rfl⟩, by decide⟩

theorem witness_QueriesAnswer : ((127 : Int) < 0 ∨ (126 : Int) < 127) ∧ ((16 : Int) < 0 ∨ (15 : Int) < 16) ∧
    ((128 : Int) < 0 ∨ (127 : Int) < 128) := by decide

theorem witness_FrameVoices : Voice.reset.active = false ∧
    ({ voiceP2 with phase := .release, env := 0 } : Voice).active = true ∧
    (envelopeStep toneP2.adsr (1 / 44100) { voiceP2 with phase := .release, env := 0 }).active = false ∧
    voiceP2.active = true ∧ (envelopeStep toneP2.adsr (1 / 44100) voiceP2).active = true := by decide +kernel

/-- `playing` with an entry of the delay line at `wp`. -/
def echoing : State := { playing with delayLine := [(0, 1 / 2), (15434, 1)] }

theorem witness_FrameReverb : echoing.LineOk := by unfold State.LineOk; decide +kernel

theorem witness_GenerateAudioRenders : ∀ i : Fin 127, (playing.voice i).active = true → ∃ r T, (playing.voice i).tone = some r ∧
    playing.toneAt r = some T ∧ 1 ≤ T.data.length ∧ T.synthetic = false := by
  intro i h
  have e : playing.voice i = if 0 = i then voiceP2 else bank.voice i := voice_setVoice ..
  have hb : bank.voice i = Voice.reset := voice_reset i
  split at e
  · rw [e]; exact ⟨⟨0, 0⟩, toneP2, rfl, by decide +kernel, by decide, rfl⟩
  · rw [e, hb] at h; cases h

theorem witness_AttackRamp : 1 ≤ 4410 ∧ (⟨4410 / 44100, 0, 1, 0⟩ : Adsr).attack = ((4410 : Nat) : NumQ) / 44100 ∧
    (armedVoice ⟨0, 0⟩ 1 1 0 60 0).phase = .attack ∧ (armedVoice ⟨0, 0⟩ 1 1 0 60 0).env = 0 := by decide +kernel

theorem witness_EnvelopeSteps : (0 : NumQ) ≤ 1 / 44100 ∧ 0 ≤ toneP2.adsr.decay ∧ 0 ≤ toneP2.adsr.release ∧
    (∀ r, ({ voiceP2 with relOverride := some 0 } : Voice).relOverride = some r → (0 : NumQ) ≤ r) ∧
    ({ voiceP2 with phase := .attack, env := 1 / 3 } : Voice).phase = .attack ∧
    ({ voiceP2 with phase := .decay } : Voice).phase = .decay ∧ voiceP2.phase = .sustain ∧
    ({ voiceP2 with phase := .release } : Voice).phase = .release ∧ Voice.reset.phase = .idle := by
  refine ⟨by decide +kernel, by decide +kernel, by decide +kernel, fun r h => ?_, rfl, rfl, rfl, rfl, rfl⟩
  cases h; exact le_refl 0

theorem witness_EndOfData : 1 ≤ toneP2.data.length ∧ (0 : NumQ) ≤ ({ voiceP2 with cursor := 28 } : Voice).cursor ∧
    ({ voiceP2 with cursor := 27 } : Voice).cursor < (toneP2.data.length : NumQ) ∧
    (toneP2.data.length : NumQ) ≤ ({ voiceP2 with cursor := 28 } : Voice).cursor ∧ toneP2.loop = true ∧
    ({ toneP2 with loop := false } : Tone).loop = false ∧ ({ voiceP2 with cursor := -1 / 2 } : Voice).cursor < 0 := by decide +kernel

theorem witness_CubicShape : (0 : NumQ) ≤ 1 ∧ (1 : NumQ) ≤ 1 ∧ |(-1 : NumQ)| ≤ 1 ∧ |(1 : NumQ)| ≤ 1 := by decide +kernel

theorem witness_SeqPlayAccepts : 15 ≤ (testHeader ++ [0x7F]).length ∧ (testHeader ++ [0x7F]).take 4 = [0x70, 0x51, 0x45, 0x53] ∧
    (testHeader ++ [0x7F]).getD 7 0 = 1 ∧
    65536 * ((testHeader ++ [0x7F]).getD 10 0).toNat + 256 * ((testHeader ++ [0x7F]).getD 11 0).toNat +
      ((testHeader ++ [0x7F]).getD 12 0).toNat ≠ 0 ∧
    (dueNoteOff.slot 1).active = false ∧ (∀ l < (1 : Fin 16), (dueNoteOff.slot l).active = true) ∧
    (decodeVlq ((testHeader ++ [0x7F]).drop 15)).result = .ok 127 := by decide +kernel

theorem witness_SeqPlayRejects : (testHeader.take 14).length < 15 ∧ (0x71 :: testHeader.drop 1).take 4 ≠ [0x70, 0x51, 0x45, 0x53] ∧
    (testHeader.set 7 0).getD 7 0 ≠ 1 ∧
    65536 * ((testHeader.take 10 ++ [0, 0, 0, 0x7F, 0]).getD 10 0).toNat + 256 * ((testHeader.take 10 ++ [0, 0, 0, 0x7F, 0]).getD 11 0).toNat +
      ((testHeader.take 10 ++ [0, 0, 0, 0x7F, 0]).getD 12 0).toNat = 0 ∧
    (∀ k, ((dueNoteOff.mapSlots fun x => { x with active := true }).slot k).active = true) := by decide +kernel

theorem witness_SeqPlayDelayFails : 15 ≤ testHeader.length ∧ testHeader.take 4 = [0x70, 0x51, 0x45, 0x53] ∧ testHeader.getD 7 0 = 1 ∧
    65536 * (testHeader.getD 10 0).toNat + 256 * (testHeader.getD 11 0).toNat + (testHeader.getD 12 0).toNat ≠ 0 ∧
    (dueNoteOff.slot 1).active = false ∧ (∀ l < (1 : Fin 16), (dueNoteOff.slot l).active = true) ∧
    (decodeVlq (testHeader.drop 15)).result = .error (.overrun 0) ∧
    (decodeVlq ((testHeader ++ [0x81, 0x80, 0x80, 0x80]).drop 15)).result = .error (.badEvent 4) := by decide +kernel

/-- Slot 0 with its next event 481 ticks away. -/
def waiting : State := bank.setSlot 0 { dueNoteOff.slot 0 with wait := 481 }

theorem witness_SeqUpdateAdvancesClocks : (waiting.slot 0).active = true ∧ ∀ k : Fin 16, (waiting.slot k).active = true →
    (waiting.slot k).acc + 1 / 2 * (1000000 * ((waiting.slot k).resolution.toNat : NumQ) / ((waiting.slot k).tempo.toNat : NumQ)) <
      ((waiting.slot k).wait : NumQ) := by decide +kernel

/-- Slot 0 on the stream `00 FF 2F` after its first delay (95_test_vectors.md, the cap). -/
def looping : State := bank.setSlot 0 { dueNoteOff.slot 0 with buf := some (testHeader ++ [0x00, 0xFF, 0x2F]), cursor := 16 }

theorem witness_ZeroDelayLoopIsBounded : testHeader.length = 15 ∧ (∀ l, (looping.slot l).active = true ↔ l = 0) ∧
    (looping.slot 0).cursor = 16 ∧ (looping.slot 0).running = 0 ∧ (looping.slot 0).wait = 0 ∧ (looping.slot 0).acc = 0 ∧
    (looping.slot 0).buf = some (testHeader ++ [0x00, 0xFF, 0x2F]) := by decide +kernel

/-- Slot 0 on a stream of exactly as many controller events, no delay between them, as the cap lets one update take. -/
def bursting : State := bank.setSlot 0 { dueNoteOff.slot 0 with
  buf := some (testHeader ++ [0x00] ++ (List.replicate Config.maxEventsPerUpdate ([0xB0, 0x40, 0x00, 0x00] : Bytes)).flatten)
  cursor := 16 }

theorem witness_ZeroDelayLoopIsBounded_counted : (∀ l, (bursting.slot l).active = true ↔ l = 0) ∧
    (bursting.slot 0).cursor = 16 ∧ (bursting.slot 0).running = 0 ∧ (bursting.slot 0).wait = 0 ∧ (bursting.slot 0).acc = 0 ∧
    (bursting.slot 0).buf =
      some (testHeader ++ [0x00] ++ (List.replicate Config.maxEventsPerUpdate ([0xB0, 0x40, 0x00, 0x00] : Bytes)).flatten) ∧
    Config.maxEventsPerUpdate ≤ Config.maxEventsPerUpdate := by
  refine ⟨fun l => ?_, rfl, rfl, rfl, rfl, rfl, le_refl _⟩
  have e : bursting.slot l = if 0 = l then bursting.slot 0 else bank.slot l := slot_setSlot ..
  rw [e, show bank.slot l = Slot.reset from slot_reset l]
  split
  · next h => exact ⟨fun _ => h.symm, fun _ => rfl⟩
  · next h => exact ⟨fun ha => Bool.noConfusion ha, fun hl => absurd hl.symm h⟩

theorem witness_SeqStops : ((-1 : Int) < 0 ∨ (15 : Int) < -1) ∧ ((16 : Int) < 0 ∨ (15 : Int) < 16) := by decide

theorem witness_BankLoadFails : (headerP1 2079).length < 2080 ∧
    ((List.replicate 2080 (0 : Byte)).getD 18 0).toNat + 256 * ((List.replicate 2080 (0 : Byte)).getD 19 0).toNat = 0 ∧
    (headerP1 2595).length < 2080 + (((headerP1 2595).getD 18 0).toNat + 256 * ((headerP1 2595).getD 19 0).toNat) * 512 + 2 +
      2 * (((headerP1 2595).getD 22 0).toNat + 256 * ((headerP1 2595).getD 23 0).toNat) := by decide +kernel

theorem witness_BankLoadFills : playing.TableOk ∧ 1 = ((headerP1 2596).getD 18 0).toNat + 256 * ((headerP1 2596).getD 19 0).toNat ∧
    1 = ((headerP1 2596).getD 22 0).toNat + 256 * ((headerP1 2596).getD 23 0).toNat ∧ 2080 ≤ (headerP1 2596).length ∧
    2080 + 1 * 512 + 2 + 2 * 1 ≤ (headerP1 2596).length := by
  refine ⟨fun h => Bool.noConfusion h, ?_⟩
  decide +kernel

/-- Both cases of the rate table: a load that converts a tone, and one whose only VAG is skipped for want of a body. -/
theorem witness_BankLoadFills_table :
    after (.bankLoad (headerP1 2596) bodyP2) playing (fun t => decide ((t.program 0).tones ≠ [] ∧ t.rtBuilt = true)) = true ∧
    after (.bankLoad (headerP1 2596) []) playing
      (fun t => (List.range 128).all (fun p => decide ((t.program p).tones = [])) && decide (t.rtBuilt = false)) = true := by decide +kernel

theorem witness_AdpcmFilterZero : 55 < (adpcm (List.replicate 16 0 ++ bodyP2)).samples.length ∧ (List.replicate 14 (0x78 : Byte)).length = 14 ∧ (0x0F : Byte).extractLsb' 4 4 = 0 ∧
    5 ≤ ((0x5D : Byte).extractLsb' 4 4).toNat := by decide +kernel

theorem witness_AdpcmFraming : 16 ∣ bodyP2.length ∧ (List.replicate 15 (0 : Byte)).length < 16 ∧ bodyP2.length = 16 * (0 + 1) ∧
    (bodyP2.getD (16 * 0 + 1) 0).getLsbD 0 = true ∧ (List.replicate 16 0 ++ bodyP2).length = 16 * (1 + 1) ∧
    (∀ b < 1, ((List.replicate 16 0 ++ bodyP2).getD (16 * b + 1) 0).getLsbD 0 = false) ∧
    ((List.replicate 16 0 ++ bodyP2).getD (16 * 1 + 1) 0).getLsbD 0 = true ∧
    (∀ b < (List.replicate 33 (0 : Byte)).length / 16, ((List.replicate 33 (0 : Byte)).getD (16 * b + 1) 0).getLsbD 0 = false) := by
  decide +kernel

theorem witness_MakeAdsrAnswers : playing.TableOk ∧ playing.ensureTable.TableOk :=
  ⟨fun h => Bool.noConfusion h, fun _ => rfl⟩

theorem witness_PanNearMathematical : (0 : NumQ) ≤ 1 ∧ (1 : NumQ) ≤ 1 ∧ (0 : NumQ) ≤ 64 / 127 ∧ (64 / 127 : NumQ) ≤ 1 := by decide +kernel

theorem dueNoteOff_voicesOk : dueNoteOff.VoicesOk := by
  have hr : bank.VoicesOk := fun i => by
    rw [show bank.voice i = Voice.reset from voice_reset i]
    exact ⟨reset_voice_ok, fun h => Bool.noConfusion h⟩
  have hg : voiceP2.Ok := ⟨by decide, by decide +kernel, by decide +kernel, by decide +kernel, by decide +kernel, by decide +kernel,
    fun r h => by cases h⟩
  have hl : bank.VoiceLive voiceP2 := fun _ => ⟨⟨0, 0⟩, toneP2, rfl, by decide +kernel, rfl, by decide +kernel⟩
  exact voicesOk_congr (s := playing) rfl rfl (voicesOk_setVoice hr 0 voiceP2 hg hl)

theorem dueNoteOff_ok : dueNoteOff.Ok := by
  refine ⟨dueNoteOff_voicesOk, fun p => ?_, fun k => ?_, fun h => Bool.noConfusion h, rfl⟩
  · have e : dueNoteOff.program p = if (0 : Fin 128).val = p.val then { tones := [toneP2] } else State.reset.program p :=
      program_setProgram ..
    rw [program_reset] at e
    rw [e]
    split
    · refine ⟨by decide, fun t ht => ?_⟩
      rw [List.mem_singleton] at ht
      subst ht
      exact ⟨by decide, by decide, by decide +kernel, by decide, by decide, by decide +kernel, by decide +kernel, by decide +kernel,
        by decide +kernel, by decide +kernel, by decide, rfl⟩
    · exact ⟨by decide, fun t ht => by cases ht⟩
  · have e : dueNoteOff.slot k = if 0 = k then dueNoteOff.slot 0 else Slot.reset := by
      have h : dueNoteOff.slot k = if 0 = k then _ else bank.slot k := slot_setSlot ..
      rw [h, show bank.slot k = Slot.reset from slot_reset k]
      rfl
    rw [e]
    split
    · refine ⟨by decide, fun b hb => ?_, by decide, fun b hb => ?_, by decide, by decide +kernel, by decide, by decide,
        initial_channel_ok⟩ <;> cases hb <;> decide
    · exact ⟨by decide, fun b hb => (by cases hb), by decide, fun b hb => (by cases hb), by decide, by decide +kernel, by decide, by decide,
        initial_channel_ok⟩

theorem witness_StepKeepsOk : dueNoteOff.Ok ∧ ∃ t, step dueNoteOff = .next t := ⟨dueNoteOff_ok, _, rfl⟩

theorem witness_StepIsSafe : dueNoteOff.VoicesOk := dueNoteOff_voicesOk

theorem witness_MemoriesHaveOneWriter : (∃ t, exec (.stopVoice 0) playing = .next t) ∧ (∀ h b, Instr.stopVoice 0 ≠ .bankLoad h b) ∧
    Instr.stopVoice 0 ≠ .bankUnloadAll ∧ ∀ n, Instr.stopVoice 0 ≠ .generateAudio n :=
  ⟨⟨_, rfl⟩, fun _ _ h => Instr.noConfusion h, fun h => Instr.noConfusion h, fun _ h => Instr.noConfusion h⟩

end Sys2Proof.Tests
end

/-! ## Steps: the command at the head of the port, and the event that is due (00_scope.md R12) -/

namespace Sys2Proof.Proofs
section Steps

open Sys2Proof Sys2Proof.Machine

/-! ### The command at the head of the port -/

/-- A 7-bit operand reads back as itself (30_encoding.md R112). -/
theorem toNote_toNat (d : BitVec 7) : toNote (d.toNat : Int) = some d := by
  have hrange : (0 : Int) ≤ d.toNat ∧ (d.toNat : Int) ≤ 127 := by omega
  rw [toNote, if_pos hrange]
  simp

/-- The command decoder inverts the encoder. Only two commands constrain an operand's value: `PLAY_NOTE` its two
7-bit operands, `SEQ_UPDATE` its time (30_encoding.md R112). -/
theorem decodeCommand_of_encode {i : Instr} {x : Transaction} (hwf : i.wellFormed = true) (h : encode i = .port x) :
    decodeCommand x = .ok i := by
  cases i with
  | playNote p t pitch volume fm pan note prog =>
    cases h
    simp [decodeCommand, noteOperand, toNote_toNat]
  | seqUpdate dt =>
    cases h
    have hdt : 0 ≤ dt := of_decide_eq_true hwf
    simp [decodeCommand, hdt]
  | _ => cases h <;> rfl

theorem step_of_decodeCommand {s : State} {x : Transaction} {rest : List Transaction} {i : Instr}
    (hport : s.port = x :: rest) (hx : decodeCommand x = .ok i) : step s = exec i (s.withPort rest) := by
  unfold step
  simp only [hport, hx]

theorem step_of_port_nil {s : State} (hport : s.port = []) : step s = .next s := by
  unfold step
  simp only [hport]

/-- Settles O11: the transaction that encodes a command decodes to it again, so the step runs that command. -/
theorem stepRunsPortCommand : Obligations.StepRunsPortCommand :=
  ⟨fun _ _ _ _ hwf henc hport => step_of_decodeCommand hport (decodeCommand_of_encode hwf henc),
    fun _ hport => step_of_port_nil hport⟩

/-! ### The event that is due -/

/-- A turn whose bytes decode to the event `i` is the event's `exec` on the slot past those bytes and, if that leaves
the slot Active, the reading of the next delay (44_sequencer.md R286). -/
theorem stepEvent_of_decoded {s t : State} {k : Fin 16} {i : Instr} {f : EventFetch}
    (hf : decodeEvent (s.slot k).running (s.slot k).stream = f) (hi : f.result = .ok i)
    (ht : exec i ((s.setSlot k { s.slot k with
      acc := (s.slot k).acc - ((s.slot k).wait : NumQ), cursor := (s.slot k).cursor + f.used
      running := f.running }).forSlot k) = .next t) :
    s.stepEvent k =
      if (t.slot k).active = true then (t.forSlot s.curSlot).readDelay k else t.forSlot s.curSlot := by
  have hfetch : (s.setSlot k (s.slot k).spend).fetchEvent k = f := by
    rw [State.fetchEvent, slot_setSlot_self]; exact hf
  have hpass : (s.setSlot k (s.slot k).spend).passEvent k f = s.setSlot k { s.slot k with
      acc := (s.slot k).acc - ((s.slot k).wait : NumQ), cursor := (s.slot k).cursor + f.used
      running := f.running } := by
    rw [State.passEvent, slot_setSlot_self, setSlot_setSlot]; rfl
  have hevent : (s.setSlot k (s.slot k).spend).execEventAt k = t.forSlot s.curSlot := by
    rcases execEventAt_cases (s.setSlot k (s.slot k).spend) k with ⟨j, u, hj, -, hu, h⟩ | ⟨e, he, -⟩
    · rw [hfetch, hi] at hj
      cases hj
      rw [hfetch, hpass, ht] at hu
      cases hu
      exact h
    · rw [hfetch, hi] at he; cases he
  rw [State.stepEvent, hevent]; rfl

theorem due_eq_false_of_idle_or_waiting {x : Slot} (h : x.active = false ∨ x.acc < (x.wait : NumQ)) :
    x.due = false := by
  rcases h with h | h <;> simp [Slot.due, h]

/-- An update by 0 is one turn of slot `k`, where `k` alone is Active, an event of it is due, and none after that. -/
theorem exec_seqUpdate_zero_of_single_turn {s : State} {k : Fin 16}
    (hact : ∀ l : Fin 16, (s.slot l).active = true ↔ l = k) (hdue : ((s.slot k).wait : NumQ) ≤ (s.slot k).acc)
    (hlast : ((s.stepEvent k).slot k).due = false) :
    exec (.seqUpdate 0) s = .next ((s.stepEvent k).withResult .none) := by
  have hactk : (s.slot k).active = true := (hact k).2 rfl
  have hidle : ∀ l, l ≠ k → (s.slot l).active = false := fun l hl =>
    Bool.eq_false_iff.2 fun h => hl ((hact l).1 h)
  have hadvance : (s.slot k).advance 0 = s.slot k := by simp [Slot.advance]
  have hturn : catchUp k Config.maxEventsPerUpdate s = s.stepEvent k := by
    rw [Config.maxEventsPerUpdate, catchUp]; simp [hlast]
  have hupdate : updateSlot 0 s k = s.stepEvent k := by
    rw [updateSlot, if_pos hactk, hadvance, setSlot_slot, ← hturn]
    exact if_pos ((due_iff _).2 ⟨hactk, hdue⟩)
  rw [exec_seqUpdate, updateSlots_single 0 s k hidle, hupdate]

/-- Settles O15: the state `u` is the one after the single turn that the update takes; the three clauses about it are
the three ends of that turn's reading of the next delay. -/
theorem stepRunsDueEvent : Obligations.StepRunsDueEvent := by
  intro s k rest i f hport hact hdue hf hi
  have hevent : i.isEvent = true := decodeEvent_isEvent _ _ i (by rw [hf]; exact hi)
  obtain ⟨t, ht⟩ := exec_event_next i hevent { s with
    port := rest
    curSlot := k
    slots := s.slots.set k { s.slot k with
      acc := (s.slot k).acc - ((s.slot k).wait : NumQ), cursor := (s.slot k).cursor + f.used
      running := f.running } }
  have hturn := stepEvent_of_decoded (s := s.withPort rest) (k := k) hf hi ht
  refine ⟨t, (s.withPort rest).stepEvent k, ht, ⟨fun hstop => ?_, fun v hgo hv => ?_, fun e hgo he => ?_⟩,
    fun hlast => ?_⟩
  · rw [hturn, hstop]; rfl
  · rw [hturn, if_pos hgo, readDelay_of_ok _ k v (decodeVlq (t.slot k).stream).used (by rw [← hv]; rfl)]
    rfl
  · rw [hturn, if_pos hgo, readDelay_of_error _ k e (decodeVlq (t.slot k).stream).used (by rw [← he]; rfl)]
    cases e <;> rfl
  · have hcmd : decodeCommand { code := 0x11, args := [.real 0] } = .ok (.seqUpdate 0) :=
      decodeCommand_of_encode (i := .seqUpdate 0) rfl rfl
    rw [step_of_decodeCommand hport hcmd]
    exact exec_seqUpdate_zero_of_single_turn hact hdue (due_eq_false_of_idle_or_waiting hlast)

end Steps
end Sys2Proof.Proofs

/-! ## The number format: the four functions against the mathematical ones (00_scope.md R11)

Each function is `near` an approximation. An approximation's error has three parts: the argument's (cut to the grid and
scaled by a decimal constant), the cut-off series', and the final cut to the grid. -/

namespace Sys2Proof.Proofs
section NumberFormat

open Sys2Proof Sys2Proof.Machine

/-! ### Errors -/

theorem abs_sub_le_add {a b c x y : ℝ} (h1 : |a - b| ≤ x) (h2 : |b - c| ≤ y) : |a - c| ≤ x + y :=
  (abs_sub_le a b c).trans (add_le_add h1 h2)

theorem abs_cast_sub_le {a b e : NumQ} (h : |a - b| ≤ e) : |(a : ℝ) - (b : ℝ)| ≤ (e : ℝ) := by
  exact_mod_cast h

theorem abs_grid_sub_le (x : NumQ) : |((grid x : NumQ) : ℝ) - (x : ℝ)| ≤ 1 / 2 ^ 80 := by
  have hlow : x - 1 / 2 ^ 80 ≤ grid x := by
    unfold grid
    rw [floorOf_eq, le_div_iff₀ (by positivity), sub_mul, one_div_mul_cancel (by positivity)]
    exact (Int.sub_one_lt_floor _).le
  have hcut : |grid x - x| ≤ 1 / 2 ^ 80 := by
    rw [abs_le]
    constructor <;> linarith [grid_le x, show (0 : ℚ) ≤ 1 / 2 ^ 80 by positivity]
  simpa using abs_cast_sub_le hcut

/-- `m` lies in `[lo, hi]` and is a good enough approximation of `v` to be the middle of its enclosure
(log entry 2). -/
def Approximates (m lo hi : NumQ) (v : ℝ) : Prop := lo ≤ m ∧ m ≤ hi ∧ |(m : ℝ) - v| ≤ 1 / 2 ^ 53

/-- A free value near an approximation is within twice the slack of the mathematical value. -/
theorem Approximates.abs_near_sub_le {m lo hi : NumQ} {v : ℝ} (h : Approximates m lo hi v) (hlt : lo < hi) (c : NumQ) :
    |((near m lo hi c : NumQ) : ℝ) - v| ≤ 1 / 2 ^ 52 := by
  obtain ⟨hlo, hhi, hv⟩ := h
  obtain ⟨-, -, hslack⟩ := near_bounds c hlt hlo hhi
  have hnear : |((near m lo hi c : NumQ) : ℝ) - m| ≤ 1 / 2 ^ 53 := by
    simpa [Config.slack] using abs_cast_sub_le hslack.le
  exact (abs_sub_le_add hnear hv).trans (by norm_num)

/-! ### The exponential series -/

theorem abs_exp_sub_exp_le {a b : ℝ} (ha : a ≤ 1) (hb : b ≤ 1) : |Real.exp a - Real.exp b| ≤ 3 * |a - b| := by
  wlog hab : b ≤ a generalizing a b
  · rw [abs_sub_comm, abs_sub_comm a]; exact this hb ha (le_of_not_ge hab)
  have hsplit : Real.exp b = Real.exp a * Real.exp (b - a) := by rw [← Real.exp_add, add_sub_cancel]
  have htangent : b - a + 1 ≤ Real.exp (b - a) := Real.add_one_le_exp _
  have hthree : Real.exp a ≤ 3 := (Real.exp_le_exp.2 ha).trans Real.exp_one_lt_three.le
  rw [abs_of_nonneg (sub_nonneg.2 (Real.exp_le_exp.2 hab)), abs_of_nonneg (sub_nonneg.2 hab), hsplit]
  nlinarith [Real.exp_pos a]

/-- The series from its `k`-th term on completes the first `k` terms of `e^y` to the first `k + n + 1`. -/
theorem expNear_expSeries (n k : Nat) (y : NumQ) :
    Real.expNear k (y : ℝ) ((expSeries n k y : NumQ) : ℝ) = Real.expNear (k + n + 1) (y : ℝ) 0 := by
  induction n generalizing k with
  | zero => simp [expSeries]
  | succ n ih =>
    have hstep := ih (k + 1)
    rw [Real.expNear_succ] at hstep
    rw [show k + (n + 1) + 1 = k + 1 + n + 1 by omega, ← hstep]
    simp [expSeries]

theorem abs_expSeries_sub_exp_le (n : Nat) {y : NumQ} (h0 : 0 ≤ y) (h1 : y ≤ 1) :
    |((expSeries n 0 y : NumQ) : ℝ) - Real.exp (y : ℝ)| ≤ (y : ℝ) ^ (n + 1) / (n + 1).factorial * 2 := by
  have hy0 : (0 : ℝ) ≤ y := by exact_mod_cast h0
  have hy1 : |(y : ℝ)| ≤ 1 := by rw [abs_of_nonneg hy0]; exact_mod_cast h1
  have htail := Real.exp_approx_end n (n + 1) (y : ℝ) rfl hy1
  have hseries := expNear_expSeries n 0 y
  rw [Real.expNear_zero, Nat.zero_add] at hseries
  rw [← hseries, abs_sub_comm, abs_of_nonneg hy0] at htail
  refine htail.trans (mul_le_mul_of_nonneg_left ?_ (by positivity))
  rw [div_le_iff₀ (by positivity)]
  push_cast
  linarith [show (0 : ℝ) ≤ n from n.cast_nonneg]

/-! ### `pow2` -/

theorem ln2_nonneg : 0 ≤ ln2 := by norm_num [ln2]

theorem ln2_le_one : ln2 ≤ 1 := by norm_num [ln2]

theorem abs_exp_ln2_sub_two_le : |Real.exp (ln2 : ℝ) - 2| ≤ 1 / 2 ^ 65 := by
  have hvalue : |expSeries 20 0 ln2 - 2| ≤ 1 / 2 ^ 66 := by norm_num [expSeries, ln2, abs_le]
  have hvalue' : |((expSeries 20 0 ln2 : NumQ) : ℝ) - 2| ≤ 1 / 2 ^ 66 := by simpa using abs_cast_sub_le hvalue
  have hseries := abs_expSeries_sub_exp_le 20 ln2_nonneg ln2_le_one
  have hrem : ((ln2 : NumQ) : ℝ) ^ 21 / (21 : ℕ).factorial * 2 ≤ 1 / 2 ^ 66 := by
    norm_num [ln2, Nat.factorial]
  rw [abs_sub_comm] at hseries
  exact (abs_sub_le_add (hseries.trans hrem) hvalue').trans (by norm_num)

/-- The decimal `ln2` from the value of its exponential: `d + 1 ≤ e^d` for the difference `d` and for its negative. -/
theorem abs_ln2_sub_log_le : |((ln2 : NumQ) : ℝ) - Real.log 2| ≤ 1 / 2 ^ 63 := by
  obtain ⟨hge, hle⟩ := abs_le.1 abs_exp_ln2_sub_two_le
  have hup := Real.add_one_le_exp ((ln2 : ℝ) - Real.log 2)
  have hdown := Real.add_one_le_exp (Real.log 2 - (ln2 : ℝ))
  rw [Real.exp_sub, Real.exp_log two_pos, le_div_iff₀ two_pos] at hup
  rw [Real.exp_sub, Real.exp_log two_pos, le_div_iff₀ (Real.exp_pos _)] at hdown
  rw [abs_le]
  constructor
  · nlinarith
  · linarith

theorem abs_pow2Approx_sub_le {r : NumQ} (h0 : 0 ≤ r) (h1 : r < 1) :
    |((pow2Approx r : NumQ) : ℝ) - (2 : ℝ) ^ (r : ℝ)| ≤ 1 / 2 ^ 60 := by
  have hr0 : (0 : ℝ) ≤ r := by exact_mod_cast h0
  have hr1 : (r : ℝ) ≤ 1 := by exact_mod_cast h1.le
  have hlog : Real.log 2 ≤ 1 := Real.log_two_lt_d9.le.trans (by norm_num)
  have hy0 : 0 ≤ grid (r * ln2) := grid_nonneg (mul_nonneg h0 ln2_nonneg)
  have hy1 : grid (r * ln2) ≤ 1 := (grid_le _).trans (mul_le_one₀ h1.le ln2_nonneg ln2_le_one)
  have harg : |((grid (r * ln2) : NumQ) : ℝ) - Real.log 2 * r| ≤ 1 / 2 ^ 80 + 1 / 2 ^ 63 := by
    refine abs_sub_le_add (abs_grid_sub_le (r * ln2)) ?_
    rw [Rat.cast_mul, mul_comm (r : ℝ), ← sub_mul, abs_mul, abs_of_nonneg hr0]
    exact (mul_le_of_le_one_right (abs_nonneg _) hr1).trans abs_ln2_sub_log_le
  unfold pow2Approx
  generalize grid (r * ln2) = y at *
  have hy0' : (0 : ℝ) ≤ y := by exact_mod_cast hy0
  have hy1' : (y : ℝ) ≤ 1 := by exact_mod_cast hy1
  have hseries : |((expSeries 20 0 y : NumQ) : ℝ) - Real.exp y| ≤ 1 / 2 ^ 63 := by
    have hpow : (y : ℝ) ^ 21 ≤ 1 := pow_le_one₀ hy0' hy1'
    refine (abs_expSeries_sub_exp_le 20 hy0 hy1).trans ?_
    norm_num [Nat.factorial]
    linarith
  have hexp : |Real.exp y - (2 : ℝ) ^ (r : ℝ)| ≤ 3 * (1 / 2 ^ 80 + 1 / 2 ^ 63) := by
    rw [Real.rpow_def_of_pos two_pos]
    exact (abs_exp_sub_exp_le hy1' (mul_le_one₀ hlog hr0 hr1)).trans (mul_le_mul_of_nonneg_left harg (by norm_num))
  exact (abs_sub_le_add (abs_grid_sub_le _) (abs_sub_le_add hseries hexp)).trans (by norm_num)

theorem pow2Approx_approximates {r : NumQ} (h0 : 0 ≤ r) (h1 : r < 1) :
    Approximates (pow2Approx r) 1 2 ((2 : ℝ) ^ (r : ℝ)) :=
  ⟨(pow2Approx_range h0 h1).1, (pow2Approx_range h0 h1).2, (abs_pow2Approx_sub_le h0 h1).trans (by norm_num)⟩

theorem cast_pow2Int (n : Int) : ((pow2Int n : NumQ) : ℝ) = (2 : ℝ) ^ n := by
  unfold pow2Int
  split
  · next h =>
    lift n to ℕ using h
    simp
  · next h =>
    obtain ⟨m, rfl⟩ : ∃ m : ℕ, n = -m := ⟨(-n).toNat, by omega⟩
    simp

/-- `2^x` is `2^n` times `2^r`, with `n` the floor of `x` and `r` its fraction. -/
theorem rpow_eq_zpow_mul_rpow_fract (x : NumQ) :
    (2 : ℝ) ^ (x : ℝ) = (2 : ℝ) ^ floorOf x * (2 : ℝ) ^ ((x - (floorOf x : NumQ) : NumQ) : ℝ) := by
  rw [← Real.rpow_intCast, ← Real.rpow_add two_pos]
  push_cast
  rw [add_sub_cancel]

/-- Settles O55: the scale `2^n` is exact, and the mantissa's error is relative because `2^r` is at least 1. -/
theorem pow2NearMathematical : Obligations.Pow2NearMathematical := by
  intro x
  have hfrac0 : 0 ≤ x - (floorOf x : NumQ) := Int.fract_nonneg x
  have hfrac1 : x - (floorOf x : NumQ) < 1 := Int.fract_lt_one x
  rw [rpow_eq_zpow_mul_rpow_fract]
  unfold pow2
  simp only
  generalize x - (floorOf x : NumQ) = r at *
  split
  · next h =>
    rw [h, cast_pow2Int, Rat.cast_zero, Real.rpow_zero, mul_one, sub_self, abs_zero]
    positivity
  · have hnear := (pow2Approx_approximates hfrac0 hfrac1).abs_near_sub_le one_lt_two (Config.pow2Free x)
    have hone : (1 : ℝ) ≤ (2 : ℝ) ^ (r : ℝ) := Real.one_le_rpow one_le_two (by exact_mod_cast hfrac0)
    have hscale : (0 : ℝ) < (2 : ℝ) ^ floorOf x := by positivity
    rw [Rat.cast_mul, cast_pow2Int, ← mul_sub, abs_mul, abs_of_pos hscale, mul_div_assoc]
    exact mul_le_mul_of_nonneg_left (hnear.trans (div_le_div_of_nonneg_right hone (by positivity))) hscale.le

/-! ### The alternating series -/

/-- The series of `altSeries` over `k!` has the terms of the cosine's (`k = 0`) and the sine's (`k = 1`). -/
theorem altSeries_div_factorial (n k : Nat) (q : NumQ) :
    ((altSeries n k q : NumQ) : ℝ) / k.factorial =
      ∑ i ∈ Finset.range (n + 1), (-1) ^ i * ((q : ℝ) ^ i / (2 * i + k).factorial) := by
  induction n generalizing k with
  | zero => simp [altSeries]
  | succ n ih =>
    have hfact : ((k + 2).factorial : ℝ) = ((k + 1) * (k + 2)) * k.factorial := by
      rw [Nat.factorial_succ, Nat.factorial_succ]; push_cast; ring
    have hterm : ∀ i : ℕ, (-1 : ℝ) ^ (i + 1) * ((q : ℝ) ^ (i + 1) / (2 * (i + 1) + k).factorial) =
        -(q : ℝ) * ((-1) ^ i * ((q : ℝ) ^ i / (2 * i + (k + 2)).factorial)) := fun i => by
      rw [show 2 * (i + 1) + k = 2 * i + (k + 2) by ring]; ring
    have hk : (k.factorial : ℝ) ≠ 0 := by positivity
    rw [Finset.sum_range_succ', Finset.sum_congr rfl (fun i _ => hterm i), ← Finset.mul_sum, ← ih (k + 2), hfact,
      altSeries, Nat.mul_zero, Nat.zero_add, pow_zero, pow_zero, one_mul]
    push_cast
    field_simp
    ring

/-- The remainder of an alternating series is at most its first term left out, here for `0 ≤ y ≤ 1`. -/
theorem abs_altSeries_sub_le (n k : Nat) {y : NumQ} {v : ℝ} (h0 : 0 ≤ y) (h1 : y ≤ 1)
    (hv : HasSum (fun i : ℕ => (-1 : ℝ) ^ i * ((y : ℝ) ^ (2 * i + k) / (2 * i + k).factorial)) v) :
    |(y : ℝ) ^ k * (((altSeries n k (y * y) : NumQ) : ℝ) / k.factorial) - v| ≤ 1 / (2 * (n + 1) + k).factorial := by
  have hy0 : (0 : ℝ) ≤ y := by exact_mod_cast h0
  have hy1 : (y : ℝ) ≤ 1 := by exact_mod_cast h1
  have hanti : Antitone (fun i : ℕ => (y : ℝ) ^ (2 * i + k) / (2 * i + k).factorial) := fun i j hij => by
    have hle : 2 * i + k ≤ 2 * j + k := by omega
    exact div_le_div₀ (by positivity) (pow_le_pow_of_le_one hy0 hy1 hle) (by positivity)
      (by exact_mod_cast Nat.factorial_le hle)
  have hsum : Summable (fun i : ℕ => (y : ℝ) ^ (2 * i + k) / (2 * i + k).factorial) :=
    hv.summable.abs.congr fun i => by
      rw [abs_mul, abs_pow, abs_neg, abs_one, one_pow, one_mul, abs_of_nonneg (by positivity)]
  have hterm : ∀ i : ℕ, (y : ℝ) ^ k * ((-1) ^ i * (((y * y : NumQ) : ℝ) ^ i / (2 * i + k).factorial)) =
      (-1) ^ i * ((y : ℝ) ^ (2 * i + k) / (2 * i + k).factorial) := fun i => by
    push_cast; ring
  have herr := alternating_series_error_bound _ hanti hsum (n + 1)
  rw [hv.tsum_eq, abs_sub_comm] at herr
  rw [altSeries_div_factorial, Finset.mul_sum, Finset.sum_congr rfl fun i _ => hterm i]
  exact herr.trans (div_le_div_of_nonneg_right (pow_le_one₀ hy0 hy1) (by positivity))

/-! ### The pan functions (42_voice.md R192) -/

theorem abs_halfPi_sub_le : |((halfPi : NumQ) : ℝ) - Real.pi / 2| ≤ 1 / 2 ^ 67 := by
  have hlow := Real.pi_gt_d20
  have hhigh := Real.pi_lt_d20
  norm_num [halfPi, abs_le] at hlow hhigh ⊢
  constructor <;> linarith

theorem abs_quarterAngle_sub_le {p : NumQ} (h0 : 0 ≤ p) (h1 : p ≤ 1 / 2) :
    |((grid (p * halfPi) : NumQ) : ℝ) - (p : ℝ) * (Real.pi / 2)| ≤ 1 / 2 ^ 66 := by
  have hp0 : (0 : ℝ) ≤ p := by exact_mod_cast h0
  have hp1 : (p : ℝ) ≤ 1 := by exact_mod_cast h1.trans (by norm_num)
  have hmul : |((p * halfPi : NumQ) : ℝ) - (p : ℝ) * (Real.pi / 2)| ≤ 1 / 2 ^ 67 := by
    rw [Rat.cast_mul, ← mul_sub, abs_mul, abs_of_nonneg hp0]
    exact (mul_le_of_le_one_left (abs_nonneg _) hp1).trans abs_halfPi_sub_le
  exact (abs_sub_le_add (abs_grid_sub_le _) hmul).trans (by norm_num)

theorem cosApprox_approximates {p : NumQ} (h0 : 0 ≤ p) (h1 : p ≤ 1 / 2) :
    Approximates (cosApprox p) 0 1 (Real.cos ((p : ℝ) * (Real.pi / 2))) := by
  refine ⟨(cosApprox_range h0 h1).1, (cosApprox_range h0 h1).2, ?_⟩
  obtain ⟨hy0, hy1⟩ := quarterAngle_range h0 h1
  have hangle := abs_quarterAngle_sub_le h0 h1
  unfold cosApprox
  simp only
  generalize grid (p * halfPi) = y at *
  have hseries : |((altSeries 10 0 (y * y) : NumQ) : ℝ) - Real.cos y| ≤ 1 / Nat.factorial 22 := by
    simpa using abs_altSeries_sub_le 10 0 hy0 hy1 (by simpa [mul_div_assoc] using Real.hasSum_cos y)
  have hcos := (Real.abs_cos_sub_cos_le _ _).trans hangle
  exact (abs_sub_le_add (abs_grid_sub_le _) (abs_sub_le_add hseries hcos)).trans (by norm_num [Nat.factorial])

theorem sinApprox_approximates {p : NumQ} (h0 : 0 ≤ p) (h1 : p ≤ 1 / 2) :
    Approximates (sinApprox p) 0 1 (Real.sin ((p : ℝ) * (Real.pi / 2))) := by
  refine ⟨(sinApprox_range h0 h1).1, (sinApprox_range h0 h1).2, ?_⟩
  obtain ⟨hy0, hy1⟩ := quarterAngle_range h0 h1
  have hangle := abs_quarterAngle_sub_le h0 h1
  unfold sinApprox
  simp only
  generalize grid (p * halfPi) = y at *
  have hseries : |((y * altSeries 10 1 (y * y) : NumQ) : ℝ) - Real.sin y| ≤ 1 / Nat.factorial 23 := by
    simpa using abs_altSeries_sub_le 10 1 hy0 hy1 (by simpa [mul_div_assoc] using Real.hasSum_sin y)
  have hsin := (Real.abs_sin_sub_sin_le _ _).trans hangle
  exact (abs_sub_le_add (abs_grid_sub_le _) (abs_sub_le_add hseries hsin)).trans (by norm_num [Nat.factorial])

/-- The angle of the reflected pan is the complement. -/
theorem quarterAngle_reflect (p : NumQ) :
    ((1 - p : NumQ) : ℝ) * (Real.pi / 2) = Real.pi / 2 - p * (Real.pi / 2) := by
  push_cast; ring

theorem abs_cosQuarter_sub_le {p : NumQ} (h0 : 0 ≤ p) (h1 : p ≤ 1) :
    |((cosQuarter p : NumQ) : ℝ) - Real.cos ((p : ℝ) * (Real.pi / 2))| ≤ 1 / 2 ^ 52 := by
  unfold cosQuarter
  split
  · next h => simp [h]
  · split
    · next h => simp [h]
    · refine Approximates.abs_near_sub_le ?_ one_pos _
      split
      · next h => exact cosApprox_approximates h0 h
      · next h =>
        rw [← Real.sin_pi_div_two_sub, ← quarterAngle_reflect]
        exact sinApprox_approximates (by linarith) (by linarith)

theorem abs_sinQuarter_sub_le {p : NumQ} (h0 : 0 ≤ p) (h1 : p ≤ 1) :
    |((sinQuarter p : NumQ) : ℝ) - Real.sin ((p : ℝ) * (Real.pi / 2))| ≤ 1 / 2 ^ 52 := by
  unfold sinQuarter
  split
  · next h => simp [h]
  · split
    · next h => simp [h]
    · refine Approximates.abs_near_sub_le ?_ one_pos _
      split
      · next h => exact sinApprox_approximates h0 h
      · next h =>
        rw [← Real.cos_pi_div_two_sub, ← quarterAngle_reflect]
        exact cosApprox_approximates (by linarith) (by linarith)

/-- Settles O56: exact at both ends of the pan; between them the half of the angle that is at most `pi/4` is
approximated. -/
theorem panNearMathematical : Obligations.PanNearMathematical := fun _ h0 h1 =>
  ⟨abs_cosQuarter_sub_le h0 h1, abs_sinQuarter_sub_le h0 h1⟩

/-! ### `tanh` (43_pool_mixer.md R255) -/

theorem tanh_eq_one_sub (x : ℝ) : Real.tanh x = 1 - 2 / (Real.exp (2 * x) + 1) := by
  have hexp : Real.exp (2 * x) = Real.exp x * Real.exp x := by rw [← Real.exp_add, two_mul]
  have hpos := Real.exp_pos x
  rw [Real.tanh_eq, Real.exp_neg, hexp]
  field_simp
  ring

theorem exp_two_mul_eq_pow (x : ℝ) : Real.exp (2 * x) = Real.exp (x / 32) ^ 64 := by
  rw [← Real.exp_nat_mul]; push_cast; ring_nf

/-- The map from `e^(x/32)` to `tanh x` is Lipschitz on `[1, ∞)`: it does not amplify the 64th power's error. -/
theorem abs_tanhOfRoot_sub_le {a b : ℝ} (ha : 1 ≤ a) (hb : 1 ≤ b) :
    |(1 - 2 / (a ^ 64 + 1)) - (1 - 2 / (b ^ 64 + 1))| ≤ 64 * |a - b| := by
  wlog hab : b ≤ a generalizing a b
  · rw [abs_sub_comm, abs_sub_comm a]; exact this hb ha (le_of_not_ge hab)
  have hA : (1 : ℝ) ≤ a ^ 64 := one_le_pow₀ ha
  have hB : (1 : ℝ) ≤ b ^ 64 := one_le_pow₀ hb
  have hroot : a ^ 63 ≤ a ^ 64 := pow_le_pow_right₀ ha (by norm_num)
  have hpow : |a ^ 64 - b ^ 64| ≤ |a - b| * (64 : ℕ) * a ^ 63 := by
    have := abs_pow_sub_pow_le a b 64
    rwa [abs_of_pos (by linarith : 0 < a), abs_of_pos (by linarith : 0 < b), max_eq_left hab] at this
  have hdiff : (1 - 2 / (a ^ 64 + 1)) - (1 - 2 / (b ^ 64 + 1)) =
      (a ^ 64 - b ^ 64) * 2 / ((a ^ 64 + 1) * (b ^ 64 + 1)) := by
    field_simp; ring
  have hden : a ^ 63 * 2 ≤ (a ^ 64 + 1) * (b ^ 64 + 1) := by nlinarith
  rw [hdiff, abs_div, abs_mul, abs_two, abs_of_pos (by positivity : 0 < (a ^ 64 + 1) * (b ^ 64 + 1)),
    div_le_iff₀ (by positivity)]
  calc |a ^ 64 - b ^ 64| * 2 ≤ |a - b| * (64 : ℕ) * a ^ 63 * 2 := by linarith
    _ = 64 * |a - b| * (a ^ 63 * 2) := by push_cast; ring
    _ ≤ 64 * |a - b| * ((a ^ 64 + 1) * (b ^ 64 + 1)) := mul_le_mul_of_nonneg_left hden (by positivity)

/-- The root `e^(x/32)` that `tanhApprox` raises to the 64th power. -/
theorem abs_tanhRoot_sub_le {x : NumQ} (h0 : 0 ≤ x) (h1 : x < 20) :
    |((expSeries 20 0 (grid x / 32) : NumQ) : ℝ) - Real.exp ((x : ℝ) / 32)| ≤ 1 / 2 ^ 67 := by
  have hx1 : (x : ℝ) / 32 ≤ 1 := by
    have : (x : ℝ) < 20 := by exact_mod_cast h1
    linarith
  have hy0 : 0 ≤ grid x / 32 := div_nonneg (grid_nonneg h0) (by norm_num)
  have hy1 : grid x / 32 ≤ 5 / 8 := by linarith [grid_le x]
  have harg : |((grid x / 32 : NumQ) : ℝ) - (x : ℝ) / 32| ≤ 1 / 2 ^ 85 := by
    rw [Rat.cast_div, Rat.cast_ofNat, ← sub_div, abs_div, abs_of_pos (by norm_num : (0 : ℝ) < 32),
      div_le_iff₀ (by norm_num)]
    exact (abs_grid_sub_le x).trans (by norm_num)
  generalize grid x / 32 = y at *
  have hy0' : (0 : ℝ) ≤ y := by exact_mod_cast hy0
  have hy1' : (y : ℝ) ≤ 5 / 8 := by simpa using (Rat.cast_le (K := ℝ)).2 hy1
  have hrem : (y : ℝ) ^ 21 / (21 : ℕ).factorial * 2 ≤ 1 / 2 ^ 68 := by
    have hpow : (y : ℝ) ^ 21 ≤ (5 / 8) ^ 21 := pow_le_pow_left₀ hy0' hy1' 21
    norm_num [Nat.factorial] at hpow ⊢
    linarith
  have hseries := (abs_expSeries_sub_exp_le 20 hy0 (hy1.trans (by norm_num))).trans hrem
  have hexp := (abs_exp_sub_exp_le (hy1'.trans (by norm_num)) hx1).trans
    (mul_le_mul_of_nonneg_left harg (by norm_num))
  exact (abs_sub_le_add hseries hexp).trans (by norm_num)

theorem abs_tanhApprox_sub_le {x : NumQ} (h0 : 0 ≤ x) (h1 : x < 20) :
    |((tanhApprox x : NumQ) : ℝ) - Real.tanh (x : ℝ)| ≤ 1 / 2 ^ 60 := by
  have hroot := abs_tanhRoot_sub_le h0 h1
  have hy0 : 0 ≤ grid x / 32 := div_nonneg (grid_nonneg h0) (by norm_num)
  have hone : (1 : ℝ) ≤ (expSeries 20 0 (grid x / 32) : NumQ) := by exact_mod_cast expSeries_ge_one 20 0 hy0
  have hone' : 1 ≤ Real.exp ((x : ℝ) / 32) := Real.one_le_exp (div_nonneg (by exact_mod_cast h0) (by norm_num))
  have hmap := (abs_tanhOfRoot_sub_le hone hone').trans (mul_le_mul_of_nonneg_left hroot (by norm_num))
  have hcut := abs_grid_sub_le (1 - 2 / (expSeries 20 0 (grid x / 32) ^ 64 + 1))
  rw [← exp_two_mul_eq_pow, ← tanh_eq_one_sub] at hmap
  push_cast at hcut
  exact (abs_sub_le_add hcut hmap).trans (by norm_num)

/-- From 20 on `tanh` is so near 1 that 1 is the middle of its enclosure. -/
theorem abs_one_sub_tanh_le {x : ℝ} (h : 20 ≤ x) : |1 - Real.tanh x| ≤ 1 / 2 ^ 53 := by
  have hbig : (2 : ℝ) ^ 54 ≤ Real.exp (2 * x) := by
    calc (2 : ℝ) ^ 54 ≤ 2.7182818283 ^ 40 := by norm_num
      _ ≤ Real.exp 1 ^ 40 := pow_le_pow_left₀ (by norm_num) Real.exp_one_gt_d9.le 40
      _ = Real.exp 40 := by rw [← Real.exp_nat_mul]; norm_num
      _ ≤ Real.exp (2 * x) := Real.exp_le_exp.2 (by linarith)
  rw [tanh_eq_one_sub, sub_sub_cancel, abs_of_pos (by positivity), div_le_div_iff₀ (by positivity) (by positivity)]
  linarith

theorem tanhMiddle_approximates {x : NumQ} (h : 0 < x) : Approximates (tanhMiddle x) 0 1 (Real.tanh (x : ℝ)) := by
  refine ⟨(tanhMiddle_range h).1, (tanhMiddle_range h).2, ?_⟩
  unfold tanhMiddle
  split
  · next hx => exact (abs_tanhApprox_sub_le h.le hx).trans (by norm_num)
  · next hx =>
    rw [Rat.cast_one]
    exact abs_one_sub_tanh_le (by exact_mod_cast not_lt.1 hx)

theorem abs_tanhPos_sub_le {x : NumQ} (h : 0 < x) :
    |((tanhPos x : NumQ) : ℝ) - Real.tanh (x : ℝ)| ≤ 1 / 2 ^ 52 :=
  (tanhMiddle_approximates h).abs_near_sub_le one_pos _

theorem tanhNum_of_pos {x : NumQ} (h : 0 < x) : tanhNum x = tanhPos x := by
  rw [tanhNum, if_neg h.ne', if_pos h]

theorem tanhNum_of_neg {x : NumQ} (h : x < 0) : tanhNum x = -tanhPos (-x) := by
  rw [tanhNum, if_neg h.ne, if_neg h.not_gt]

/-- Settles O54: both functions are odd and 0 at 0, so the bound for a positive number is enough. -/
theorem tanhNearMathematical : Obligations.TanhNearMathematical := by
  intro x
  rcases lt_trichotomy x 0 with hneg | rfl | hpos
  · have hmirror := abs_tanhPos_sub_le (neg_pos.2 hneg)
    rw [Rat.cast_neg, Real.tanh_neg, sub_neg_eq_add] at hmirror
    rw [tanhNum_of_neg hneg, Rat.cast_neg, abs_sub_comm, sub_neg_eq_add, add_comm]
    exact hmirror
  · simp
  · rw [tanhNum_of_pos hpos]
    exact abs_tanhPos_sub_le hpos

end NumberFormat
end Sys2Proof.Proofs

/-! ## Invariants: what every step keeps, and why no step faults (10_state.md R21, R23, R26, R30)

Each operation of the model is shown to keep `State.Ok` once; a command or an event keeps it by the operations it is
made of, and a step by the command it runs. -/

namespace Sys2Proof.Proofs
section Invariants

open Sys2Proof Sys2Proof.Machine

/-! ### What a step can do -/

/-- A command that the port decodes is well formed: `SEQ_UPDATE` takes no negative time (30_encoding.md R112). -/
theorem wellFormed_of_decodeCommand {x : Transaction} {i : Instr} (h : decodeCommand x = .ok i) :
    i.wellFormed = true := by
  unfold decodeCommand at h
  split at h
  case h_1 =>
    split at h
    · split at h <;> cases h
      rfl
    · cases h
  case h_8 =>
    split at h
    · split at h
      · next hdt => cases h; exact decide_eq_true hdt
      · cases h
    · cases h
  case h_18 => cases h
  all_goals
    split at h <;> cases h
    rfl

/-- Everything that a step can do: nothing, the command at the head of the port, or a refusal. -/
theorem step_cases (s : State) :
    step s = .next s ∨
    (∃ i rest, i.wellFormed = true ∧ step s = exec i (s.withPort rest)) ∨
    ∃ r, step s = .refused r := by
  cases hport : s.port with
  | nil => exact .inl (step_of_port_nil hport)
  | cons x rest =>
    cases hx : decodeCommand x with
    | ok i =>
      exact .inr (.inl ⟨i, rest, wellFormed_of_decodeCommand hx, step_of_decodeCommand hport hx⟩)
    | error e => exact .inr (.inr ⟨commandRefusal x e, by unfold step; simp only [hport, hx]⟩)

/-! ### No step faults -/

/-- The one fault of an instruction is that of `GENERATE_AUDIO` on a tone that is gone. -/
theorem tonesLive_false_of_exec_fault {i : Instr} {s : State} {f : Fault} (h : exec i s = .fault f) :
    s.tonesLive = false := by
  cases i with
  | generateAudio n =>
    rcases generateAudio_cases n s with hnext | ⟨-, hdead, -⟩
    · rw [hnext] at h; cases h
    · exact hdead
  | playNote => simp only [exec, execPlayNote] at h; split at h <;> cases h
  | bankLoad => simp only [exec, execBankLoad] at h; split at h <;> cases h
  | _ => cases h

/-- A cursor of at least 0 below the length leaves no room for a tone without samples. -/
theorem tonesLive_of_voicesOk {s : State} (h : s.VoicesOk) : s.tonesLive = true := by
  refine (tonesLive_iff s).2 fun i hact => ?_
  obtain ⟨hok, hlive⟩ := h i
  obtain ⟨r, t, htone, hat, hsyn, hcursor⟩ := hlive hact
  have hpos : (0 : NumQ) < (t.len : NumQ) := hok.cursor_nonneg.trans_lt hcursor
  exact ⟨r, htone, (playable_iff s r).2 ⟨t, hat, Nat.cast_pos.1 hpos, hsyn⟩⟩

/-- Settles O59: only a dead tone faults, and the voices' rules leave none. -/
theorem stepIsSafe : Obligations.StepIsSafe := by
  intro s hs f hfault
  rcases step_cases s with h | ⟨i, rest, -, h⟩ | ⟨r, h⟩ <;> rw [h] at hfault
  · cases hfault
  · have hlive : (s.withPort rest).tonesLive = true := tonesLive_of_voicesOk (voicesOk_congr rfl rfl hs)
    rw [tonesLive_false_of_exec_fault hfault] at hlive
    cases hlive
  · cases hfault

/-! ### Changes that touch only voices, slots, or what no rule speaks of -/

/-- Where tone memory, rate table and delay line stay as they were, the rules of voices and slots are enough. -/
theorem ok_of_memories {s t : State} (h : s.Ok) (hprog : t.prog = s.prog) (hrt : t.rt = s.rt)
    (hbuilt : t.rtBuilt = s.rtBuilt) (hline : t.delayLine = s.delayLine) (hv : t.VoicesOk) (hs : t.SlotsOk) : t.Ok where
  voices := hv
  tones := tonesOk_congr hprog h.tones
  slots := hs
  table := by unfold State.TableOk; rw [hrt, hbuilt]; exact h.table
  line := by unfold State.LineOk; rw [hline]; exact h.line

theorem ok_withResult {s : State} (h : s.Ok) (r : Result) : (s.withResult r).Ok :=
  ok_of_memories h rfl rfl rfl rfl (voicesOk_congr rfl rfl h.voices) (slotsOk_congr rfl h.slots)

theorem ok_withPort {s : State} (h : s.Ok) (l : List Transaction) : (s.withPort l).Ok :=
  ok_of_memories h rfl rfl rfl rfl (voicesOk_congr rfl rfl h.voices) (slotsOk_congr rfl h.slots)

theorem ok_emit {s : State} (h : s.Ok) (d : Diag) : (s.emit d).Ok :=
  ok_of_memories h rfl rfl rfl rfl (voicesOk_congr rfl rfl h.voices) (slotsOk_congr rfl h.slots)

theorem ok_forSlot {s : State} (h : s.Ok) (k : Fin 16) : (s.forSlot k).Ok :=
  ok_of_memories h rfl rfl rfl rfl (voicesOk_congr rfl rfl h.voices) (slotsOk_congr rfl h.slots)

theorem ok_setVoice {s : State} (h : s.Ok) (i : Fin 127) {v : Voice} (hv : v.Ok) (hl : s.VoiceLive v) :
    (s.setVoice i v).Ok :=
  ok_of_memories h rfl rfl rfl rfl (voicesOk_setVoice h.voices i v hv hl) (slotsOk_congr rfl h.slots)

theorem ok_setSlot {s : State} (h : s.Ok) (k : Fin 16) {x : Slot} (hx : x.Ok) : (s.setSlot k x).Ok :=
  ok_of_memories h rfl rfl rfl rfl (voicesOk_congr rfl rfl h.voices) (slotsOk_setSlot h.slots k x hx)

/-! ### The voice pool -/

/-- A change of a voice that keeps its rules: its own registers', and that its tone is there. -/
def KeepsVoice (f : Voice → Voice) : Prop :=
  ∀ (s : State) (v : Voice), v.Ok → s.VoiceLive v → (f v).Ok ∧ s.VoiceLive (f v)

theorem keepsVoice_noteOff : KeepsVoice Voice.noteOff := fun _ _ hok hlive =>
  ⟨noteOff_ok hok, voiceLive_noteOff hlive⟩

theorem keepsVoice_bent (bend : NumQ) : KeepsVoice (Voice.bent bend) := fun _ _ hok hlive => ⟨bent_ok hok bend, hlive⟩

theorem keepsVoice_withGains (vol pan : NumQ) : KeepsVoice (Voice.withGains (panGains vol pan)) := fun _ _ hok hlive =>
  ⟨withGains_ok hok vol pan, hlive⟩

/-- A voice that is cut is inactive, so that its tone is not asked for. -/
theorem keepsVoice_cut : KeepsVoice Voice.cut := fun _ _ hok _ => ⟨cut_ok hok, fun hact => Bool.noConfusion hact⟩

theorem KeepsVoice.ite {f : Voice → Voice} (hf : KeepsVoice f) (c : Voice → Bool) :
    KeepsVoice (fun v => if c v then f v else v) := by
  intro s v hok hlive
  simp only
  split
  · exact hf s v hok hlive
  · exact ⟨hok, hlive⟩

theorem ok_mapVoices {s : State} (h : s.Ok) {f : Voice → Voice} (hf : KeepsVoice f) : (s.mapVoices f).Ok := by
  refine ok_of_memories h rfl rfl rfl rfl (fun i => ?_) (slotsOk_congr rfl h.slots)
  obtain ⟨hok, hlive⟩ := h.voices i
  obtain ⟨hok', hlive'⟩ := hf s _ hok hlive
  rw [voice_mapVoices]
  exact ⟨hok', voiceLive_congr rfl _ hlive'⟩

theorem ok_onVoice {s : State} (h : s.Ok) (id : Int) {f : Voice → Voice} (hf : KeepsVoice f) : (s.onVoice id f).Ok := by
  rcases onVoice_cases s id f with e | ⟨i, e⟩ <;> rw [e]
  · exact h
  · obtain ⟨hok, hlive⟩ := h.voices i
    obtain ⟨hok', hlive'⟩ := hf s _ hok hlive
    exact ok_setVoice h i hok' hlive'

theorem ok_programBend {s : State} (h : s.Ok) (p : Nat) (bend : NumQ) : (s.programBend p bend).Ok :=
  ok_mapVoices h ((keepsVoice_bent bend).ite (Voice.ofProgram p))

theorem ok_releaseNote {s : State} (h : s.Ok) (c : BitVec 4) (key : BitVec 7) : (s.releaseNote c key).Ok :=
  ok_mapVoices h (keepsVoice_noteOff.ite fun v => v.ofProgram (s.curProgram c) && decide (v.note = some key.toNat))

theorem ok_playTone {s : State} (h : s.Ok) (r : ToneRef) (pitch volume : NumQ) (fm : Bool) (pan : NumQ)
    (note prog : Nat) : (s.playTone r pitch volume fm pan note prog).state.Ok := by
  have hframe := playTone_frame s r pitch volume fm pan note prog
  exact ok_of_memories h (by rw [hframe]) (by rw [hframe]) (by rw [hframe]) (by rw [hframe])
    (voicesOk_playTone h.voices r pitch volume pan fm note prog) (slotsOk_congr (by rw [hframe]) h.slots)

theorem ok_triggerNote {s : State} (h : s.Ok) (c : BitVec 4) (key vel : BitVec 7) : (s.triggerNote c key vel).Ok :=
  triggerNote_keeps c key vel s (fun _ r pitch volume pan note prog ht =>
    ok_playTone ht r pitch volume _ pan note prog) h

/-! ### The mixer -/

theorem frameTime_nonneg : 0 ≤ Config.frameTime := by norm_num [Config.frameTime]

/-- The tone that a live voice plays is the one its reference names. -/
theorem toneOf_of_toneAt {s : State} {v : Voice} {r : ToneRef} {t : Tone} (htone : v.tone = some r)
    (hat : s.toneAt r = some t) : s.toneOf v = t := by
  simp [State.toneOf, htone, hat]

theorem getSamples_tone (t : Tone) (dt m : NumQ) (v : Voice) : (getSamples t dt m v).voice.tone = v.tone := by
  rw [getSamples_frame]

/-- A voice's part of a frame: the voice stays on its tone, and its cursor is settled inside the data
(42_voice.md R211). -/
theorem ok_mixVoice {x : MixState} (h : x.state.Ok) (i : Fin 127) : (mixVoice x i).state.Ok := by
  obtain ⟨hok, hlive⟩ := h.voices i
  unfold mixVoice
  simp only
  split
  · next hact =>
    obtain ⟨r, t, htone, hat, hsyn, -⟩ := hlive hact
    have ht := tone_ok_of_toneAt h.tones hat
    obtain ⟨hok', hcursor⟩ := getSamples_ok ht.len_pos ht.adsr frameTime_nonneg (x.state.modIn i) hok
    rw [toneOf_of_toneAt htone hat]
    exact ok_setVoice h i hok' fun hact' => ⟨r, t, (getSamples_tone ..).trans htone, hat, hsyn, hcursor hact'⟩
  · exact ok_setVoice h i (hok.withLastOut 0) hlive

/-- The feedback goes to an index of the line, so that the line stays canonical (43_pool_mixer.md R254). -/
theorem ok_reverbWrite {s : State} (h : s.Ok) (sum : Stereo) : (s.reverbWrite sum).Ok where
  voices := voicesOk_congr rfl rfl h.voices
  tones := tonesOk_congr rfl h.tones
  slots := slotsOk_congr rfl h.slots
  table := h.table
  line := Memory.write_wf _ h.line _ s.wp.isLt

theorem ok_frame {s : State} (h : s.Ok) : (frame s).state.Ok := by
  rw [frame_state]
  exact ok_reverbWrite (mixVoices_keeps s (fun _ i hx => ok_mixVoice hx i) h) _

theorem ok_frames {s : State} (h : s.Ok) (n : Nat) : (frames n s).state.Ok :=
  frames_keeps n s (fun _ ht => ok_frame ht) h

/-! ### The slots -/

theorem slot_ok_stopped {x : Slot} (h : x.Ok) : x.stopped.Ok := stopped_slot_ok h x.cursor x.running h.running_range

theorem ok_raiseSlot {s : State} (h : s.Ok) (k : Fin 16) (d : Diag) : (s.raiseSlot k d).Ok :=
  ok_emit (ok_setSlot h k (slot_ok_stopped (h.slots k))) d

theorem ok_readDelay {s : State} (h : s.Ok) (k : Fin 16) : (s.readDelay k).Ok := by
  have hframe := readDelay_frame s k
  exact ok_of_memories h (by rw [hframe]) (by rw [hframe]) (by rw [hframe]) (by rw [hframe])
    (voicesOk_congr (by rw [hframe]) (by rw [hframe]) h.voices) (slotsOk_readDelay h.slots k)

theorem ok_onChannel {s : State} (h : s.Ok) (c : BitVec 4) {f : Channel → Channel} (hf : ∀ y, y.Ok → (f y).Ok) :
    (s.onChannel c f).Ok :=
  ok_setSlot h _ (setChannel_ok (h.slots _) c _ (hf _ ((h.slots _).channels c)))

/-- The accumulator of a slot with an event due covers the wait taken off it (44_sequencer.md R285, R286). -/
theorem slot_ok_spend {x : Slot} (h : x.Ok) (hdue : x.due = true) : x.spend.Ok :=
  { h with acc_nonneg := sub_nonneg.2 ((due_iff x).1 hdue).2 }

theorem ticksPerSecond_nonneg (x : Slot) : 0 ≤ x.ticksPerSecond := by
  unfold Slot.ticksPerSecond; positivity

theorem slot_ok_advance {x : Slot} (h : x.Ok) {dt : NumQ} (hdt : 0 ≤ dt) : (x.advance dt).Ok :=
  { h with acc_nonneg := add_nonneg h.acc_nonneg (mul_nonneg hdt (ticksPerSecond_nonneg x)) }

theorem slot_ok_setTempo {x : Slot} (h : x.Ok) {tempo : BitVec 24} (htempo : tempo ≠ 0) :
    ({ x with tempo := tempo } : Slot).Ok :=
  { h with tempo_pos := fun _ => htempo }

/-- The loop target lies in every buffer that a slot holds, since `SEQ_PLAY` takes none without a header
(44_sequencer.md R281, R310). -/
theorem slot_ok_loop {x : Slot} (h : x.Ok) :
    ({ x with cursor := Config.seqHeaderLen, acc := 0, running := 0 } : Slot).Ok :=
  { h with
    cursor_low := fun _ => le_rfl
    cursor_high := h.header
    acc_nonneg := le_rfl
    running_range := .inl rfl }

/-- A fetch passes bytes that are there, and leaves a status byte or the old running status. -/
theorem ok_passEvent {s : State} (h : s.Ok) (k : Fin 16) : (s.passEvent k (s.fetchEvent k)).Ok := by
  have hslot := h.slots k
  have hrunning : (s.fetchEvent k).running = 0 ∨ 0x80 ≤ (s.fetchEvent k).running.toNat := by
    rcases decodeEvent_running (s.slot k).running (s.slot k).stream with hsame | hstatus
    · rw [State.fetchEvent, hsame]; exact hslot.running_range
    · exact .inr hstatus
  exact ok_setSlot h k (pass_slot_ok hslot _ (decodeEvent_used _ _) _ hrunning _ hslot.wait_range)

/-- A slot given an accepted stream: the first delay lies in the buffer, and the tempo was tested
(44_sequencer.md R281). -/
theorem slot_ok_started {data : Bytes} (hacc : seqAccepted data = true) (bankId : Int) {wait : Nat}
    (hwait : (decodeVlq (data.drop Config.seqHeaderLen)).result = .ok wait) :
    (startedSlot data bankId (decodeVlq (data.drop Config.seqHeaderLen)).used wait).Ok := by
  simp only [seqAccepted, Bool.and_eq_true, decide_eq_true_eq] at hacc
  obtain ⟨⟨⟨hlen, -⟩, -⟩, htempo⟩ := hacc
  have hused := decodeVlq_used (data.drop Config.seqHeaderLen)
  rw [List.length_drop] at hused
  exact
    { active_iff := by simp [startedSlot]
      header := fun b hb => by cases hb; exact hlen
      cursor_low := fun _ => Nat.le_add_right _ _
      cursor_high := fun b hb => by cases hb; simp only [startedSlot]; omega
      tempo_pos := fun _ hzero => htempo (by
        have hmod : u24be data 10 % 2 ^ 24 = 0 := by simpa [startedSlot] using congrArg BitVec.toNat hzero
        rwa [Nat.mod_eq_of_lt (u24be_lt data 10)] at hmod)
      acc_nonneg := le_rfl
      wait_range := decodeVlq_lt _ _ hwait
      running_range := .inl rfl
      channels := initial_channel_ok }

theorem ok_startSlot {s : State} (h : s.Ok) (k : Fin 16) {data : Bytes} (hacc : seqAccepted data = true)
    (bankId : Int) : (s.startSlot k data bankId).Ok := by
  rcases startSlot_cases s k data bankId with ⟨wait, hwait, e⟩ | ⟨er, -, e⟩ <;> rw [e]
  · exact ok_withResult (ok_setSlot h k (slot_ok_started hacc bankId hwait)) _
  · exact ok_withResult (ok_emit h _) _

theorem ok_mapSlots {s : State} (h : s.Ok) {f : Slot → Slot} (hf : ∀ x, x.Ok → (f x).Ok) : (s.mapSlots f).Ok :=
  ok_of_memories h rfl rfl rfl rfl (voicesOk_congr rfl rfl h.voices)
    fun k => by rw [slot_mapSlots]; exact hf _ (h.slots k)

theorem ok_onSlot {s : State} (h : s.Ok) (id : Int) {f : Slot → Slot} (hf : ∀ x, x.Ok → (f x).Ok) :
    (s.onSlot id f).Ok := by
  unfold State.onSlot
  split
  · exact ok_setSlot h _ (hf _ (h.slots _))
  · exact h

/-! ### Events and turns -/

/-- Every event keeps the rules, whichever slot it acts for. -/
theorem ok_exec_event {i : Instr} (hi : i.isEvent = true) {s t : State} (h : s.Ok) (he : exec i s = .next t) :
    t.Ok := by
  have hbad : s.badEventHere.Ok := ok_raiseSlot h _ _
  cases i with
  | noteOff c key vel => cases he; exact ok_releaseNote h c key
  | noteOn c key vel =>
    cases he
    split
    · exact ok_releaseNote h c key
    · exact ok_triggerNote h c key vel
  | ccVolume c val => cases he; exact ok_onChannel h c fun _ ⟨_, hp, hx, hg⟩ => ⟨registerOf_lt val, hp, hx, hg⟩
  | ccPan c val => cases he; exact ok_onChannel h c fun _ ⟨hv, _, hx, hg⟩ => ⟨hv, registerOf_lt val, hx, hg⟩
  | ccExpr c val => cases he; exact ok_onChannel h c fun _ ⟨hv, hp, _, hg⟩ => ⟨hv, hp, registerOf_lt val, hg⟩
  | pc c prog => cases he; exact ok_onChannel h c fun _ ⟨hv, hp, hx, _⟩ => ⟨hv, hp, hx, registerOf_lt prog⟩
  | ccOther => cases he; exact h
  | metaEvent => cases he; exact h
  | pb c ll mm => cases he; exact ok_programBend h _ _
  | eot => cases he; exact ok_setSlot h _ (slot_ok_loop (h.slots _))
  | tempo t2 t1 t0 =>
    cases he
    split
    · exact hbad
    · next htempo => exact ok_setSlot h _ (slot_ok_setTempo (h.slots _) htempo)
  | reservedA0 => cases he; exact hbad
  | reservedD0 => cases he; exact hbad
  | reservedF0 => cases he; exact hbad
  | _ => cases hi

theorem ok_execEventAt {s : State} (h : s.Ok) (k : Fin 16) : (s.execEventAt k).Ok := by
  have hpass := ok_passEvent h k
  rcases execEventAt_cases s k with ⟨i, t, -, hi, ht, e⟩ | ⟨er, -, e⟩ <;> rw [e]
  · exact ok_forSlot (ok_exec_event hi (ok_forSlot hpass k) ht) _
  · exact ok_raiseSlot hpass k _

/-- A turn keeps the rules where an event is due: the loop takes no other turn (44_sequencer.md R285). -/
theorem ok_stepEvent {s : State} (h : s.Ok) {k : Fin 16} (hdue : (s.slot k).due = true) : (s.stepEvent k).Ok := by
  have hevent := ok_execEventAt (ok_setSlot h k (slot_ok_spend (h.slots k) hdue)) k
  unfold State.stepEvent
  simp only
  split
  · exact ok_readDelay hevent k
  · exact hevent

theorem ok_updateSlots {s : State} (h : s.Ok) {dt : NumQ} (hdt : 0 ≤ dt) (l : List (Fin 16)) :
    (l.foldl (updateSlot dt) s).Ok :=
  updateSlots_keeps dt l s (fun _ k ht _ => ok_setSlot ht k (slot_ok_advance (ht.slots k) hdt))
    (fun _ _ ht hdue => ok_stepEvent ht hdue) h

/-! ### The banks -/

/-- Where a built table is the table, building it on first use keeps that (41_envelope_generator.md R153). -/
theorem ok_ensureTable {s : State} (h : s.Ok) : s.ensureTable.Ok := by
  rw [ensureTable_eq h.table]
  exact
    { voices := voicesOk_congr (s := s) rfl rfl h.voices
      tones := tonesOk_congr (s := s) rfl h.tones
      slots := slotsOk_congr (s := s) rfl h.slots
      table := fun _ => rfl
      line := h.line }

theorem program_empty_ok : Program.empty.Ok := ⟨Nat.zero_le _, fun _ ht => by cases ht⟩

/-- An unload silences every voice (45_bank_loader.md R360). -/
theorem unloadAll_voice_active (s : State) (i : Fin 127) : (s.unloadAll.voice i).active = false := by
  rw [show s.unloadAll.voice i = (s.mapVoices Voice.cut).voice i from rfl, voice_mapVoices]; rfl

/-- An unload leaves no program populated (45_bank_loader.md R360). -/
theorem unloadAll_program (s : State) (p : Fin 128) : s.unloadAll.program p = Program.empty := by
  simp [State.program, State.unloadAll]

theorem ok_unloadAll {s : State} (h : s.Ok) : s.unloadAll.Ok where
  voices i := ⟨((ok_mapVoices h keepsVoice_cut).voices i).1, fun hact => by
    rw [unloadAll_voice_active] at hact; cases hact⟩
  tones p := by rw [unloadAll_program]; exact program_empty_ok
  slots := slotsOk_congr (s := s) rfl h.slots
  table := h.table
  line := h.line

/-- The tone of a record is as the rules of tones ask, the VAG that it names being one that decoded. -/
theorem recordTone_ok {hdr body : Bytes} {addr n p vol r : Nat} {t : Tone}
    (h : recordTone hdr (walkBody hdr body addr n) p vol r = some t) : t.Ok := by
  unfold recordTone at h
  simp only at h
  split at h
  · obtain ⟨g, hg, rfl⟩ := Option.map_eq_some_iff.1 h
    exact toneOf_ok (convertFields_ok _ _) (namedVag_walk hg)
  · cases h

/-- The records of one program, loaded where it is empty: at most 16 tones, each as the rules ask; the other programs
stay as they were (45_bank_loader.md R348). -/
theorem loadProgram_ok {hdr : Bytes} {pcm : List (Option Vag)}
    (hpcm : ∀ p vol r t, recordTone hdr pcm p vol r = some t → t.Ok) {s : State} (hs : s.TableOk) {p : Fin 128}
    (hempty : s.program p = Program.empty) :
    (loadProgram hdr pcm s p).TableOk ∧ ((loadProgram hdr pcm s p).program p).Ok ∧
      ∀ q : Fin 128, q ≠ p → (loadProgram hdr pcm s p).program q = s.program q := by
  obtain ⟨htable, htones, hother, -⟩ :=
    loadTones_eq hdr pcm p (u8 hdr (32 + 16 * p + 1)) (List.range (min (u8 hdr (32 + 16 * p)) 16)) hs
  rw [hempty, show Program.empty.tones = [] from rfl, List.nil_append] at htones
  refine ⟨htable, ⟨?_, fun t ht => ?_⟩, fun q hq => hother q (Fin.val_ne_of_ne hq)⟩
  · rw [loadProgram, htones]
    exact (List.length_filterMap_le _ _).trans (by rw [List.length_range]; exact min_le_right _ _)
  · rw [loadProgram, htones] at ht
    obtain ⟨r, -, hr⟩ := List.mem_filterMap.1 ht
    exact hpcm _ _ _ _ hr

/-- Each program of a list is loaded once, into an empty one; so all programs keep to the rules. -/
theorem loadPrograms_ok {hdr : Bytes} {pcm : List (Option Vag)}
    (hpcm : ∀ p vol r t, recordTone hdr pcm p vol r = some t → t.Ok) {l : List (Fin 128)} (hl : l.Nodup) {s : State}
    (hs : s.TableOk) (htones : s.TonesOk) (hempty : ∀ p ∈ l, s.program p = Program.empty) :
    (l.foldl (loadProgram hdr pcm) s).TableOk ∧ (l.foldl (loadProgram hdr pcm) s).TonesOk := by
  induction l generalizing s with
  | nil => exact ⟨hs, htones⟩
  | cons p l ih =>
    obtain ⟨hp, hl⟩ := List.nodup_cons.1 hl
    obtain ⟨hs', hok, hother⟩ := loadProgram_ok hpcm hs (hempty p List.mem_cons_self)
    refine ih hl hs' (fun q => ?_) fun q hq => ?_
    · by_cases hqp : q = p
      · rw [hqp]; exact hok
      · rw [hother q hqp]; exact htones q
    · rw [hother q fun hqp => hp (hqp ▸ hq)]; exact hempty q (List.mem_cons_of_mem p hq)

/-- The tables of a bank, loaded where no program holds a tone. -/
theorem loadBank_tablesOk {s : State} (hs : s.TableOk) (hempty : ∀ p : Fin 128, s.program p = Program.empty)
    (hdr body : Bytes) : (s.loadBank hdr body).TableOk ∧ (s.loadBank hdr body).TonesOk := by
  unfold State.loadBank
  refine loadPrograms_ok (fun _ _ _ _ ht => recordTone_ok ht) (List.nodup_finRange 128) hs (fun p => ?_)
    fun p _ => hempty p
  rw [program_congr (setBankMaster_prog s _), hempty p]
  exact program_empty_ok

/-- A bank loaded after an unload: no voice plays, so that the new tones take none away from a voice
(20_memory.md R77). -/
theorem ok_loadBank {s : State} (h : s.Ok) (hdr body : Bytes) : (s.unloadAll.loadBank hdr body).Ok := by
  have hun := ok_unloadAll h
  have hframe := loadBank_frame hdr body s.unloadAll
  have hvoices : (s.unloadAll.loadBank hdr body).voices = s.unloadAll.voices := by rw [hframe]
  obtain ⟨htable, htones⟩ := loadBank_tablesOk hun.table (unloadAll_program s) hdr body
  exact
    { voices := fun i => by
        rw [voice_congr hvoices]
        exact ⟨(hun.voices i).1, fun hact => by rw [unloadAll_voice_active] at hact; cases hact⟩
      tones := htones
      slots := slotsOk_congr (by rw [hframe]) hun.slots
      table := htable
      line := by unfold State.LineOk; rw [hframe]; exact hun.line }

/-! ### Every instruction, and every step -/

/-- Every well-formed instruction that answers a next state keeps the rules. -/
theorem ok_exec {i : Instr} (hwf : i.wellFormed = true) {s t : State} (h : s.Ok) (he : exec i s = .next t) : t.Ok := by
  cases i with
  | playNote p t pitch volume fm pan note prog =>
    simp only [exec, execPlayNote] at he
    split at he <;> cases he
    · exact ok_withResult (ok_playTone h ..) _
    · exact ok_withResult h _
  | stopVoice id => cases he; exact ok_withResult (ok_onVoice h id keepsVoice_noteOff) _
  | setVoice3d id vol pan => cases he; exact ok_withResult (ok_onVoice h id (keepsVoice_withGains vol pan)) _
  | updateVoicePitch id bend => cases he; exact ok_withResult (ok_onVoice h id (keepsVoice_bent bend)) _
  | generateAudio n =>
    rcases generateAudio_cases n s with e | ⟨-, -, e⟩ <;> rw [e] at he <;> cases he
    exact ok_withResult (ok_frames h _) _
  | seqPlay data bank =>
    cases he
    split
    · next hacc =>
      split
      · exact ok_startSlot h _ hacc bank
      · exact ok_withResult h _
    · exact ok_withResult h _
  | seqUpdate dt =>
    rw [exec_seqUpdate] at he
    rw [← Host.Outcome.next.inj he]
    exact ok_withResult (ok_updateSlots h (of_decide_eq_true hwf) _) _
  | seqStop id => cases he; exact ok_withResult (ok_onSlot h id fun _ => slot_ok_stopped) _
  | seqStopAll => cases he; exact ok_withResult (ok_mapSlots h fun _ => slot_ok_stopped) _
  | programPitchBend prog bend =>
    cases he
    split
    · exact ok_withResult (ok_programBend h _ _) _
    · exact ok_withResult h _
  | bankLoad hdr body =>
    simp only [exec, execBankLoad] at he
    split at he <;> cases he
    · exact ok_withResult (ok_loadBank h hdr body) _
    · exact ok_withResult (ok_unloadAll h) _
  | bankUnloadAll => cases he; exact ok_withResult (ok_unloadAll h) _
  | makeAdsr a b => cases he; rw [makeAdsr_eq]; exact ok_withResult (ok_ensureTable h) _
  | isSoundPlaying => cases he; exact ok_withResult h _
  | seqIsPlaying => cases he; exact ok_withResult h _
  | isProgramPopulated => cases he; exact ok_withResult h _
  | decodeAdpcm => cases he; exact ok_withResult h _
  | _ => exact ok_exec_event rfl h he

/-- Settles O58: a step runs a well-formed instruction or changes nothing. -/
theorem stepKeepsOk : Obligations.StepKeepsOk := by
  intro s t hs ht
  rcases step_cases s with h | ⟨i, rest, hwf, h⟩ | ⟨r, h⟩ <;> rw [h] at ht
  · cases ht; exact hs
  · exact ok_exec hwf (ok_withPort hs rest) ht
  · cases ht

end Invariants
end Sys2Proof.Proofs

/-! ## Memories: every instruction but `GENERATE_AUDIO` answers, and each memory has one writer
(20_memory.md R74, R77, R79, 45_bank_loader.md R340)

Each command outside the loader and the mixer is shown once to leave tone memory and delay line alone, most of them
because they are changes that `SeqFrame` describes followed by a result; the loader and the mixer are shown to leave
each other's memory alone. -/

namespace Sys2Proof.Proofs
section Memories

open Sys2Proof Sys2Proof.Machine

/-! ### Every instruction but one answers a next state -/

/-- Settles O13: `GENERATE_AUDIO` is the one meaning with an arm that is not a next state. -/
theorem execTotal : Obligations.ExecTotal := by
  intro i s hgen
  cases i with
  | generateAudio n => exact absurd rfl (hgen n)
  | playNote =>
    simp only [exec, execPlayNote]
    split <;> exact ⟨_, rfl⟩
  | bankLoad =>
    simp only [exec, execBankLoad]
    split <;> exact ⟨_, rfl⟩
  | _ => exact ⟨_, rfl⟩

/-! ### Changes that leave tone memory and delay line alone -/

/-- Tone memory with `BANK_MASTER`, and the delay line with `wp`, are in `t` as they are in `s`
(10_state.md R29, R31, R36). -/
structure MemoriesKept (s t : State) : Prop where
  prog : t.prog = s.prog
  bankMaster : t.bankMaster = s.bankMaster
  delayLine : t.delayLine = s.delayLine
  wp : t.wp = s.wp

theorem memoriesKept_refl (s : State) : MemoriesKept s s := ⟨rfl, rfl, rfl, rfl⟩

theorem memoriesKept_of_seqFrame {s t : State} (h : SeqFrame s t) : MemoriesKept s t := by
  obtain ⟨hprog, hmaster, -, -, hline, hwp, -⟩ := h.fields
  exact ⟨hprog, hmaster, hline, hwp⟩

theorem memoriesKept_withResult {s t : State} (h : MemoriesKept s t) (r : Result) : MemoriesKept s (t.withResult r) :=
  ⟨h.prog, h.bankMaster, h.delayLine, h.wp⟩

theorem onVoice_seqFrame (s : State) (id : Int) (f : Voice → Voice) : SeqFrame s (s.onVoice id f) := by
  rcases onVoice_cases s id f with e | ⟨i, e⟩ <;> rw [e] <;> rfl

theorem onSlot_seqFrame (s : State) (id : Int) (f : Slot → Slot) : SeqFrame s (s.onSlot id f) := by
  unfold State.onSlot
  split
  · exact setSlot_seqFrame s _ _
  · exact SeqFrame.refl s

theorem emit_seqFrame (s : State) (d : Diag) : SeqFrame s (s.emit d) := rfl

theorem memoriesKept_startSlot (s : State) (k : Fin 16) (data : Bytes) (bankId : Int) :
    MemoriesKept s (s.startSlot k data bankId) := by
  rcases startSlot_cases s k data bankId with ⟨wait, -, e⟩ | ⟨er, -, e⟩ <;> rw [e]
  · exact memoriesKept_withResult (memoriesKept_of_seqFrame (setSlot_seqFrame s k _)) _
  · exact memoriesKept_withResult (memoriesKept_of_seqFrame (emit_seqFrame s _)) _

/-- Building the rate table writes the rate table only (41_envelope_generator.md R153). -/
theorem memoriesKept_ensureTable (s : State) : MemoriesKept s s.ensureTable := by
  rcases ensureTable_cases s with ⟨-, e⟩ | ⟨-, e⟩ <;> rw [e]
  · exact memoriesKept_refl s
  · exact ⟨rfl, rfl, rfl, rfl⟩

/-- Everything but the mixer's command and the two commands that write banks leaves both memories alone. -/
theorem memoriesKept_exec {i : Instr} {s t : State} (hgen : ∀ n, i ≠ .generateAudio n)
    (hload : ∀ hdr body, i ≠ .bankLoad hdr body) (hunload : i ≠ .bankUnloadAll) (he : exec i s = .next t) :
    MemoriesKept s t := by
  have hresult : ∀ {u : State} (r : Result), SeqFrame s u → MemoriesKept s (u.withResult r) :=
    fun r hu => memoriesKept_withResult (memoriesKept_of_seqFrame hu) r
  cases i with
  | generateAudio n => exact absurd rfl (hgen n)
  | bankLoad hdr body => exact absurd rfl (hload hdr body)
  | bankUnloadAll => exact absurd rfl hunload
  | playNote =>
    simp only [exec, execPlayNote] at he
    split at he <;> cases he
    · exact hresult _ (playTone_seqFrame ..)
    · exact hresult _ (SeqFrame.refl s)
  | stopVoice id => cases he; exact hresult _ (onVoice_seqFrame s id _)
  | setVoice3d id => cases he; exact hresult _ (onVoice_seqFrame s id _)
  | updateVoicePitch id => cases he; exact hresult _ (onVoice_seqFrame s id _)
  | seqPlay data bank =>
    cases he
    split
    · split
      · exact memoriesKept_startSlot s _ data bank
      · exact hresult _ (SeqFrame.refl s)
    · exact hresult _ (SeqFrame.refl s)
  | seqUpdate dt =>
    rw [exec_seqUpdate] at he
    rw [← Host.Outcome.next.inj he]
    exact hresult _ (updateSlots_seqFrame dt _ s)
  | seqStop id => cases he; exact hresult _ (onSlot_seqFrame s id _)
  | seqStopAll => cases he; exact hresult (u := s.mapSlots Slot.stopped) _ rfl
  | programPitchBend prog bend =>
    cases he
    split
    · next p _ => exact hresult (u := s.programBend p bend) _ rfl
    · exact hresult _ (SeqFrame.refl s)
  | makeAdsr a b => cases he; rw [makeAdsr_eq]; exact memoriesKept_withResult (memoriesKept_ensureTable s) _
  | isSoundPlaying => cases he; exact hresult _ (SeqFrame.refl s)
  | seqIsPlaying => cases he; exact hresult _ (SeqFrame.refl s)
  | isProgramPopulated => cases he; exact hresult _ (SeqFrame.refl s)
  | decodeAdpcm => cases he; exact hresult _ (SeqFrame.refl s)
  | _ => exact memoriesKept_of_seqFrame (exec_event_seqFrame _ rfl he)

/-! ### The loader and the mixer leave each other's memory alone -/

/-- Rendering reads tone memory and does not write it (20_memory.md R79). -/
theorem tones_of_generateAudio {n : Int} {s t : State} (he : exec (.generateAudio n) s = .next t) :
    t.prog = s.prog ∧ t.bankMaster = s.bankMaster := by
  rcases generateAudio_cases n s with e | ⟨-, -, e⟩ <;> rw [e] at he <;> cases he
  rw [frames_frame]
  exact ⟨rfl, rfl⟩

/-- Loading a bank does not touch the delay line (45_bank_loader.md R340). -/
theorem line_of_bankLoad {hdr body : Bytes} {s t : State} (he : exec (.bankLoad hdr body) s = .next t) :
    t.delayLine = s.delayLine ∧ t.wp = s.wp := by
  simp only [exec, execBankLoad] at he
  split at he <;> cases he
  · rw [loadBank_frame]
    exact ⟨rfl, rfl⟩
  · exact ⟨rfl, rfl⟩

/-- Unloading the banks does not touch the delay line (45_bank_loader.md R360). -/
theorem line_of_bankUnloadAll {s t : State} (he : exec .bankUnloadAll s = .next t) :
    t.delayLine = s.delayLine ∧ t.wp = s.wp := by
  cases he
  exact ⟨rfl, rfl⟩

/-- Settles O60: the writers of one memory leave the other alone, and every other instruction leaves both. -/
theorem memoriesHaveOneWriter : Obligations.MemoriesHaveOneWriter := by
  intro i s t he
  refine ⟨fun hload hunload => ?_, fun hgen => ?_⟩
  · by_cases hgen : ∃ n, i = .generateAudio n
    · obtain ⟨n, rfl⟩ := hgen
      exact tones_of_generateAudio he
    · have hkept := memoriesKept_exec (not_exists.1 hgen) hload hunload he
      exact ⟨hkept.prog, hkept.bankMaster⟩
  · by_cases hload : ∃ hdr body, i = .bankLoad hdr body
    · obtain ⟨hdr, body, rfl⟩ := hload
      exact line_of_bankLoad he
    · by_cases hunload : i = .bankUnloadAll
      · subst hunload
        exact line_of_bankUnloadAll he
      · have hkept := memoriesKept_exec hgen (fun hdr body h => hload ⟨hdr, body, h⟩) hunload he
        exact ⟨hkept.delayLine, hkept.wp⟩

end Memories
end Sys2Proof.Proofs

/-! ## Encoding: the encoders and the decoders undo each other (30_encoding.md R102 to R105, R112)

Everything about events goes through the reading of one status byte: an equation of `decodeBody` per kind of status,
and `statusForm`, which says of every status byte how the bytes after it are read and what that spells. -/

namespace Sys2Proof.Proofs
section Encoding

open Sys2Proof Sys2Proof.Machine

/-! ### Bytes -/

theorem exists_dataByte {d : Byte} (h : d < 0x80) : ∃ e, d = dataByte e := ⟨low7 d, (dataByte_low7 d h).symm⟩

/-- A byte is a data byte, or its bit 7 is set (30_encoding.md R108). -/
theorem dataByte_or_ge (d : Byte) : (∃ e, d = dataByte e) ∨ 0x80 ≤ d := by
  by_cases h : d < 0x80
  · exact .inl (exists_dataByte h)
  · exact .inr (BitVec.not_lt.mp h)

/-- Every byte is a kind and a channel (30_encoding.md R104). -/
theorem exists_statusByte (st : Byte) : ∃ k c, st = statusByte k c := by
  refine ⟨(st >>> 4).setWidth 4, channelOf st, ?_⟩
  revert st; decide

/-- The kinds of status byte that R104 and R105 list, and those below them. -/
theorem kind_cases (k : BitVec 4) :
    k = 0x8 ∨ k = 0x9 ∨ k = 0xA ∨ k = 0xB ∨ k = 0xC ∨ k = 0xD ∨ k = 0xE ∨ k = 0xF ∨ k.toNat < 8 := by
  revert k; decide

/-! ### Data bytes -/

section DataBytes

variable (st : Byte) (used : Nat) (rest : Bytes)

theorem decodeData1_nil (make : BitVec 7 → Instr) :
    decodeData1 st used [] make = { used := used, running := st, result := .error (.overrun used) } := rfl

theorem decodeData1_dataByte (make : BitVec 7 → Instr) (d : BitVec 7) :
    decodeData1 st used (dataByte d :: rest) make = { used := used + 1, running := st, result := .ok (make d) } := by
  rw [decodeData1, if_pos (dataByte_lt d), low7_dataByte]

theorem decodeData1_of_ge (make : BitVec 7 → Instr) {d : Byte} (h : 0x80 ≤ d) :
    decodeData1 st used (d :: rest) make =
      { used := used + 1, running := st, result := .error (.badEvent used) } := by
  rw [decodeData1, if_neg (BitVec.not_lt.mpr h)]

theorem decodeData2_nil (make : BitVec 7 → BitVec 7 → Instr) :
    decodeData2 st used [] make = { used := used, running := st, result := .error (.overrun used) } := rfl

theorem decodeData2_dataByte (make : BitVec 7 → BitVec 7 → Instr) (d : BitVec 7) :
    decodeData2 st used (dataByte d :: rest) make = decodeData1 st (used + 1) rest (make d) := by
  rw [decodeData2, if_pos (dataByte_lt d), low7_dataByte]

theorem decodeData2_of_ge (make : BitVec 7 → BitVec 7 → Instr) {d : Byte} (h : 0x80 ≤ d) :
    decodeData2 st used (d :: rest) make =
      { used := used + 1, running := st, result := .error (.badEvent used) } := by
  rw [decodeData2, if_neg (BitVec.not_lt.mpr h)]

theorem decodeData2_dataBytes (make : BitVec 7 → BitVec 7 → Instr) (d e : BitVec 7) :
    decodeData2 st used (dataByte d :: dataByte e :: rest) make =
      { used := used + 2, running := st, result := .ok (make d e) } := by
  rw [decodeData2_dataByte, decodeData1_dataByte]

variable {st used}

theorem decodeData1_ok {bytes : Bytes} {make : BitVec 7 → Instr} {i : Instr}
    (h : (decodeData1 st used bytes make).result = .ok i) :
    ∃ d tail, bytes = dataByte d :: tail ∧ i = make d ∧ (decodeData1 st used bytes make).used = used + 1 := by
  cases bytes with
  | nil => cases h
  | cons b tail =>
    rcases dataByte_or_ge b with ⟨d, rfl⟩ | hb
    · rw [decodeData1_dataByte] at h
      cases h
      exact ⟨d, tail, rfl, rfl, by rw [decodeData1_dataByte]⟩
    · rw [decodeData1_of_ge st used tail make hb] at h; cases h

theorem decodeData2_ok {bytes : Bytes} {make : BitVec 7 → BitVec 7 → Instr} {i : Instr}
    (h : (decodeData2 st used bytes make).result = .ok i) :
    ∃ d e tail, bytes = dataByte d :: dataByte e :: tail ∧ i = make d e ∧
      (decodeData2 st used bytes make).used = used + 2 := by
  cases bytes with
  | nil => cases h
  | cons b tail =>
    rcases dataByte_or_ge b with ⟨d, rfl⟩ | hb
    · rw [decodeData2_dataByte] at h ⊢
      obtain ⟨e, tail', rfl, rfl, hused⟩ := decodeData1_ok h
      exact ⟨d, e, tail', rfl, rfl, hused⟩
    · rw [decodeData2_of_ge st used tail make hb] at h; cases h

end DataBytes

/-! ### Control Change -/

theorem ccOther_wellFormed_iff (c : BitVec 4) (ctrl val : BitVec 7) :
    (Instr.ccOther c ctrl val).wellFormed = true ↔ ctrl ≠ 7 ∧ ctrl ≠ 10 ∧ ctrl ≠ 11 := by
  simp only [Instr.wellFormed, Bool.and_eq_true, bne_iff_ne, and_assoc]

theorem controlChange_of_other (c : BitVec 4) {ctrl : BitVec 7} (val : BitVec 7)
    (h : (Instr.ccOther c ctrl val).wellFormed = true) : controlChange c ctrl val = .ccOther c ctrl val := by
  obtain ⟨h7, h10, h11⟩ := (ccOther_wellFormed_iff c ctrl val).mp h
  rw [controlChange, if_neg h7, if_neg h10, if_neg h11]

/-- Whichever row a controller number selects, its encoding is the same (30_encoding.md R106). -/
theorem controlChange_spells (c : BitVec 4) (ctrl val : BitVec 7) :
    (controlChange c ctrl val).wellFormed = true ∧
      encode (controlChange c ctrl val) = .stream [statusByte 0xB c, dataByte ctrl, dataByte val] := by
  unfold controlChange
  split
  · next h => subst h; exact ⟨rfl, rfl⟩
  · split
    · next h => subst h; exact ⟨rfl, rfl⟩
    · split
      · next h => subst h; exact ⟨rfl, rfl⟩
      · next h7 h10 h11 => exact ⟨(ccOther_wellFormed_iff c ctrl val).mpr ⟨h7, h10, h11⟩, rfl⟩

/-! ### Meta events -/

/-- The ways in which the bytes after a status byte `FF` go on (30_encoding.md R105). -/
inductive MetaForm : Bytes → Prop
  | missing : MetaForm []
  | eot (rest : Bytes) : MetaForm (0x2F :: rest)
  | tempo (t2 t1 t0 : Byte) (rest : Bytes) : MetaForm (0x51 :: t2 :: t1 :: t0 :: rest)
  | tempoShort (short : Bytes) (h : short.length < 3) : MetaForm (0x51 :: short)
  | typeOnly (ty : Byte) (h2F : ty ≠ 0x2F) (h51 : ty ≠ 0x51) : MetaForm [ty]
  | skipped (ty n : Byte) (body : Bytes) (h2F : ty ≠ 0x2F) (h51 : ty ≠ 0x51) (hn : n.toNat ≤ body.length) :
      MetaForm (ty :: n :: body)
  | skippedShort (ty n : Byte) (body : Bytes) (h2F : ty ≠ 0x2F) (h51 : ty ≠ 0x51) (hn : body.length < n.toNat) :
      MetaForm (ty :: n :: body)

theorem metaForm (bytes : Bytes) : MetaForm bytes := by
  cases bytes with
  | nil => exact .missing
  | cons ty rest =>
    by_cases h2F : ty = 0x2F
    · subst h2F; exact .eot rest
    by_cases h51 : ty = 0x51
    · subst h51
      match rest with
      | t2 :: t1 :: t0 :: rest => exact .tempo t2 t1 t0 rest
      | [] | [_] | [_, _] => exact .tempoShort _ (by simp)
    cases rest with
    | nil => exact .typeOnly ty h2F h51
    | cons n body =>
      by_cases hn : n.toNat ≤ body.length
      · exact .skipped ty n body h2F h51 hn
      · exact .skippedShort ty n body h2F h51 (Nat.lt_of_not_le hn)

theorem metaEvent_wellFormed_iff (ty : Byte) (data : Bytes) :
    (Instr.metaEvent ty data).wellFormed = true ↔ ty ≠ 0x2F ∧ ty ≠ 0x51 ∧ data.length ≤ 255 := by
  simp only [Instr.wellFormed, Bool.and_eq_true, bne_iff_ne, decide_eq_true_eq, and_assoc]

section MetaEvents

variable (st : Byte) (used : Nat)

theorem decodeMeta_eot (rest : Bytes) : decodeMeta st used (0x2F :: rest) =
    { used := used + 1, running := st, result := .ok .eot } := rfl

theorem decodeMeta_tempo (t2 t1 t0 : Byte) (rest : Bytes) : decodeMeta st used (0x51 :: t2 :: t1 :: t0 :: rest) =
    { used := used + 4, running := st, result := .ok (.tempo t2 t1 t0) } := rfl

theorem decodeMeta_tempo_short {short : Bytes} (h : short.length < 3) : decodeMeta st used (0x51 :: short) =
    { used := used + 1 + short.length, running := st, result := .error (.overrun (used + 1 + short.length)) } := by
  match short, h with
  | [], _ | [_], _ | [_, _], _ => rfl

theorem decodeMeta_type_only {ty : Byte} (h2F : ty ≠ 0x2F) (h51 : ty ≠ 0x51) : decodeMeta st used [ty] =
    { used := used + 1, running := st, result := .error (.overrun (used + 1)) } := by
  simp only [decodeMeta, if_neg h2F, if_neg h51]

theorem decodeMeta_skipped {ty n : Byte} {body : Bytes} (h2F : ty ≠ 0x2F) (h51 : ty ≠ 0x51)
    (hn : n.toNat ≤ body.length) : decodeMeta st used (ty :: n :: body) =
      { used := used + 2 + n.toNat, running := st, result := .ok (.metaEvent ty (body.take n.toNat)) } := by
  simp only [decodeMeta, if_neg h2F, if_neg h51, if_pos hn]

theorem decodeMeta_skipped_short {ty n : Byte} {body : Bytes} (h2F : ty ≠ 0x2F) (h51 : ty ≠ 0x51)
    (hn : body.length < n.toNat) : decodeMeta st used (ty :: n :: body) =
      { used := used + 2 + body.length, running := st, result := .error (.overrun (used + 2 + body.length)) } := by
  simp only [decodeMeta, if_neg h2F, if_neg h51, if_neg (Nat.not_le.mpr hn)]

end MetaEvents

/-! ### The reading of a status byte -/

section Status

variable (c : BitVec 4) (used : Nat) (bytes : Bytes)

theorem decodeBody_noteOff : decodeBody (statusByte 0x8 c) used bytes =
    decodeData2 (statusByte 0x8 c) used bytes (.noteOff c) := by
  simp only [decodeBody, statusByte_kind, channelOf_statusByte]; rfl

theorem decodeBody_noteOn : decodeBody (statusByte 0x9 c) used bytes =
    decodeData2 (statusByte 0x9 c) used bytes (.noteOn c) := by
  simp only [decodeBody, statusByte_kind, channelOf_statusByte]; rfl

theorem decodeBody_reservedA0 : decodeBody (statusByte 0xA c) used bytes =
    { used := used, running := statusByte 0xA c, result := .ok (.reservedA0 c) } := by
  simp only [decodeBody, statusByte_kind, channelOf_statusByte]; rfl

theorem decodeBody_controlChange : decodeBody (statusByte 0xB c) used bytes =
    decodeData2 (statusByte 0xB c) used bytes (controlChange c) := by
  simp only [decodeBody, statusByte_kind, channelOf_statusByte]; rfl

theorem decodeBody_pc : decodeBody (statusByte 0xC c) used bytes =
    decodeData1 (statusByte 0xC c) used bytes (.pc c) := by
  simp only [decodeBody, statusByte_kind, channelOf_statusByte]; rfl

theorem decodeBody_reservedD0 : decodeBody (statusByte 0xD c) used bytes =
    { used := used, running := statusByte 0xD c, result := .ok (.reservedD0 c) } := by
  simp only [decodeBody, statusByte_kind, channelOf_statusByte]; rfl

theorem decodeBody_pb : decodeBody (statusByte 0xE c) used bytes =
    decodeData2 (statusByte 0xE c) used bytes (.pb c) := by
  simp only [decodeBody, statusByte_kind, channelOf_statusByte]; rfl

theorem decodeBody_reservedF0 {c : BitVec 4} (h : c ≠ 15) : decodeBody (statusByte 0xF c) used bytes =
    { used := used, running := statusByte 0xF c, result := .ok (.reservedF0 c) } := by
  simp only [decodeBody, statusByte_kind, channelOf_statusByte]
  exact if_neg fun hff => h ((statusByte_ff c).mp hff)

theorem decodeBody_meta : decodeBody 0xFF used bytes = decodeMeta 0xFF used bytes := rfl

/-- Log entry 12: a status below `80` hex has no case in R290. -/
theorem decodeBody_low {k : BitVec 4} (h : k.toNat < 8) : decodeBody (statusByte k c) used bytes =
    { used := used, running := statusByte k c, result := .error (.badEvent used) } := by
  simp only [decodeBody, statusByte_kind]
  split
  case h_9 => rfl
  all_goals omega

end Status

/-- How the bytes after a status byte are read, and that the events they make are spelled by the status byte and the
data bytes read (30_encoding.md R104, R105, R107). -/
inductive StatusForm (st : Byte) : Prop
  | two (make : BitVec 7 → BitVec 7 → Instr)
      (read : ∀ used bytes, decodeBody st used bytes = decodeData2 st used bytes make)
      (spells : ∀ d e, (make d e).wellFormed = true ∧ encode (make d e) = .stream [st, dataByte d, dataByte e])
  | one (make : BitVec 7 → Instr)
      (read : ∀ used bytes, decodeBody st used bytes = decodeData1 st used bytes make)
      (spells : ∀ d, (make d).wellFormed = true ∧ encode (make d) = .stream [st, dataByte d])
  | reserved (i : Instr)
      (read : ∀ used bytes, decodeBody st used bytes = { used := used, running := st, result := .ok i })
      (spells : i.wellFormed = true ∧ encode i = .stream [st])
  | metaEvent (eq : st = 0xFF)
  | low (read : ∀ used bytes, decodeBody st used bytes =
      { used := used, running := st, result := .error (.badEvent used) })

theorem statusForm (st : Byte) : StatusForm st := by
  obtain ⟨k, c, rfl⟩ := exists_statusByte st
  rcases kind_cases k with rfl | rfl | rfl | rfl | rfl | rfl | rfl | rfl | hk
  · exact .two _ (decodeBody_noteOff c) fun _ _ => ⟨rfl, rfl⟩
  · exact .two _ (decodeBody_noteOn c) fun _ _ => ⟨rfl, rfl⟩
  · exact .reserved _ (decodeBody_reservedA0 c) ⟨rfl, rfl⟩
  · exact .two _ (decodeBody_controlChange c) (controlChange_spells c)
  · exact .one _ (decodeBody_pc c) fun _ => ⟨rfl, rfl⟩
  · exact .reserved _ (decodeBody_reservedD0 c) ⟨rfl, rfl⟩
  · exact .two _ (decodeBody_pb c) fun _ _ => ⟨rfl, rfl⟩
  · by_cases hc : c = 15
    · exact .metaEvent ((statusByte_ff c).mpr hc)
    · exact .reserved _ (fun used bytes => decodeBody_reservedF0 used bytes hc)
        ⟨by simpa [Instr.wellFormed] using hc, rfl⟩
  · exact .low fun used bytes => decodeBody_low c used bytes hk

/-! ### A fetch by its first byte -/

theorem decodeEvent_of_status (running : Byte) {st : Byte} (rest : Bytes) (h : 0x80 ≤ st) :
    decodeEvent running (st :: rest) = decodeBody st 1 rest := by
  simp only [decodeEvent, if_pos h]

theorem decodeEvent_of_running {running d : Byte} (rest : Bytes) (hrunning : 0x80 ≤ running) (hd : d < 0x80) :
    decodeEvent running (d :: rest) = decodeBody running 0 (d :: rest) := by
  have hne : running ≠ 0 := by rintro rfl; exact absurd hrunning (by decide)
  simp only [decodeEvent, if_neg (BitVec.not_le.mpr hd), if_neg hne]

/-! ### Decode after encode -/

/-- An event's encoding begins with a status byte (30_encoding.md R103). -/
theorem exists_status_of_encode {i : Instr} {b : Bytes} (h : encode i = .stream b) :
    ∃ st tail, b = st :: tail ∧ 0x80 ≤ st := by
  cases i with
  | eot | tempo | metaEvent => cases h; exact ⟨0xFF, _, rfl, by decide⟩
  | _ => cases h <;> exact ⟨_, _, rfl, statusByte_ge _ _ (by decide)⟩

/-- After the status byte of an event's encoding, the rest of it is read as that event and exactly passed. -/
theorem decodeBody_of_encode {i : Instr} {st : Byte} {tail : Bytes} (used : Nat) (rest : Bytes)
    (hwf : i.wellFormed = true) (h : encode i = .stream (st :: tail)) :
    decodeBody st used (tail ++ rest) = { used := used + tail.length, running := st, result := .ok i } := by
  cases i with
  | noteOff c key vel =>
    cases h; exact (decodeBody_noteOff c used _).trans (decodeData2_dataBytes _ used rest _ key vel)
  | noteOn c key vel =>
    cases h; exact (decodeBody_noteOn c used _).trans (decodeData2_dataBytes _ used rest _ key vel)
  | reservedA0 c => cases h; exact decodeBody_reservedA0 c used rest
  | ccVolume c val =>
    cases h; exact (decodeBody_controlChange c used _).trans (decodeData2_dataBytes _ used rest _ 7 val)
  | ccPan c val =>
    cases h; exact (decodeBody_controlChange c used _).trans (decodeData2_dataBytes _ used rest _ 10 val)
  | ccExpr c val =>
    cases h; exact (decodeBody_controlChange c used _).trans (decodeData2_dataBytes _ used rest _ 11 val)
  | ccOther c ctrl val =>
    cases h
    rw [← controlChange_of_other c val hwf]
    exact (decodeBody_controlChange c used _).trans (decodeData2_dataBytes _ used rest _ ctrl val)
  | pc c prog => cases h; exact (decodeBody_pc c used _).trans (decodeData1_dataByte _ used rest _ prog)
  | reservedD0 c => cases h; exact decodeBody_reservedD0 c used rest
  | pb c ll mm => cases h; exact (decodeBody_pb c used _).trans (decodeData2_dataBytes _ used rest _ ll mm)
  | eot => cases h; exact decodeMeta_eot 0xFF used rest
  | tempo t2 t1 t0 => cases h; exact decodeMeta_tempo 0xFF used t2 t1 t0 rest
  | metaEvent ty data =>
    cases h
    obtain ⟨h2F, h51, hlen⟩ := (metaEvent_wellFormed_iff ty data).mp hwf
    have hn : (BitVec.ofNat 8 data.length).toNat = data.length := by
      rw [BitVec.toNat_ofNat]; omega
    have hread := decodeMeta_skipped 0xFF used (n := BitVec.ofNat 8 data.length) (body := data ++ rest) h2F h51
      (by rw [hn, List.length_append]; omega)
    rw [hn, List.take_left] at hread
    refine hread.trans ?_
    simp only [List.length_cons]
    congr 1
    omega
  | reservedF0 low => cases h; exact decodeBody_reservedF0 used rest (bne_iff_ne.mp hwf)
  | _ => cases h

/-- Settles O2: the status byte selects the reading of the rest. -/
theorem eventDecodesInStream : Obligations.EventDecodesInStream := by
  intro i b rest running hwf henc
  obtain ⟨st, tail, rfl, hst⟩ := exists_status_of_encode henc
  calc decodeEvent running (st :: tail ++ rest)
      = decodeBody st 1 (tail ++ rest) := decodeEvent_of_status running _ hst
    _ = { used := 1 + tail.length, running := st, result := .ok i } := decodeBody_of_encode 1 rest hwf henc
    _ = _ := by rw [Nat.add_comm]; rfl

/-- Settles O1: an event by its bytes with nothing after them, a command by its transaction. -/
theorem decodeEncodeRoundTrip : Obligations.DecodeEncodeRoundTrip := by
  intro i hwf
  cases henc : encode i with
  | stream b =>
    have hread := eventDecodesInStream i b [] 0 hwf henc
    rw [List.append_nil] at hread
    simp only [decode, hread]
  | port x => simp only [decode, decodeCommand_of_encode hwf henc]

/-- Settles O3: the running status selects the same reading as the status byte that is left out. -/
theorem runningStatusDecodes : Obligations.RunningStatusDecodes := by
  intro i st d ds rest hwf henc hd
  obtain ⟨_, _, heq, hst⟩ := exists_status_of_encode henc
  cases heq
  calc decodeEvent st (d :: ds ++ rest)
      = decodeBody st 0 (d :: ds ++ rest) := decodeEvent_of_running _ hst hd
    _ = { used := 0 + (d :: ds).length, running := st, result := .ok i } := decodeBody_of_encode 0 rest hwf henc
    _ = _ := by rw [Nat.zero_add]; rfl

/-! ### Encode after decode -/

/-- The event that the bytes after an `FF` make is well formed, and they spell it. -/
theorem decodeMeta_ok {used : Nat} {bytes : Bytes} {i : Instr} (h : (decodeMeta 0xFF used bytes).result = .ok i) :
    i.wellFormed = true ∧ ∃ read rest, bytes = read ++ rest ∧
      (decodeMeta 0xFF used bytes).used = used + read.length ∧ encode i = .stream (0xFF :: read) := by
  cases metaForm bytes with
  | missing => cases h
  | eot rest => cases h; exact ⟨rfl, [0x2F], rest, rfl, rfl, rfl⟩
  | tempo t2 t1 t0 rest => cases h; exact ⟨rfl, [0x51, t2, t1, t0], rest, rfl, rfl, rfl⟩
  | tempoShort short hlen => rw [decodeMeta_tempo_short _ _ hlen] at h; cases h
  | typeOnly ty h2F h51 => rw [decodeMeta_type_only _ _ h2F h51] at h; cases h
  | skipped ty n body h2F h51 hn =>
    rw [decodeMeta_skipped _ _ h2F h51 hn] at h ⊢
    cases h
    have hlen : (body.take n.toNat).length = n.toNat := List.length_take_of_le hn
    refine ⟨(metaEvent_wellFormed_iff _ _).mpr ⟨h2F, h51, by rw [hlen]; omega⟩,
      ty :: n :: body.take n.toNat, body.drop n.toNat, ?_, ?_, ?_⟩
    · simp only [List.cons_append, List.take_append_drop]
    · simp only [List.length_cons, hlen]; omega
    · rw [encode, hlen, BitVec.ofNat_toNat, BitVec.setWidth_eq]
  | skippedShort ty n body h2F h51 hn => rw [decodeMeta_skipped_short _ _ h2F h51 hn] at h; cases h

/-- The event that a status and the bytes after it make is well formed, and they spell it: the bytes read are exactly
those after the status byte in its encoding. -/
theorem decodeBody_ok {st : Byte} {used : Nat} {bytes : Bytes} {i : Instr}
    (h : (decodeBody st used bytes).result = .ok i) :
    i.wellFormed = true ∧ ∃ read rest, bytes = read ++ rest ∧
      (decodeBody st used bytes).used = used + read.length ∧ encode i = .stream (st :: read) := by
  cases statusForm st with
  | two make hread spells =>
    rw [hread] at h ⊢
    obtain ⟨d, e, rest, rfl, rfl, hused⟩ := decodeData2_ok h
    exact ⟨(spells d e).1, [dataByte d, dataByte e], rest, rfl, hused, (spells d e).2⟩
  | one make hread spells =>
    rw [hread] at h ⊢
    obtain ⟨d, rest, rfl, rfl, hused⟩ := decodeData1_ok h
    exact ⟨(spells d).1, [dataByte d], rest, rfl, hused, (spells d).2⟩
  | reserved j hread spells =>
    rw [hread] at h ⊢
    cases h
    exact ⟨spells.1, [], bytes, rfl, rfl, spells.2⟩
  | metaEvent eq => subst eq; exact decodeMeta_ok h
  | low hread => rw [hread] at h; cases h

theorem wellFormed_of_decodeEvent {running : Byte} {bytes : Bytes} {i : Instr}
    (h : (decodeEvent running bytes).result = .ok i) : i.wellFormed = true := by
  rcases decodeEvent_cases running bytes with ⟨-, e⟩ | ⟨b, rest, -, -, e⟩ | ⟨b, rest, -, -, -, e⟩ | ⟨b, rest, -, -, -, e⟩
  all_goals rw [e] at h
  · cases h
  · exact (decodeBody_ok h).1
  · cases h
  · exact (decodeBody_ok h).1

/-- Settles O10: after the status byte, the bytes read are those of the encoding. -/
theorem eventEncodingUnique : Obligations.EventEncodingUnique := by
  intro running bytes i hst h
  cases bytes with
  | nil => exact absurd hst (by decide)
  | cons st tail =>
    change 0x80 ≤ st at hst
    rw [decodeEvent_of_status running tail hst] at h ⊢
    obtain ⟨-, read, rest, rfl, hused, henc⟩ := decodeBody_ok h
    rw [hused, henc, Nat.add_comm 1, List.take_succ_cons, List.take_left]

/-! ### Commands -/

theorem noteOperand_of_toNote {v : Int} {d : BitVec 7} (h : toNote v = some d) : noteOperand d = .int v := by
  unfold toNote at h
  split at h
  · next hv =>
    cases h
    have hmod : v % (2 ^ 7 : Nat) = v := Int.emod_eq_of_lt hv.1 (by omega)
    rw [noteOperand, BitVec.toNat_ofInt, hmod, Int.toNat_of_nonneg hv.1]
  · cases h

theorem transaction_eq {x : Transaction} {n : Nat} {args : List Operand} (hcode : x.code.toNat = n)
    (hargs : x.args = args) : x = { code := BitVec.ofNat 8 n, args := args } := by
  subst hcode hargs
  rw [BitVec.ofNat_toNat, BitVec.setWidth_eq]

/-- Settles O9: each code's row is met by one operand list, and its operands are those of the command. -/
theorem commandEncodingUnique : Obligations.CommandEncodingUnique := by
  intro x i h
  unfold decodeCommand at h
  split at h
  case h_1 hcode =>
    split at h
    · next hargs =>
      split at h <;> cases h
      next hnote hprog =>
      rw [encode, noteOperand_of_toNote hnote, noteOperand_of_toNote hprog]
      exact congrArg Source.port (transaction_eq hcode hargs).symm
    · cases h
  case h_8 hcode =>
    split at h
    · next hargs =>
      split at h <;> cases h
      exact congrArg Source.port (transaction_eq hcode hargs).symm
    · cases h
  case h_18 => cases h
  all_goals
    next hcode =>
    split at h <;> cases h
    next hargs => exact congrArg Source.port (transaction_eq hcode hargs).symm

/-- What the port carries is no event (60_exceptions.md R390). -/
theorem isEvent_of_encode_port {i : Instr} {x : Transaction} (h : encode i = .port x) : i.isEvent = false := by
  cases i <;> cases h <;> rfl

/-- Settles O8: on the port, what decodes is what the transaction encodes, so it is no event. -/
theorem decodedInstructionsWellFormed : Obligations.DecodedInstructionsWellFormed :=
  ⟨fun running bytes i h => ⟨wellFormed_of_decodeEvent h, decodeEvent_isEvent running bytes i h⟩,
    fun x i h => ⟨wellFormed_of_decodeCommand h, isEvent_of_encode_port (commandEncodingUnique x i h)⟩⟩

/-- Settles O7: a table word by evaluation, written-out bytes as the encoding of their instruction. -/
theorem tableWordsDecode : Obligations.TableWordsDecode :=
  ⟨by decide, by decide, by decide, by decide, by decide, by decide,
    decodeEncodeRoundTrip (.noteOn 0 60 100) rfl, decodeEncodeRoundTrip (.pb 1 127 64) rfl,
    decodeEncodeRoundTrip (.tempo 0x07 0xA1 0x20) rfl, decodeEncodeRoundTrip (.updateVoicePitch 3 1) rfl⟩

/-! ### Refusals -/

/-- No meaning refuses: `GENERATE_AUDIO` answers or faults, and every other instruction answers. -/
theorem exec_ne_refused (i : Instr) (s : State) (r : Refusal) : exec i s ≠ .refused r := by
  intro h
  by_cases hgen : ∃ n, i = .generateAudio n
  · obtain ⟨n, rfl⟩ := hgen
    rcases generateAudio_cases n s with e | ⟨-, -, e⟩ <;> rw [e] at h <;> cases h
  · obtain ⟨t, ht⟩ := execTotal i s (not_exists.mp hgen)
    rw [ht] at h; cases h

/-- Settles O12: with no transaction pending nothing is refused, and a command's meaning never is. -/
theorem stepRefusesOnlyNonCommands : Obligations.StepRefusesOnlyNonCommands := by
  intro s r h
  cases hport : s.port with
  | nil => rw [step_of_port_nil hport] at h; cases h
  | cons x rest =>
    cases hx : decodeCommand x with
    | ok i =>
      rw [step_of_decodeCommand hport hx] at h
      exact absurd h (exec_ne_refused i _ r)
    | error e =>
      simp only [step, hport, hx] at h
      cases h
      exact ⟨x, rest, e, rfl, hx, rfl⟩

/-! ### Bytes that do not decode -/

/-- What a fetch did, counted from one byte earlier. -/
def fromByteBefore (f : EventFetch) : EventFetch :=
  { used := f.used + 1
    running := f.running
    result := match f.result with
      | .ok i => .ok i
      | .error (.overrun off) => .error (.overrun (off + 1))
      | .error (.badEvent off) => .error (.badEvent (off + 1)) }

theorem decodeData1_succ (st : Byte) (used : Nat) (bytes : Bytes) (make : BitVec 7 → Instr) :
    decodeData1 st (used + 1) bytes make = fromByteBefore (decodeData1 st used bytes make) := by
  cases bytes with
  | nil => rfl
  | cons b rest =>
    rcases dataByte_or_ge b with ⟨d, rfl⟩ | hb
    · rw [decodeData1_dataByte, decodeData1_dataByte]; rfl
    · rw [decodeData1_of_ge st _ rest make hb, decodeData1_of_ge st _ rest make hb]; rfl

theorem decodeData2_succ (st : Byte) (used : Nat) (bytes : Bytes) (make : BitVec 7 → BitVec 7 → Instr) :
    decodeData2 st (used + 1) bytes make = fromByteBefore (decodeData2 st used bytes make) := by
  cases bytes with
  | nil => rfl
  | cons b rest =>
    rcases dataByte_or_ge b with ⟨d, rfl⟩ | hb
    · rw [decodeData2_dataByte, decodeData2_dataByte, decodeData1_succ]
    · rw [decodeData2_of_ge st _ rest make hb, decodeData2_of_ge st _ rest make hb]; rfl

theorem decodeMeta_succ (st : Byte) (used : Nat) (bytes : Bytes) :
    decodeMeta st (used + 1) bytes = fromByteBefore (decodeMeta st used bytes) := by
  cases metaForm bytes with
  | missing | eot | tempo => rfl
  | tempoShort short hlen =>
    rw [decodeMeta_tempo_short _ _ hlen, decodeMeta_tempo_short _ _ hlen, fromByteBefore]
    simp only [Nat.add_right_comm]
  | typeOnly ty h2F h51 => rw [decodeMeta_type_only _ _ h2F h51, decodeMeta_type_only _ _ h2F h51]; rfl
  | skipped ty n body h2F h51 hn =>
    rw [decodeMeta_skipped _ _ h2F h51 hn, decodeMeta_skipped _ _ h2F h51 hn, fromByteBefore]
    simp only [Nat.add_right_comm]
  | skippedShort ty n body h2F h51 hn =>
    rw [decodeMeta_skipped_short _ _ h2F h51 hn, decodeMeta_skipped_short _ _ h2F h51 hn, fromByteBefore]
    simp only [Nat.add_right_comm]

/-- The reading of an event does not depend on how many bytes were passed before it, only its offsets do. -/
theorem decodeBody_succ (st : Byte) (used : Nat) (bytes : Bytes) :
    decodeBody st (used + 1) bytes = fromByteBefore (decodeBody st used bytes) := by
  cases statusForm st with
  | two make read => rw [read, read, decodeData2_succ]
  | one make read => rw [read, read, decodeData1_succ]
  | reserved i read => rw [read, read]; rfl
  | metaEvent eq => subst eq; exact decodeMeta_succ 0xFF used bytes
  | low read => rw [read, read]; rfl

theorem kind_of_data2 {k c : BitVec 4} (h : statusByte k c >>> 4 ∈ ([0x8, 0x9, 0xB, 0xE] : Bytes)) :
    k = 0x8 ∨ k = 0x9 ∨ k = 0xB ∨ k = 0xE := by
  revert k c; decide

/-- The kinds of status with two data bytes (30_encoding.md R104). -/
theorem reads_data2 {st : Byte} (h : st >>> 4 ∈ ([0x8, 0x9, 0xB, 0xE] : Bytes)) :
    ∃ make, ∀ used bytes, decodeBody st used bytes = decodeData2 st used bytes make := by
  obtain ⟨k, c, rfl⟩ := exists_statusByte st
  rcases kind_of_data2 h with rfl | rfl | rfl | rfl
  · exact ⟨_, decodeBody_noteOff c⟩
  · exact ⟨_, decodeBody_noteOn c⟩
  · exact ⟨_, decodeBody_controlChange c⟩
  · exact ⟨_, decodeBody_pb c⟩

theorem programChange_or_data2 {k c : BitVec 4} (h : statusByte k c >>> 4 ∈ ([0x8, 0x9, 0xB, 0xC, 0xE] : Bytes)) :
    k = 0xC ∨ statusByte k c >>> 4 ∈ ([0x8, 0x9, 0xB, 0xE] : Bytes) := by
  revert k c; decide

/-- The kinds of status with one data byte or two (30_encoding.md R104). -/
theorem reads_data {st : Byte} (h : st >>> 4 ∈ ([0x8, 0x9, 0xB, 0xC, 0xE] : Bytes)) :
    (∃ make, ∀ used bytes, decodeBody st used bytes = decodeData2 st used bytes make) ∨
    ∃ make, ∀ used bytes, decodeBody st used bytes = decodeData1 st used bytes make := by
  obtain ⟨k, c, rfl⟩ := exists_statusByte st
  rcases programChange_or_data2 h with rfl | h2
  · exact .inr ⟨_, decodeBody_pc c⟩
  · exact .inl (reads_data2 h2)

theorem status_of_data_kind {st : Byte} (h : st >>> 4 ∈ ([0x8, 0x9, 0xB, 0xC, 0xE] : Bytes)) : 0x80 ≤ st := by
  revert st; decide

theorem data_kind_of_data2 {st : Byte} (h : st >>> 4 ∈ ([0x8, 0x9, 0xB, 0xE] : Bytes)) :
    st >>> 4 ∈ ([0x8, 0x9, 0xB, 0xC, 0xE] : Bytes) := by
  revert st; decide

section DataKinds

variable {st : Byte} (used : Nat)

theorem decodeBody_first_missing (h : st >>> 4 ∈ ([0x8, 0x9, 0xB, 0xC, 0xE] : Bytes)) :
    (decodeBody st used []).result = .error (.overrun used) := by
  rcases reads_data h with ⟨make, read⟩ | ⟨make, read⟩
  · rw [read, decodeData2_nil]
  · rw [read, decodeData1_nil]

theorem decodeBody_first_bad {d : Byte} (rest : Bytes) (h : st >>> 4 ∈ ([0x8, 0x9, 0xB, 0xC, 0xE] : Bytes))
    (hd : 0x80 ≤ d) : (decodeBody st used (d :: rest)).result = .error (.badEvent used) := by
  rcases reads_data h with ⟨make, read⟩ | ⟨make, read⟩
  · rw [read, decodeData2_of_ge st used rest make hd]
  · rw [read, decodeData1_of_ge st used rest make hd]

theorem decodeBody_second_missing {d : Byte} (h : st >>> 4 ∈ ([0x8, 0x9, 0xB, 0xE] : Bytes)) (hd : d < 0x80) :
    (decodeBody st used [d]).result = .error (.overrun (used + 1)) := by
  obtain ⟨make, read⟩ := reads_data2 h
  obtain ⟨d, rfl⟩ := exists_dataByte hd
  rw [read, decodeData2_dataByte, decodeData1_nil]

theorem decodeBody_second_bad {d e : Byte} (rest : Bytes) (h : st >>> 4 ∈ ([0x8, 0x9, 0xB, 0xE] : Bytes))
    (hd : d < 0x80) (he : 0x80 ≤ e) :
    (decodeBody st used (d :: e :: rest)).result = .error (.badEvent (used + 1)) := by
  obtain ⟨make, read⟩ := reads_data2 h
  obtain ⟨d, rfl⟩ := exists_dataByte hd
  rw [read, decodeData2_dataByte, decodeData1_of_ge st _ rest _ he]

end DataKinds

theorem decodeEvent_meta (running : Byte) (rest : Bytes) :
    decodeEvent running (0xFF :: rest) = decodeMeta 0xFF 1 rest :=
  (decodeEvent_of_status running rest (by decide)).trans (decodeBody_meta 1 rest)

theorem decodeEvent_without_status {b : Byte} (rest : Bytes) (h : b < 0x80) :
    (decodeEvent 0 (b :: rest)).result = .error (.badEvent 0) := by
  simp only [decodeEvent, if_neg (BitVec.not_le.mpr h), if_true]

/-- Settles O4: each clause is the reading of the status byte (one byte passed) or of the running status (none). -/
theorem badBytesRefused : Obligations.BadBytesRefused := by
  refine ⟨fun b rest h => decodeEvent_without_status rest h, fun running => rfl, fun running st d rest h hd => ?_,
    fun running st d e rest h hd he => ?_, fun running st h => ?_, fun running st d h hd => ?_,
    fun running => rfl, fun running bytes h => ?_, fun running ty h2F h51 => ?_,
    fun running ty n bytes h2F h51 hn => ?_, fun running st d rest hst hd => ?_⟩
  · rw [decodeEvent_of_status running _ (status_of_data_kind h)]
    exact decodeBody_first_bad 1 rest h hd
  · have hst := status_of_data_kind (data_kind_of_data2 h)
    rw [decodeEvent_of_status running _ hst, decodeEvent_of_running _ hst hd]
    exact ⟨decodeBody_second_bad 1 rest h hd he, decodeBody_second_bad 0 rest h hd he⟩
  · rw [decodeEvent_of_status running _ (status_of_data_kind h)]
    exact decodeBody_first_missing 1 h
  · have hst := status_of_data_kind (data_kind_of_data2 h)
    rw [decodeEvent_of_status running _ hst, decodeEvent_of_running _ hst hd]
    exact ⟨decodeBody_second_missing 1 h hd, decodeBody_second_missing 0 h hd⟩
  · rw [decodeEvent_meta, decodeMeta_tempo_short _ _ h]
  · rw [decodeEvent_meta, decodeMeta_type_only _ _ h2F h51]
  · rw [decodeEvent_meta, decodeMeta_skipped_short _ _ h2F h51 hn]
  · rw [decodeEvent_of_status running _ hst, decodeEvent_of_running rest hst hd]
    exact decodeBody_succ st 0 (d :: rest)

/-! ### Variable-length quantities -/

/-- A byte of a quantity that is not its last: seven bits under a one bit (30_encoding.md R102). -/
def continuedByte (g : BitVec 7) : Byte := dataByte g ||| 0x80

theorem low7_continuedByte (g : BitVec 7) : low7 (continuedByte g) = g := by revert g; decide

theorem continuedByte_not_lt (g : BitVec 7) : ¬ continuedByte g < 0x80 := by revert g; decide

/-- The concatenation of seven-bit groups below a value, the first group most significant. -/
def groupsValue (v : Nat) (groups : List (BitVec 7)) : Nat := groups.foldl (fun v g => v * 128 + g.toNat) v

/-- Reading passes over the bytes with bit 7 set, as far as the limit allows, and collects their groups. -/
theorem decodeVlqFrom_continued (groups : List (BitVec 7)) (fuel used v : Nat) (rest : Bytes) :
    decodeVlqFrom (groups.length + fuel) used v (groups.map continuedByte ++ rest) =
      decodeVlqFrom fuel (used + groups.length) (groupsValue v groups) rest := by
  induction groups generalizing used v with
  | nil => simp [groupsValue]
  | cons g groups ih =>
    have hfuel : (g :: groups).length + fuel = (groups.length + fuel) + 1 := by
      rw [List.length_cons]; omega
    rw [hfuel, List.map_cons, List.cons_append, decodeVlqFrom, if_neg (continuedByte_not_lt g), low7_continuedByte, ih,
      List.length_cons, Nat.add_assoc, Nat.add_comm 1]
    rfl

theorem decodeVlqFrom_last (fuel used v : Nat) (d : BitVec 7) (rest : Bytes) :
    decodeVlqFrom (fuel + 1) used v (dataByte d :: rest) = { used := used + 1, result := .ok (v * 128 + d.toNat) } := by
  rw [decodeVlqFrom, if_pos (dataByte_lt d), low7_dataByte]

/-- What follows up to `VLQ_MAX_BYTES` bytes with bit 7 set is read with the limit that they leave. -/
theorem decodeVlq_continued (groups : List (BitVec 7)) (rest : Bytes) (h : groups.length ≤ Config.vlqMaxBytes) :
    decodeVlq (groups.map continuedByte ++ rest) =
      decodeVlqFrom (Config.vlqMaxBytes - groups.length) groups.length (groupsValue 0 groups) rest := by
  have hread := decodeVlqFrom_continued groups (Config.vlqMaxBytes - groups.length) 0 0 rest
  rwa [Nat.add_sub_of_le h, Nat.zero_add] at hread

theorem exists_limit_left {n : Nat} (h : n ≤ 3) : ∃ fuel, Config.vlqMaxBytes - n = fuel + 1 :=
  ⟨3 - n, by rw [Config.vlqMaxBytes]; omega⟩

theorem decodeVlq_value (groups : List (BitVec 7)) (last : BitVec 7) (rest : Bytes) (h : groups.length ≤ 3) :
    decodeVlq (groups.map continuedByte ++ dataByte last :: rest) =
      { used := groups.length + 1, result := .ok (groupsValue 0 (groups ++ [last])) } := by
  obtain ⟨fuel, hfuel⟩ := exists_limit_left h
  rw [decodeVlq_continued groups _ (Nat.le_succ_of_le h), hfuel, decodeVlqFrom_last, groupsValue, groupsValue,
    List.foldl_append]
  rfl

/-- Settles O6: after the bytes with bit 7 set, the limit, the last byte or the end of the buffer decides. -/
theorem vlqDecodes : Obligations.VlqDecodes := by
  refine ⟨decodeVlq_value, fun groups rest h => ?_, fun groups h => ?_⟩
  · have hread := decodeVlq_continued groups rest h.le
    rw [h] at hread
    exact hread
  · obtain ⟨fuel, hfuel⟩ := exists_limit_left h
    have hread := decodeVlq_continued groups [] (Nat.le_succ_of_le h)
    rw [hfuel, List.append_nil] at hread
    exact hread

theorem ofNat_continuedByte {g : Nat} (h : g < 128) :
    BitVec.ofNat 8 (128 + g) = continuedByte (BitVec.ofNat 7 g) := by
  revert g; decide

theorem ofNat_dataByte (v : Nat) : BitVec.ofNat 8 (v % 128) = dataByte (BitVec.ofNat 7 v) := by
  apply BitVec.eq_of_toNat_eq
  simp only [dataByte, BitVec.toNat_setWidth, BitVec.toNat_ofNat]

/-- The groups of a quantity above its last, as many as its shortest encoding has. -/
def upperGroups (v : Nat) : List (BitVec 7) :=
  if v < 128 then []
  else if v < 128 ^ 2 then [BitVec.ofNat 7 (v / 128)]
  else if v < 128 ^ 3 then [BitVec.ofNat 7 (v / 128 ^ 2), BitVec.ofNat 7 (v / 128 % 128)]
  else [BitVec.ofNat 7 (v / 128 ^ 3 % 128), BitVec.ofNat 7 (v / 128 ^ 2 % 128), BitVec.ofNat 7 (v / 128 % 128)]

theorem upperGroups_length (v : Nat) : (upperGroups v).length ≤ 3 := by
  unfold upperGroups
  repeat' split
  all_goals simp

theorem encodeVlq_eq_groups (v : Nat) :
    encodeVlq v = (upperGroups v).map continuedByte ++ [dataByte (BitVec.ofNat 7 v)] := by
  have hgroup : ∀ n, n % 128 < 128 := fun n => Nat.mod_lt n (by decide)
  unfold encodeVlq upperGroups
  split
  · next h => rw [← ofNat_dataByte, Nat.mod_eq_of_lt h]; rfl
  split
  · rw [ofNat_continuedByte (by omega), ofNat_dataByte]; rfl
  split
  · rw [ofNat_continuedByte (by omega), ofNat_continuedByte (hgroup _), ofNat_dataByte]; rfl
  · rw [ofNat_continuedByte (hgroup _), ofNat_continuedByte (hgroup _), ofNat_continuedByte (hgroup _), ofNat_dataByte]
    rfl

/-- The groups of a quantity below `128 ^ 4`, put together, are the quantity. -/
theorem groupsValue_upperGroups {v : Nat} (h : v < 2 ^ 28) :
    groupsValue 0 (upperGroups v ++ [BitVec.ofNat 7 v]) = v := by
  unfold upperGroups
  repeat' split
  all_goals
    simp only [groupsValue, List.nil_append, List.cons_append, List.foldl_cons, List.foldl_nil, BitVec.toNat_ofNat]
    omega

/-- Settles O5: the shortest encoding is the bytes of the quantity's groups. -/
theorem vlqRoundTrip : Obligations.VlqRoundTrip := by
  intro v rest hv
  have hread := decodeVlq_value (upperGroups v) (BitVec.ofNat 7 v) rest (upperGroups_length v)
  rw [groupsValue_upperGroups hv] at hread
  rw [encodeVlq_eq_groups, List.append_assoc, List.length_append, List.length_map]
  exact hread

end Encoding
end Sys2Proof.Proofs

/-! ## The ADPCM decoder (40_adpcm_decoder.md) -/

namespace Sys2Proof.Proofs
section Adpcm

open Sys2Proof Sys2Proof.Machine

/-! ### The blocks of a stream (40_adpcm_decoder.md R131, R134) -/

/-- What the first block of a stream decodes to: the accumulators after it and its samples
(40_adpcm_decoder.md R130). -/
def firstBlock (data : Bytes) (a : Accumulators) : Accumulators × List (BitVec 16) :=
  decodeNibbles ((data.getD 0 0).extractLsb' 0 4).toNat ((data.getD 0 0).extractLsb' 4 4).toNat (memRead data 2 14) a

theorem decodeBlocks_succ_of_end {n : Nat} {data : Bytes} {a : Accumulators}
    (h : (data.getD 1 0).getLsbD 0 = true) :
    decodeBlocks (n + 1) data a = { samples := (firstBlock data a).2, endFlags := some (data.getD 1 0) } := by
  simp only [decodeBlocks, h, if_true, firstBlock]

theorem decodeBlocks_succ_of_plain {n : Nat} {data : Bytes} {a : Accumulators}
    (h : (data.getD 1 0).getLsbD 0 = false) :
    decodeBlocks (n + 1) data a =
      { samples := (firstBlock data a).2 ++ (decodeBlocks n (data.drop 16) (firstBlock data a).1).samples
        endFlags := (decodeBlocks n (data.drop 16) (firstBlock data a).1).endFlags } := by
  simp only [decodeBlocks, h, Bool.false_eq_true, if_false, firstBlock]

theorem firstBlock_length {data : Bytes} (a : Accumulators) (h : 16 ≤ data.length) :
    (firstBlock data a).2.length = 28 := by
  have hbytes : (memRead data 2 14).length = 14 := by
    rw [memRead, List.length_take, List.length_drop]; omega
  rw [firstBlock, decodeNibbles_length, hbytes]

theorem firstBlock_append {data : Bytes} (tail : Bytes) (a : Accumulators) (h : 16 ≤ data.length) :
    firstBlock (data ++ tail) a = firstBlock data a := by
  have hbytes : memRead (data ++ tail) 2 14 = memRead data 2 14 := by
    rw [memRead, memRead, List.drop_append_of_le_length (by omega),
      List.take_append_of_le_length (by rw [List.length_drop]; omega)]
  rw [firstBlock, firstBlock, hbytes, List.getD_append _ _ _ _ (by omega)]

/-- The whole blocks that a stream has are decoded without a look at what follows them. -/
theorem decodeBlocks_append {n : Nat} {data : Bytes} (tail : Bytes) (a : Accumulators) (h : 16 * n ≤ data.length) :
    decodeBlocks n (data ++ tail) a = decodeBlocks n data a := by
  induction n generalizing data a with
  | zero => rfl
  | succ n ih =>
    have hflags : (data ++ tail).getD 1 0 = data.getD 1 0 := List.getD_append _ _ _ _ (by omega)
    have hblock : firstBlock (data ++ tail) a = firstBlock data a := firstBlock_append tail a (by omega)
    have hdrop : (data ++ tail).drop 16 = data.drop 16 ++ tail := List.drop_append_of_le_length (by omega)
    cases hend : (data.getD 1 0).getLsbD 0 with
    | true =>
      rw [decodeBlocks_succ_of_end hend, decodeBlocks_succ_of_end (by rw [hflags]; exact hend), hblock, hflags]
    | false =>
      rw [decodeBlocks_succ_of_plain hend, decodeBlocks_succ_of_plain (by rw [hflags]; exact hend), hblock, hdrop,
        ih _ (by rw [List.length_drop]; omega)]

/-- Blocks without the end flag give 28 samples each, and the decoder goes on after them. -/
theorem decodeBlocks_of_plain_prefix {m : Nat} {data : Bytes} (a : Accumulators) (hlen : 16 * m ≤ data.length)
    (hplain : ∀ b < m, (data.getD (16 * b + 1) 0).getLsbD 0 = false) :
    ∃ (out : List (BitVec 16)) (c : Accumulators), out.length = 28 * m ∧ ∀ k, decodeBlocks (m + k) data a =
      { samples := out ++ (decodeBlocks k (data.drop (16 * m)) c).samples
        endFlags := (decodeBlocks k (data.drop (16 * m)) c).endFlags } := by
  induction m generalizing data a with
  | zero => exact ⟨[], a, rfl, fun k => by simp⟩
  | succ m ih =>
    obtain ⟨out, c, hout, hrest⟩ := ih (data := data.drop 16) (firstBlock data a).1
      (by rw [List.length_drop]; omega) (fun b hb => by
        have hb' := hplain (b + 1) (by omega)
        rw [show 16 * (b + 1) + 1 = 16 + (16 * b + 1) by omega] at hb'
        simpa [List.getD_eq_getElem?_getD] using hb')
    refine ⟨(firstBlock data a).2 ++ out, c, ?_, fun k => ?_⟩
    · rw [List.length_append, firstBlock_length a (by omega), hout]; omega
    · rw [show m + 1 + k = m + k + 1 by omega, decodeBlocks_succ_of_plain (hplain 0 (by omega)), hrest k,
        List.drop_drop, List.append_assoc, show 16 + 16 * m = 16 * (m + 1) by omega]

/-- An end-flagged block is decoded in full and is the last one, however many blocks are left after it. -/
theorem decodeBlocks_of_ended {m : Nat} {data : Bytes} (a : Accumulators) (hlen : 16 * (m + 1) ≤ data.length)
    (hplain : ∀ b < m, (data.getD (16 * b + 1) 0).getLsbD 0 = false)
    (hend : (data.getD (16 * m + 1) 0).getLsbD 0 = true) :
    ∃ out : List (BitVec 16), out.length = 28 * (m + 1) ∧ ∀ j, decodeBlocks (m + (j + 1)) data a =
      { samples := out, endFlags := some (data.getD (16 * m + 1) 0) } := by
  obtain ⟨out, c, hout, hrest⟩ := decodeBlocks_of_plain_prefix a (by omega) hplain
  have hflags : (data.drop (16 * m)).getD 1 0 = data.getD (16 * m + 1) 0 := by
    simp [List.getD_eq_getElem?_getD]
  refine ⟨out ++ (firstBlock (data.drop (16 * m)) c).2, ?_, fun j => ?_⟩
  · rw [List.length_append, hout, firstBlock_length c (by rw [List.length_drop]; omega)]; omega
  · rw [hrest, decodeBlocks_succ_of_end (by rw [hflags]; exact hend), hflags]

/-- Settles O51: the number of blocks is `len div 16`, each block looks at its own 16 bytes only, and the end flag of
the first flagged block stops the decoder after it. -/
theorem adpcmFraming : Obligations.AdpcmFraming := by
  refine ⟨adpcm_length, fun data tail hdvd htail => ?_, fun data more m hlen hplain hend => ?_,
    fun data hplain => ?_⟩
  · have hblocks : (data ++ tail).length / 16 = data.length / 16 := by rw [List.length_append]; omega
    rw [adpcm, adpcm, hblocks]
    exact decodeBlocks_append tail _ (by omega)
  · obtain ⟨out, hout, hall⟩ := decodeBlocks_of_ended .fresh hlen.ge hplain hend
    have hdata : adpcm data = { samples := out, endFlags := some (data.getD (16 * m + 1) 0) } := by
      rw [adpcm, show data.length / 16 = m + (0 + 1) by omega]
      exact hall 0
    have hflag : ∀ b ≤ m, (data ++ more).getD (16 * b + 1) 0 = data.getD (16 * b + 1) 0 := fun b hb =>
      List.getD_append _ _ _ _ (by omega)
    obtain ⟨_, -, hall'⟩ := decodeBlocks_of_ended (m := m) (data := data ++ more) .fresh
      (by rw [List.length_append]; omega) (fun b hb => by rw [hflag b hb.le]; exact hplain b hb)
      (by rw [hflag m le_rfl]; exact hend)
    have hmore : adpcm (data ++ more) = adpcm data := by
      rw [adpcm, adpcm, show data.length / 16 = m + (0 + 1) by omega,
        show (data ++ more).length / 16 = m + (more.length / 16 + 1) by rw [List.length_append]; omega,
        hall' (more.length / 16), ← hall' 0]
      exact decodeBlocks_append more _ (by omega)
    exact ⟨hmore, by rw [hdata]; exact hout, by rw [hdata]⟩
  · obtain ⟨out, c, hout, hrest⟩ := decodeBlocks_of_plain_prefix .fresh (by omega) hplain
    have hdata : adpcm data = { samples := out, endFlags := none } := by
      rw [adpcm]; simpa [decodeBlocks] using hrest 0
    rw [hdata]
    exact ⟨hout, rfl⟩

/-! ### The predictor (40_adpcm_decoder.md R136 to R143) -/

theorem filterK0_eq_getD (f : Nat) : filterK0 f = [0, 60, 115, 98, 122].getD f 0 / 64 := by
  match f with
  | 0 | 1 | 2 | 3 | 4 => norm_num [filterK0]
  | n + 5 => simp [filterK0]

theorem filterK1_eq_getD (f : Nat) : filterK1 f = [0, 0, -52, -55, -60].getD f 0 / 64 := by
  match f with
  | 0 | 1 | 2 | 3 | 4 => norm_num [filterK1]
  | n + 5 => simp [filterK1]

/-- The indices from 5 on act as 0, whose coefficients are 0 (40_adpcm_decoder.md R133, R136). -/
theorem filterK_eq_zero {f : Nat} (h : f = 0 ∨ 5 ≤ f) : filterK0 f = 0 ∧ filterK1 f = 0 := by
  rcases h with rfl | h
  · exact ⟨rfl, rfl⟩
  · obtain ⟨n, rfl⟩ := Nat.exists_eq_add_of_le' h
    exact ⟨rfl, rfl⟩

theorem scaleNibble_eq (d : Int) (shift : Nat) : scaleNibble d shift = d * 4096 / 2 ^ shift := by
  rw [scaleNibble]; push_cast; rfl

/-- A scaled nibble is a 16-bit number, so that the clamp leaves it as it is. -/
theorem scaleNibble_range (nib : BitVec 4) (shift : Nat) :
    -32768 ≤ scaleNibble nib.toInt shift ∧ scaleNibble nib.toInt shift ≤ 32767 := by
  have hlow : -8 ≤ nib.toInt := by simpa using BitVec.le_toInt nib
  have hhigh : nib.toInt < 8 := by simpa using BitVec.toInt_lt (x := nib)
  have hpow : (1 : Int) ≤ 2 ^ shift := one_le_pow₀ (by norm_num)
  rw [scaleNibble_eq]
  exact ⟨(Int.le_ediv_iff_mul_le (by omega)).2 (by nlinarith), Int.ediv_le_of_le_mul (by omega) (by nlinarith)⟩

/-- With both coefficients 0, a sample is its scaled nibble (40_adpcm_decoder.md R136, R140). -/
theorem decodeNibble_of_filter_zero {f : Nat} (h : f = 0 ∨ 5 ≤ f) (shift : Nat) (nib : BitVec 4)
    (a : Accumulators) :
    (decodeNibble shift f nib a).2 = BitVec.ofInt 16 (nib.toInt * 4096 / 2 ^ shift) := by
  obtain ⟨hK0, hK1⟩ := filterK_eq_zero h
  have hclamp : clamp16 (scaleNibble nib.toInt shift) = scaleNibble nib.toInt shift := by
    have := scaleNibble_range nib shift
    unfold clamp16 clampInt; omega
  rw [decodeNibble, hK0, hK1, mul_zero, mul_zero, add_zero, add_zero, roundAway_int, hclamp, scaleNibble_eq]
  rfl

theorem decodeNibbles_of_filter_zero {f : Nat} (h : f = 0 ∨ 5 ≤ f) (shift : Nat) (bytes : Bytes)
    (a : Accumulators) :
    (decodeNibbles shift f bytes a).2 = bytes.flatMap fun b =>
      [BitVec.ofInt 16 ((b.extractLsb' 0 4).toInt * 4096 / 2 ^ shift),
        BitVec.ofInt 16 ((b.extractLsb' 4 4).toInt * 4096 / 2 ^ shift)] := by
  induction bytes generalizing a with
  | nil => rfl
  | cons b rest ih =>
    rw [decodeNibbles, List.flatMap_cons, ih, decodeNibble_of_filter_zero h, decodeNibble_of_filter_zero h]
    rfl

/-- One block's samples, end-flagged or not. -/
theorem adpcm_single_block {data : Bytes} (h : data.length = 16) :
    (adpcm data).samples = (firstBlock data .fresh).2 := by
  rw [adpcm, h]
  cases hend : (data.getD 1 0).getLsbD 0 with
  | true => rw [decodeBlocks_succ_of_end hend]
  | false => rw [decodeBlocks_succ_of_plain hend]; exact List.append_nil _

/-- The accumulators before sample `n` of a stream, fresh before the first (40_adpcm_decoder.md R130, R141). -/
def accumulatorsAt (data : Bytes) : Nat → Accumulators
  | 0 => .fresh
  | n + 1 => (decodeSample data n (accumulatorsAt data n)).1

theorem adpcm_sample {data : Bytes} {n : Nat} (h : n < (adpcm data).samples.length) :
    (adpcm data).samples[n]? = some (decodeSample data n (accumulatorsAt data n)).2 :=
  decodeBlocks_sample (data.length / 16) data (accumulatorsAt data) (by omega) (fun _ _ => rfl) n h

/-- The nibble of sample `n` of a stream, in the terms of the stream's bytes (40_adpcm_decoder.md R135). -/
theorem nibbleAt_block (data : Bytes) (n : Nat) :
    nibbleAt (data.drop (16 * (n / 28) + 2)) (n % 28) =
      if n % 2 = 0 then (data.getD (16 * (n / 28) + 2 + n % 28 / 2) 0).extractLsb' 0 4
      else (data.getD (16 * (n / 28) + 2 + n % 28 / 2) 0).extractLsb' 4 4 := by
  have hparity : n % 28 % 2 = n % 2 := by omega
  simp only [nibbleAt, hparity, List.getD_eq_getElem?_getD, List.getElem?_drop]

/-- A sample is what the predictor leaves in the first accumulator, rounded and clamped
(40_adpcm_decoder.md R140). -/
theorem decodeNibble_emits (shift f : Nat) (nib : BitVec 4) (a : Accumulators) :
    (decodeNibble shift f nib a).2 = toI16 (clamp16 (roundAway (decodeNibble shift f nib a).1.s1)) := rfl

/-- The rounding is half away from zero, and the clamp is to 16 bits (00_scope.md R9). -/
theorem toI16_clamp16_roundAway (x : NumQ) : toI16 (clamp16 (roundAway x)) =
    BitVec.ofInt 16 (min (max (if 0 ≤ x then ⌊x + 1 / 2⌋ else -⌊-x + 1 / 2⌋) (-32768)) 32767) := by
  simp only [toI16, clamp16, clampInt, roundAway, floorOf_eq]

/-- Settles O50: the two accumulators are the two results before the sample, so the sequence of second accumulators is
the sequence of results, two places late. -/
theorem adpcmFilterZero : Obligations.AdpcmFilterZero := by
  refine ⟨fun _ _ => rfl, fun data => ⟨fun n => (accumulatorsAt data n).s2, rfl, rfl, fun n hn => ?_⟩,
    fun s header flags bytes hlen hfilter => ?_⟩
  · have hresult : (accumulatorsAt data (n + 2)).s2 = (decodeSample data n (accumulatorsAt data n)).1.s1 := rfl
    have hlast : (accumulatorsAt data (n + 1)).s2 = (accumulatorsAt data n).s1 := rfl
    refine ⟨?_, ?_⟩
    · simp only [hresult, hlast, decodeSample, decodeNibble, nibbleAt_block, scaleNibble_eq, filterK0_eq_getD,
        filterK1_eq_getD]
    · rw [adpcm_sample hn, decodeSample, decodeNibble_emits, toI16_clamp16_roundAway]
      rfl
  · have hblock : memRead (header :: flags :: bytes) 2 14 = bytes := List.take_of_length_le hlen.le
    have hidx : (header.extractLsb' 4 4).toNat = 0 ∨ 5 ≤ (header.extractLsb' 4 4).toNat :=
      hfilter.imp_left fun h => by rw [h]; rfl
    have hsamples := adpcm_single_block (data := header :: flags :: bytes) (by simp [hlen])
    rw [firstBlock, hblock, List.getD_cons_zero, decodeNibbles_of_filter_zero hidx] at hsamples
    rw [← hsamples]
    rfl

end Adpcm
end Sys2Proof.Proofs

/-! ## The envelope curve generator (41_envelope_generator.md) -/

namespace Sys2Proof.Proofs
section Envelope

open Sys2Proof Sys2Proof.Machine

/-! ### The rate table (41_envelope_generator.md R152) -/

theorem rateTable_eq_zero_of_lt (i : Fin 160) (h : i.val < 32) : rateTable[i] = 0 := by
  have hlen : i.val < (List.replicate 32 (0 : BitVec 32)).length := by simpa using h
  simp only [rateTable, Fin.getElem_fin, Vector.getElem_mk, List.getElem_toArray, List.getElem_append_left hlen,
    List.getElem_replicate]

/-- From entry 32 on, an entry of the table is a rate that the converter reads (41_envelope_generator.md R157). -/
theorem rateTable_eq_rateAt (n : Nat) (h : 32 + n < 160) : (rateTable[32 + n]).toNat = rateAt rateTable n := by
  have hlen : 32 + n < rateTable.toList.length := by simpa using h
  rw [rateAt, Int.toNat_natCast, Nat.add_comm n 32, List.getD_eq_getElem _ _ hlen, Vector.getElem_toList]

/-- Settles O53: entry `32 + 4k + j` is the rate at `4k + j`, of which `k` is the quotient by 4 and `j` the rest. -/
theorem rateTableClosedForm : Obligations.RateTableClosedForm := by
  refine ⟨rateTable_eq_zero_of_lt, fun k j => ?_⟩
  have hquot : (4 * k.val + j.val) / 4 = k.val := by omega
  have hrest : (4 * k.val + j.val) % 4 = j.val := by omega
  have hentry := rateTable_eq_rateAt (4 * k.val + j.val) (by omega)
  rw [rateAt_table _ (by omega), Int.toNat_natCast, hquot, hrest] at hentry
  simpa only [Nat.add_assoc] using hentry

/-- The rates of the closed form, by the index past the zeros (41_envelope_generator.md R152). -/
def closedRate (x : Int) : Nat := min ((4 + x.toNat % 4) * 2 ^ (x.toNat / 4)) 0x3FFFFFFF

theorem rateAt_table_eq_closedRate {x : Int} (h : x ≤ 127) : rateAt rateTable x = closedRate x := rateAt_table x h

/-! ### The stepped counts (41_envelope_generator.md R157) -/

/-- One turn of `Stepped` on the counter, at the closed form's rates (41_envelope_generator.md R157). -/
def closedTurn (base : Int) (c : Nat) : Nat :=
  c - closedRate (base + [0, 4, 6, 8, 9, 10, 11, 12].getD (c / 2 ^ 28) 12)

/-- `n` is the number of turns after which the counter first fails `goesOn`. -/
def StopsAfter (base : Int) (goesOn : Nat → Prop) (n : Nat) : Prop :=
  (∀ m < n, goesOn ((closedTurn base)^[m] 0x7FFFFFFF)) ∧ ¬ goesOn ((closedTurn base)^[n] 0x7FFFFFFF)

theorem stepOffset_eq_getD (n : Nat) : stepOffset n = [0, 4, 6, 8, 9, 10, 11, 12].getD n 12 := by
  match n with
  | 0 | 1 | 2 | 3 | 4 | 5 | 6 | 7 => rfl
  | n + 8 => rfl

/-- A base of at most 115 keeps every index that `Stepped` forms inside the table. -/
theorem turn_eq_closedTurn {base : Int} (hbase : base ≤ 115) :
    (fun c => c - rateAt rateTable (base + stepOffset (c / 2 ^ 28))) = closedTurn base := by
  funext c
  have hoffset := (stepOffset_range (c / 2 ^ 28)).2
  rw [closedTurn, ← stepOffset_eq_getD, rateAt_table_eq_closedRate (by omega)]

/-- `Stepped` on the table answers the number of turns its loop takes and the counter after them. -/
theorem stepped_stopsAfter {base : Int} (hbase : base ≤ 115) (stopLevel : Option Nat) :
    StopsAfter base (fun c => steppedGoesOn stopLevel c = true) (stepped rateTable base stopLevel).1 ∧
      (stepped rateTable base stopLevel).2 = (closedTurn base)^[(stepped rateTable base stopLevel).1] 0x7FFFFFFF := by
  have hpos (c : Nat) : 0 < rateAt rateTable (base + stepOffset (c / 2 ^ 28)) := by
    have hoffset := (stepOffset_range (c / 2 ^ 28)).2
    exact rateAt_table_pos _ (by omega)
  obtain ⟨N, hrun, hon, hstop⟩ := steppedLoop_stops rateTable base stopLevel hpos envMax envMax 0 le_rfl
  rw [turn_eq_closedTurn hbase] at hrun hon hstop
  rw [stepped, hrun, Nat.zero_add]
  exact ⟨⟨hon, ne_true_of_eq_false hstop⟩, rfl⟩

theorem steppedGoesOn_none_iff (c : Nat) : steppedGoesOn none c = true ↔ 0 < c := by simp [steppedGoesOn]

theorem steppedGoesOn_some_iff (l c : Nat) : steppedGoesOn (some l) c = true ↔ 0 < c ∧ l < c / 2 ^ 27 := by
  simp [steppedGoesOn]

/-- Without a stop level the loop runs until the counter is 0. -/
theorem stepped_none_stopsAfter {base : Int} (hbase : base ≤ 115) :
    StopsAfter base (fun c => 0 < c) (stepped rateTable base none).1 := by
  simpa only [steppedGoesOn_none_iff] using (stepped_stopsAfter hbase none).1

/-! ### The counts of the four parameters (41_envelope_generator.md R158 to R161) -/

/-- The attack index, the sixteen slowest rates replaced (41_envelope_generator.md R158). -/
def attackIndex (f : AdsrFields) : Nat := if f.ar ^^^ 0x7F < 0x10 then 0x7F else f.ar ^^^ 0x7F

theorem attackIndex_le {f : AdsrFields} (har : f.ar < 2 ^ 7) : attackIndex f ≤ 127 := by
  have hxor : f.ar ^^^ 0x7F < 2 ^ 7 := Nat.xor_lt_two_pow har (by norm_num)
  unfold attackIndex
  split <;> omega

theorem attackCount_table {f : AdsrFields} (har : f.ar < 2 ^ 7) :
    attackCount rateTable f =
      if f.am = 0 then cdiv 0x7FFFFFFF (closedRate (attackIndex f - 0x10))
      else 0x60000000 / closedRate (attackIndex f - 0x10) +
        cdiv (0x1FFFFFFF - 0x60000000 % closedRate (attackIndex f - 0x10)) (closedRate (attackIndex f - 0x18)) := by
  have hle := attackIndex_le har
  have hindex : (if ((f.ar ^^^ 0x7F : Nat) : Int) < 0x10 then 0x7F else ((f.ar ^^^ 0x7F : Nat) : Int)) =
      attackIndex f := by
    unfold attackIndex
    split_ifs <;> omega
  rw [← rateAt_table_eq_closedRate (by omega), ← rateAt_table_eq_closedRate (by omega), ← hindex]
  rfl

/-- The decay count and the counter where its loop stops, every base being at most 100. -/
theorem decayCount_stopsAfter {f : AdsrFields} (hdr : f.dr < 2 ^ 5) :
    StopsAfter (4 * (f.dr ^^^ 0x1F : Nat) - 0x18) (fun c => 0 < c ∧ f.sl < c / 2 ^ 27) (decayCount rateTable f).1 ∧
      (decayCount rateTable f).2 =
        (closedTurn (4 * (f.dr ^^^ 0x1F : Nat) - 0x18))^[(decayCount rateTable f).1] 0x7FFFFFFF := by
  have hxor : f.dr ^^^ 0x1F < 2 ^ 5 := Nat.xor_lt_two_pow hdr (by norm_num)
  have hstep := stepped_stopsAfter (base := 4 * (f.dr ^^^ 0x1F : Nat) - 0x18) (by omega) (some f.sl)
  simp only [steppedGoesOn_some_iff] at hstep
  exact hstep

/-- `nS` as R160 computes it where the sustain time is finite. -/
def finiteSustainCount (rt : Vector (BitVec 32) 160) (f : AdsrFields) : Nat :=
  if f.sm = 0 then cdiv 0x7FFFFFFF (rateAt rt (((f.sr ^^^ 0x7F : Nat) : Int) - 0x0F))
  else (stepped rt (((f.sr ^^^ 0x7F : Nat) : Int) - 0x1B) none).1

theorem sustainTime_eq (rt : Vector (BitVec 32) 160) (f : AdsrFields) :
    sustainTime rt f =
      if f.sd = 0 ∨ f.sr = 0x7F then none else some (dbCorr (seconds (finiteSustainCount rt f))) := by
  unfold sustainTime sustainCount finiteSustainCount
  split_ifs <;> rfl

theorem finiteSustainCount_table {f : AdsrFields} (hsr : f.sr < 2 ^ 7) :
    if f.sm = 0 then
      finiteSustainCount rateTable f = cdiv 0x7FFFFFFF (closedRate ((f.sr ^^^ 0x7F : Nat) - 0x0F))
    else StopsAfter ((f.sr ^^^ 0x7F : Nat) - 0x1B) (fun c => 0 < c) (finiteSustainCount rateTable f) := by
  have hxor : f.sr ^^^ 0x7F < 2 ^ 7 := Nat.xor_lt_two_pow hsr (by norm_num)
  unfold finiteSustainCount
  split
  · rw [rateAt_table_eq_closedRate (by omega)]
  · exact stepped_none_stopsAfter (by omega)

/-- The release index, the six slowest rates of an exponential release replaced (41_envelope_generator.md R161). -/
def releaseIndex (f : AdsrFields) : Nat := if 4 * (f.rr ^^^ 0x1F) < 0x18 then 124 else 4 * (f.rr ^^^ 0x1F)

theorem releaseCount_table {f : AdsrFields} (hrr : f.rr < 2 ^ 5) :
    if f.rm = 0 then
      releaseCount rateTable f = cdiv 0x7FFFFFFF (closedRate ((4 * (f.rr ^^^ 0x1F) : Nat) - 0x0C))
    else StopsAfter (releaseIndex f - 0x18) (fun c => 0 < c) (releaseCount rateTable f) := by
  have hxor : f.rr ^^^ 0x1F < 2 ^ 5 := Nat.xor_lt_two_pow hrr (by norm_num)
  have hindex : (if 4 * ((f.rr ^^^ 0x1F : Nat) : Int) < 0x18 then 124 else 4 * ((f.rr ^^^ 0x1F : Nat) : Int)) =
      releaseIndex f := by
    unfold releaseIndex
    split_ifs <;> omega
  have hle : releaseIndex f ≤ 124 := by
    unfold releaseIndex
    split <;> omega
  simp only [releaseCount, hindex]
  split
  · rw [rateAt_table_eq_closedRate (by omega)]
    rfl
  · exact stepped_none_stopsAfter (by omega)

/-! ### The substitution (41_envelope_generator.md R164) -/

theorem nearMax_iff (nD : Nat) (f : AdsrFields) :
    nearMax nD f = true ↔ (nD < 2 ∨ 0x0E ≤ f.dr ∧ 0x0C ≤ f.sl) ∧ f.sr < 0x7E := by
  simp [nearMax]

/-- Below `Sr = 0x7E` the sustain is not infinite, so the substitution asks of it only that it decreases. -/
theorem decayAndSustain_eq (rt : Vector (BitVec 32) 160) (f : AdsrFields) :
    decayAndSustain rt f =
      if ((decayCount rt f).1 < 2 ∨ 0x0E ≤ f.dr ∧ 0x0C ≤ f.sl) ∧ f.sd ≠ 0 ∧ f.sr < 0x7E then
        (dbCorr (seconds (finiteSustainCount rt f)), 0)
      else (seconds (decayCount rt f).1, ((decayCount rt f).2 : NumQ) / (envMax : NumQ)) := by
  unfold decayAndSustain
  by_cases hnone : f.sd = 0 ∨ f.sr = 0x7F
  · have hsubst : ¬ (((decayCount rt f).1 < 2 ∨ 0x0E ≤ f.dr ∧ 0x0C ≤ f.sl) ∧ f.sd ≠ 0 ∧ f.sr < 0x7E) := by omega
    simp only [sustainTime_eq, if_pos hnone, if_neg hsubst]
  · have hsd : f.sd ≠ 0 := fun h => hnone (.inl h)
    rw [sustainTime_eq, if_neg hnone]
    simp only [nearMax_iff, ne_eq, hsd, not_false_eq_true, true_and]

/-- The decay and the sustain level on the table, with the substitution. -/
theorem convertFields_decay_sustain {f : AdsrFields} (hdr : f.dr < 2 ^ 5) :
    if ((decayCount rateTable f).1 < 2 ∨ 0x0E ≤ f.dr ∧ 0x0C ≤ f.sl) ∧ f.sd ≠ 0 ∧ f.sr < 0x7E then
      (convertFields rateTable f).decay = dbCorr ((finiteSustainCount rateTable f : NumQ) / 44100) ∧
        (convertFields rateTable f).sustain = 0
    else
      (convertFields rateTable f).decay = ((decayCount rateTable f).1 : NumQ) / 44100 ∧
        (convertFields rateTable f).sustain =
          (((closedTurn (4 * (f.dr ^^^ 0x1F : Nat) - 0x18))^[(decayCount rateTable f).1] 0x7FFFFFFF : Nat) : NumQ) /
            0x7FFFFFFF := by
  have hmax : (envMax : NumQ) = 0x7FFFFFFF := by norm_num [envMax]
  simp only [convertFields, decayAndSustain_eq, (decayCount_stopsAfter hdr).2, hmax]
  split <;> exact ⟨rfl, rfl⟩

/-! ### The command (41_envelope_generator.md R153, R154) -/

/-- A field of one bit is the bit. -/
theorem extractLsb'_one_toNat_eq_zero_iff {w : Nat} (x : BitVec w) (i : Nat) :
    (x.extractLsb' i 1).toNat = 0 ↔ x.getLsbD i = false := by
  rw [BitVec.extractLsb'_toNat, pow_one, BitVec.getLsbD, Nat.testBit_eq_decide_div_mod_eq, decide_eq_false_iff_not,
    Nat.shiftRight_eq_div_pow]
  omega

theorem exec_makeAdsr {s : State} (hs : s.TableOk) (a b : BitVec 16) :
    exec (.makeAdsr a b) s = .next { s with
      rt := rateTable, rtBuilt := true, result := .envelope (convertFields rateTable (unpackAdsr a b)) } := by
  have hexec : exec (.makeAdsr a b) s = execMakeAdsr a b s := rfl
  rw [hexec, execMakeAdsr, makeAdsr_eq, ensureTable_eq hs]
  rfl

/-- Settles O52: the counts are those of the converter on the built table, each read off its own lemma. -/
theorem makeAdsrAnswers : Obligations.MakeAdsrAnswers := by
  intro a b ar dr sl sr rr rate cdiv turn stops atk nA
  have hattack := attackCount_table (f := unpackAdsr a b) (BitVec.isLt _)
  have hsustain := finiteSustainCount_table (f := unpackAdsr a b) (BitVec.isLt _)
  have hrelease := releaseCount_table (f := unpackAdsr a b) (BitVec.isLt _)
  have hdr : (unpackAdsr a b).dr < 2 ^ 5 := (BitVec.isLt _).trans (by norm_num : 2 ^ 4 < 2 ^ 5)
  have hsubst := convertFields_decay_sustain hdr
  obtain ⟨hattack0, hdecay0, hsustain0, hsustain1, hrelease0⟩ := convertFields_ok rateTable (unpackAdsr a b)
  have ham : (unpackAdsr a b).am = 0 ↔ a.getLsbD 15 = false := extractLsb'_one_toNat_eq_zero_iff a 15
  have hsm : (unpackAdsr a b).sm = 0 ↔ b.getLsbD 15 = false := extractLsb'_one_toNat_eq_zero_iff b 15
  have hrm : (unpackAdsr a b).rm = 0 ↔ b.getLsbD 5 = false := extractLsb'_one_toNat_eq_zero_iff b 5
  have hsd : (unpackAdsr a b).sd ≠ 0 ↔ b.getLsbD 14 = true :=
    (extractLsb'_one_toNat_eq_zero_iff b 14).not.trans (iff_of_eq (Bool.not_eq_false _))
  simp only [ham, hsm, hrm, hsd] at hattack hsustain hrelease hsubst
  exact ⟨(decayCount rateTable (unpackAdsr a b)).1, finiteSustainCount rateTable (unpackAdsr a b),
    releaseCount rateTable (unpackAdsr a b), convertFields rateTable (unpackAdsr a b),
    (decayCount_stopsAfter hdr).1, hsustain, hrelease, congrArg seconds hattack, hsubst, rfl, hattack0, hdecay0, hrelease0, hsustain0, hsustain1, rfl,
    fun s hs => exec_makeAdsr hs a b⟩

end Envelope
end Sys2Proof.Proofs

/-! ## The voice: the envelope's phases, the resampler, the allocator and the FM chain (42_voice.md, 43_pool_mixer.md) -/

namespace Sys2Proof.Proofs
section Voice

open Sys2Proof Sys2Proof.Machine

/-! ### The envelope step of each phase (42_voice.md R196 to R201) -/

theorem envelopeStep_of_attack (e : Adsr) (dt : NumQ) {v : Voice} (h : v.phase = .attack) :
    envelopeStep e dt v = attackStep e dt v := by
  simp only [envelopeStep, h]

theorem envelopeStep_of_decay (e : Adsr) (dt : NumQ) {v : Voice} (h : v.phase = .decay) :
    envelopeStep e dt v =
      { v with env := ease v.env e.sustain (decayRate e) dt
               phase := if |ease v.env e.sustain (decayRate e) dt - e.sustain| < 1 / 100 then .sustain else .decay } := by
  simp only [envelopeStep, h, decayStep]
  split
  · rfl
  · rw [← h]

theorem envelopeStep_of_sustain (e : Adsr) (dt : NumQ) {v : Voice} (h : v.phase = .sustain) :
    envelopeStep e dt v = { v with env := ease v.env e.sustain (decayRate e) dt } := by
  simp only [envelopeStep, h, sustainStep]

theorem envelopeStep_of_release (e : Adsr) (dt : NumQ) {v : Voice} (h : v.phase = .release) :
    envelopeStep e dt v = releaseStep e dt v := by
  simp only [envelopeStep, h]

theorem envelopeStep_of_idle (e : Adsr) (dt : NumQ) {v : Voice} (h : v.phase = .idle) : envelopeStep e dt v = v := by
  simp only [envelopeStep, h]

theorem releaseTime_nonneg {e : Adsr} {v : Voice} (he : 0 ≤ e.release) (hv : ∀ r, v.relOverride = some r → 0 ≤ r) :
    0 ≤ releaseTime e v := by
  unfold releaseTime
  cases hr : v.relOverride with
  | none => exact he
  | some r => exact hv r hr

/-- Settles O37: the value after a step that eases is `ease`'s, which stays between its start and its target because
both rates are at least 0. -/
theorem envelopeSteps : Obligations.EnvelopeSteps := by
  intro e dt v hdt hdecay hrelease hoverride
  have hdecayEase := ease_between v.env e.sustain (decayRate e) dt (mul_nonneg (decayRate_nonneg hdecay) hdt)
  have hrate : 0 ≤ 8 / (releaseTime e v + 5 / 1000) * dt := by
    have htime := releaseTime_nonneg hrelease hoverride
    positivity
  have hreleaseEase := ease_between v.env 0 _ dt hrate
  exact ⟨fun h => ⟨_, rfl, envelopeStep_of_attack e dt h⟩,
    fun h => ⟨_, rfl, hdecayEase.1, hdecayEase.2, envelopeStep_of_decay e dt h⟩,
    fun h => ⟨_, rfl, hdecayEase.1, hdecayEase.2, envelopeStep_of_sustain e dt h⟩,
    fun h => ⟨_, rfl, hreleaseEase.1, hreleaseEase.2, envelopeStep_of_release e dt h⟩,
    envelopeStep_of_idle e dt⟩

/-! ### The attack's ramp (42_voice.md R196) -/

/-- One call of an attack of `N` frames adds `1 / N`, and leaves for Decay when that makes 1. -/
theorem envelopeStep_ramp {e : Adsr} {v : Voice} {N : Nat} (hN : 1 ≤ N) (he : e.attack = (N : NumQ) / 44100)
    (hv : v.phase = .attack) (m : Nat) :
    envelopeStep e (1 / 44100) { v with env := (m : NumQ) / (N : NumQ) } =
      if N ≤ m + 1 then { v with env := 1, phase := .decay }
      else { v with env := ((m + 1 : Nat) : NumQ) / (N : NumQ) } := by
  have hpos : (0 : NumQ) < N := by exact_mod_cast hN
  have hattack : ¬ e.attack ≤ 0 := by rw [he, not_le]; positivity
  have hsum : (m : NumQ) / N + 1 / 44100 / e.attack = ((m + 1 : Nat) : NumQ) / N := by
    rw [he]; push_cast; field_simp
  have hend : (1 : NumQ) ≤ ((m + 1 : Nat) : NumQ) / N ↔ N ≤ m + 1 := by
    rw [one_le_div hpos, Nat.cast_le]
  rw [envelopeStep_of_attack e _ (v := { v with env := (m : NumQ) / (N : NumQ) }) hv]
  simp only [attackStep, if_neg hattack, hsum, hend]

/-- Settles O36, by induction on the calls: the ramp of one call, up to the one that makes 1. -/
theorem attackRamp : Obligations.AttackRamp := by
  intro e v N hN he hphase henv
  have hramp : ∀ m < N, (envelopeStep e (1 / 44100))^[m] v = { v with env := (m : NumQ) / (N : NumQ) } := by
    intro m
    induction m with
    | zero => intro _; rw [Nat.cast_zero, zero_div, ← henv]; rfl
    | succ m ih =>
      intro hm
      rw [Function.iterate_succ_apply', ih (by omega), envelopeStep_ramp hN he hphase, if_neg (by omega)]
  refine ⟨hramp, ?_⟩
  obtain ⟨M, rfl⟩ : ∃ M, N = M + 1 := ⟨N - 1, by omega⟩
  rw [Function.iterate_succ_apply', hramp M (by omega), envelopeStep_ramp hN he hphase, if_pos le_rfl]

/-! ### The end of the data (42_voice.md R204, R205, R210) -/

theorem fmod_eq_sub_floor (a n : NumQ) : fmod a n = a - n * (⌊a / n⌋ : NumQ) := rfl

/-- `fmod` takes a number at or above 0 down by whole lengths. -/
theorem eq_fmod_add_mul {a n : NumQ} (hn : 0 < n) (ha : 0 ≤ a) : ∃ k : Nat, a = fmod a n + (k : NumQ) * n := by
  obtain ⟨k, hk⟩ := Int.eq_ofNat_of_zero_le (Int.floor_nonneg.2 (div_nonneg ha hn.le))
  refine ⟨k, ?_⟩
  rw [fmod_eq_sub_floor, hk]
  push_cast
  ring

/-- `fmod` takes a number below 0 up by whole lengths. -/
theorem fmod_eq_add_mul {a n : NumQ} (hn : 0 < n) (ha : a < 0) : ∃ k : Nat, fmod a n = a + (k : NumQ) * n := by
  have hfloor : ⌊a / n⌋ ≤ 0 := Int.floor_nonpos (div_nonpos_of_nonpos_of_nonneg ha.le hn.le)
  obtain ⟨k, hk⟩ := Int.eq_ofNat_of_zero_le (neg_nonneg.2 hfloor)
  refine ⟨k, ?_⟩
  rw [fmod_eq_sub_floor, neg_eq_iff_eq_neg.1 hk]
  push_cast
  ring

/-- A looping tone's cursor outside the data is wrapped, below 0 as above the length. -/
theorem settleCursor_of_loop {t : Tone} {v : Voice} (hloop : t.loop = true)
    (hout : v.cursor < 0 ∨ (t.len : NumQ) ≤ v.cursor) :
    settleCursor t v = { v with cursor := fmod v.cursor t.len } := by
  unfold settleCursor
  simp only [if_pos hloop]
  split
  · rfl
  · next hneg => rw [if_pos (hout.resolve_left hneg)]

theorem settleCursor_of_inside {t : Tone} {v : Voice} (h0 : 0 ≤ v.cursor) (hlen : v.cursor < (t.len : NumQ)) :
    settleCursor t v = v := by
  rw [settleCursor, if_neg (not_lt.2 h0), if_neg (not_le.2 hlen)]

theorem settleCursor_of_negative_once {t : Tone} {v : Voice} (hloop : t.loop = false) (hneg : v.cursor < 0) :
    settleCursor t v = { v with cursor := 0 } := by
  rw [settleCursor, if_pos hneg, hloop]
  rfl

theorem settleCursor_of_end_once {t : Tone} {v : Voice} (hloop : t.loop = false) (hend : (t.len : NumQ) ≤ v.cursor) :
    settleCursor t v =
      { v with cursor := (t.len : NumQ) - 1, relOverride := some (5 / 1000), phase := .release } := by
  have h0 : ¬ v.cursor < 0 := not_lt.2 ((Nat.cast_nonneg _).trans hend)
  rw [settleCursor, if_neg h0, if_pos hend, hloop]
  rfl

/-- Settles O38: the branches of the settling, a wrapped cursor being `fmod`'s. -/
theorem endOfData : Obligations.EndOfData := by
  intro t v hlen
  have hpos : (0 : NumQ) < (t.len : NumQ) := Nat.cast_pos.2 hlen
  obtain ⟨hmod0, hmod1⟩ := fmod_range v.cursor hpos
  refine ⟨settleCursor_of_inside, fun hend hloop => ?_, fun hend hloop => settleCursor_of_end_once hloop hend,
    fun hneg hloop => ?_, fun hneg hloop => settleCursor_of_negative_once hloop hneg⟩
  · obtain ⟨k, hk⟩ := eq_fmod_add_mul hpos (hpos.le.trans hend)
    exact ⟨fmod v.cursor t.len, k, settleCursor_of_loop hloop (.inr hend), hk, hmod0, hmod1⟩
  · obtain ⟨k, hk⟩ := fmod_eq_add_mul hpos hneg
    exact ⟨fmod v.cursor t.len, k, settleCursor_of_loop hloop (.inl hneg), hk, hmod0, hmod1⟩

/-! ### The cubic (42_voice.md R207) -/

/-- The cubic as a combination of its taps: the weights of the outer ones are at most 0, those of the middle ones at
least 0 on [0, 1]. -/
theorem cubic_eq_weights (y0 y1 y2 y3 x : NumQ) :
    cubic y0 y1 y2 y3 x =
      (1 - x) * (1 + x - 3 / 2 * x ^ 2) * y1 + x * (1 / 2 + 2 * x - 3 / 2 * x ^ 2) * y2
        - x * (1 - x) ^ 2 / 2 * y0 - x ^ 2 * (1 - x) / 2 * y3 := by
  unfold cubic
  ring

/-- A weight of at least 0 on a tap in [-1, 1]. -/
theorem abs_weight_mul_le {w y : NumQ} (hw : 0 ≤ w) (hy : |y| ≤ 1) : |w * y| ≤ w := by
  rw [abs_mul, abs_of_nonneg hw]
  exact mul_le_of_le_one_right hw hy

/-- The overshoot: the absolute weights add up to `1 + x * (1 - x)`, which is 5/4 at the middle. -/
theorem abs_cubic_le {y0 y1 y2 y3 x : NumQ} (hx0 : 0 ≤ x) (hx1 : x ≤ 1) (h0 : |y0| ≤ 1) (h1 : |y1| ≤ 1)
    (h2 : |y2| ≤ 1) (h3 : |y3| ≤ 1) : |cubic y0 y1 y2 y3 x| ≤ 5 / 4 := by
  have hx1' : 0 ≤ 1 - x := sub_nonneg.2 hx1
  have b1 := abs_le.1 (abs_weight_mul_le (mul_nonneg hx1' (by nlinarith : 0 ≤ 1 + x - 3 / 2 * x ^ 2)) h1)
  have b2 := abs_le.1 (abs_weight_mul_le (mul_nonneg hx0 (by nlinarith : 0 ≤ 1 / 2 + 2 * x - 3 / 2 * x ^ 2)) h2)
  have b0 := abs_le.1 (abs_weight_mul_le (by positivity : 0 ≤ x * (1 - x) ^ 2 / 2) h0)
  have b3 := abs_le.1 (abs_weight_mul_le (by positivity : 0 ≤ x ^ 2 * (1 - x) / 2) h3)
  have hsum : (1 - x) * (1 + x - 3 / 2 * x ^ 2) + x * (1 / 2 + 2 * x - 3 / 2 * x ^ 2) + x * (1 - x) ^ 2 / 2
      + x ^ 2 * (1 - x) / 2 = 5 / 4 - (x - 1 / 2) ^ 2 := by ring
  have hsq := sq_nonneg (x - 1 / 2)
  rw [cubic_eq_weights, abs_le]
  constructor <;> linarith

/-- Settles O39: the first three clauses are the polynomial itself, the bound is that of the weights. -/
theorem cubicShape : Obligations.CubicShape := by
  intro y0 y1 y2 y3 x
  refine ⟨?_, ?_, ?_, abs_cubic_le⟩ <;> unfold cubic <;> ring

/-! ### The allocator's choice (43_pool_mixer.md R230 to R234) -/

/-- `PLAY_NOTE` on a playable tone arms the voice that the allocator gives. -/
theorem exec_playNote_of_playable {s : State} {p t : Int} (hp : 0 ≤ p) (ht : 0 ≤ t)
    (hplay : s.playable { program := p.toNat, index := t.toNat } = true) (pitch volume : NumQ) (fm : Bool) (pan : NumQ)
    (note prog : BitVec 7) :
    exec (.playNote p t pitch volume fm pan note prog) s =
      .next (((s.allocate.1.setFm s.allocate.2 fm).setVoice s.allocate.2
        (armedVoice { program := p.toNat, index := t.toNat } pitch volume pan note.toNat prog.toNat)).withResult
          (.voiceId s.allocate.2)) := by
  have hexec : exec (.playNote p t pitch volume fm pan note prog) s =
      execPlayNote p t pitch volume fm pan note prog s := rfl
  have href : toneRefOf p t = some { program := p.toNat, index := t.toNat } := toneRefOf_some.2 ⟨hp, ht, rfl⟩
  rw [hexec, execPlayNote, href]
  simp only [State.playTone, if_pos hplay, voiceResult]

/-- Settles O26: the three cases are the allocator's. -/
theorem playNotePlays : Obligations.PlayNotePlays := by
  intro s p t pitch volume fm pan note prog T hp _ ht htone hlen hsyn
  have hplay : s.playable { program := p.toNat, index := t.toNat } = true :=
    (playable_iff s _).2 ⟨T, htone, hlen, hsyn⟩
  rw [exec_playNote_of_playable hp ht hplay]
  rcases allocate_cases s with ⟨i, e, hidle, hleast⟩ | ⟨i, e, hfull, hrelease, hleast⟩ | ⟨e, hfull, hnone⟩ <;> rw [e]
  · exact ⟨i, s.stealCursor, s.diag, .inl ⟨hidle, hleast, rfl, rfl⟩, rfl⟩
  · exact ⟨i, s.stealCursor, s.diag, .inr (.inl ⟨hfull, hrelease, hleast, rfl, rfl⟩), rfl⟩
  · exact ⟨s.stealCursor, nextVoice s.stealCursor, s.diag ++ [Diag.voiceStolen s.stealCursor],
      .inr (.inr ⟨hfull, hnone, rfl, rfl, rfl⟩), rfl⟩

/-! ### One call of `GetSamples` (42_voice.md R194, R202, R206 to R209) -/

theorem getSamples_of_inactive (t : Tone) (dt m : NumQ) {v : Voice} (h : v.active = false) :
    getSamples t dt m v = { voice := { v with lastOut := 0 }, out := { left := 0, right := 0 } } := by
  rw [getSamples, h]
  rfl

theorem getSamples_of_deactivated (t : Tone) (dt m : NumQ) {v : Voice} (h : v.active = true)
    (he : (envelopeStep t.adsr dt v).active = false) :
    getSamples t dt m v = { voice := envelopeStep t.adsr dt v, out := { left := 0, right := 0 } } := by
  rw [getSamples, if_pos h]
  exact if_neg (Bool.eq_false_iff.1 he)

theorem getSamples_of_active (t : Tone) (dt m : NumQ) {v : Voice} (h : v.active = true)
    (he : (envelopeStep t.adsr dt v).active = true) :
    getSamples t dt m v = outputStep t (settleCursor t { envelopeStep t.adsr dt v with
      cursor := (envelopeStep t.adsr dt v).cursor + cursorStep (envelopeStep t.adsr dt v) dt m }) := by
  rw [getSamples, if_pos h]
  exact if_pos he

/-- The four taps of the interpolation, by their distance from the cursor's. -/
theorem interpolate_eq_cubic (t : Tone) (c : NumQ) :
    interpolate t c =
      cubic (tap t (⌊c⌋ + -1)) (tap t (⌊c⌋ + 0)) (tap t (⌊c⌋ + 1)) (tap t (⌊c⌋ + 2)) (c - (⌊c⌋ : NumQ)) := by
  rw [add_zero]
  rfl

/-! ### The voices of a frame, one after another (43_pool_mixer.md R251 to R253) -/

/-- A frame with the parts of the first `k` voices done. -/
def mixedUpTo (s : State) (k : Nat) : MixState :=
  ((List.finRange 127).take k).foldl mixVoice { state := s, sum := { left := 0, right := 0 } }

theorem mixedUpTo_all (s : State) : mixedUpTo s 127 = mixVoices s := by
  rw [mixedUpTo, List.take_of_length_le (List.length_finRange.le)]
  rfl

theorem take_succ_finRange {n k : Nat} (h : k < n) :
    (List.finRange n).take (k + 1) = (List.finRange n).take k ++ [⟨k, h⟩] := by
  rw [List.take_add_one, List.getElem?_eq_getElem (by simpa using h), List.getElem_finRange]
  rfl

theorem mixedUpTo_succ (s : State) (i : Fin 127) : mixedUpTo s (i + 1) = mixVoice (mixedUpTo s i) i := by
  rw [mixedUpTo, take_succ_finRange i.isLt, List.foldl_append]
  rfl

/-- A voice's part leaves the other voices alone. -/
theorem mixVoice_voice_ne (x : MixState) {i j : Fin 127} (h : i ≠ j) :
    (mixVoice x i).state.voice j = x.state.voice j := by
  rw [mixVoice_state, voice_setVoice_ne _ _ h]

/-- A voice whose part is not done yet is as it was before the frame. -/
theorem mixedUpTo_voice_of_le (s : State) {k : Nat} {i : Fin 127} (h : k ≤ i) :
    (mixedUpTo s k).state.voice i = s.voice i := by
  induction k with
  | zero => rfl
  | succ k ih =>
    have hk : k < 127 := by omega
    have hne : (⟨k, hk⟩ : Fin 127) ≠ i := Fin.ne_of_val_ne (by simp only; omega)
    have hstep := mixedUpTo_succ s ⟨k, hk⟩
    rw [hstep, mixVoice_voice_ne _ hne, ih (by omega)]

/-- A voice whose part is done keeps what it left until the end of the frame. -/
theorem mixVoices_voice_of_lt (s : State) {k : Nat} {i : Fin 127} (hi : i < k) (hk : k ≤ 127) :
    (mixVoices s).state.voice i = (mixedUpTo s k).state.voice i := by
  rw [← mixedUpTo_all]
  induction hk using Nat.decreasingInduction with
  | self => rfl
  | of_succ k hk ih =>
    have hne : (⟨k, hk⟩ : Fin 127) ≠ i := Fin.ne_of_val_ne (by simp only; omega)
    have hstep := mixedUpTo_succ s ⟨k, hk⟩
    rw [ih (by omega), hstep, mixVoice_voice_ne _ hne]

/-- The parts done so far have written voices only. -/
theorem mixedUpTo_frame (s : State) {k : Nat} (hk : k ≤ 127) :
    (mixedUpTo s k).state = { s with voices := (mixedUpTo s k).state.voices } := by
  induction k with
  | zero => rfl
  | succ k ih =>
    have hstep := mixedUpTo_succ s ⟨k, hk⟩
    rw [hstep, mixVoice_state]
    simp only
    rw [ih (by omega)]
    rfl

/-- The FM input of a voice in a frame: voice 0 reads what voice 126 left a frame earlier (43_pool_mixer.md R252). -/
def frameInput (s : State) (i : Fin 127) : NumQ :=
  if s.fm[i] = true then (if i = 0 then (s.voice 126).lastOut else ((frame s).state.voice (prevVoice i)).lastOut) else 0

/-- The call of `GetSamples` that an active voice makes in a frame (43_pool_mixer.md R251). -/
def frameCall (s : State) (i : Fin 127) : VoiceOut :=
  getSamples (s.toneOf (s.voice i)) (1 / 44100) (frameInput s i) (s.voice i)

/-- Voices are done in ascending order, so that every predecessor but voice 126 has been done in this frame. -/
theorem mixedUpTo_modIn (s : State) (i : Fin 127) : (mixedUpTo s i).state.modIn i = frameInput s i := by
  have hfm : (mixedUpTo s i).state.fm = s.fm := by rw [mixedUpTo_frame s i.isLt.le]
  have hprev : (mixedUpTo s i).state.voice (prevVoice i) =
      if i = 0 then s.voice 126 else (frame s).state.voice (prevVoice i) := by
    split
    · next h => subst h; rfl
    · next h =>
      have hlt : (prevVoice i).val < i.val := by
        have hi : i.val ≠ 0 := fun e => h (Fin.ext e)
        simp only [prevVoice]
        omega
      rw [frame_voice, mixVoices_voice_of_lt s hlt i.isLt.le]
  rw [State.modIn, frameInput, hfm, hprev, apply_ite Voice.lastOut]

theorem mixedUpTo_toneOf (s : State) (i : Fin 127) (v : Voice) : (mixedUpTo s i).state.toneOf v = s.toneOf v := by
  have hprog : (mixedUpTo s i).state.prog = s.prog := by rw [mixedUpTo_frame s i.isLt.le]
  rw [State.toneOf, State.toneOf, funext (toneAt_congr hprog)]

/-- A voice's part of a frame, in terms of the state before the frame. -/
theorem mixedUpTo_succ_eq (s : State) (i : Fin 127) :
    mixedUpTo s (i + 1) =
      if (s.voice i).active = true then
        { state := (mixedUpTo s i).state.setVoice i (frameCall s i).voice
          sum := { left := (mixedUpTo s i).sum.left + (frameCall s i).out.left
                   right := (mixedUpTo s i).sum.right + (frameCall s i).out.right } }
      else { mixedUpTo s i with state := (mixedUpTo s i).state.setVoice i { s.voice i with lastOut := 0 } } := by
  rw [mixedUpTo_succ, mixVoice]
  simp only [mixedUpTo_voice_of_le s le_rfl, mixedUpTo_toneOf, mixedUpTo_modIn]
  rfl

theorem frame_voice_eq (s : State) (i : Fin 127) :
    (frame s).state.voice i =
      if (s.voice i).active = true then (frameCall s i).voice else { s.voice i with lastOut := 0 } := by
  rw [frame_voice, mixVoices_voice_of_lt s (Nat.lt_succ_self i) i.isLt, mixedUpTo_succ_eq]
  split <;> exact voice_setVoice_self ..

/-- What a voice adds to the sums of a frame (43_pool_mixer.md R253). -/
theorem mixedUpTo_sum_succ (s : State) (i : Fin 127) :
    (mixedUpTo s (i + 1)).sum.left =
        (mixedUpTo s i).sum.left + (if (s.voice i).active = true then (frameCall s i).out.left else 0) ∧
      (mixedUpTo s (i + 1)).sum.right =
        (mixedUpTo s i).sum.right + (if (s.voice i).active = true then (frameCall s i).out.right else 0) := by
  rw [mixedUpTo_succ_eq]
  split
  · exact ⟨rfl, rfl⟩
  · exact ⟨(add_zero _).symm, (add_zero _).symm⟩

/-- What starts at 0 and grows by `c i` at step `i` ends as the sum. -/
theorem eq_sum_of_steps {n : Nat} {a : Nat → NumQ} {c : Fin n → NumQ} (hzero : a 0 = 0)
    (hstep : ∀ i : Fin n, a (i + 1) = a i + c i) : a n = ∑ i, c i := by
  induction n with
  | zero => simpa using hzero
  | succ n ih => rw [Fin.sum_univ_castSucc, ← ih fun i => hstep i.castSucc]; exact hstep (Fin.last n)

theorem mixVoices_sum (s : State) :
    (mixVoices s).sum.left = ∑ i, (if (s.voice i).active = true then (frameCall s i).out.left else 0) ∧
      (mixVoices s).sum.right = ∑ i, (if (s.voice i).active = true then (frameCall s i).out.right else 0) := by
  rw [← mixedUpTo_all]
  exact ⟨eq_sum_of_steps (a := fun k => (mixedUpTo s k).sum.left) rfl fun i => (mixedUpTo_sum_succ s i).1,
    eq_sum_of_steps (a := fun k => (mixedUpTo s k).sum.right) rfl fun i => (mixedUpTo_sum_succ s i).2⟩

/-- Settles O32: the frame by its voices in ascending order, a call of `GetSamples` by its three ends. -/
theorem frameVoices : Obligations.FrameVoices := by
  refine ⟨fun s => ⟨frame_voice_eq s, mixVoices_sum s⟩, fun t dt m v => ?_⟩
  intro e w len i y x
  refine ⟨getSamples_of_inactive t dt m, getSamples_of_deactivated t dt m, fun hactive henv => ?_⟩
  have hx : interpolate t w.cursor * w.env = x := by rw [interpolate_eq_cubic]; rfl
  have hcall : getSamples t dt m v = outputStep t w := getSamples_of_active t dt m hactive henv
  rw [hcall, outputStep, hx]

end Voice
end Sys2Proof.Proofs

/-! ## The voice pool's commands, the queries and the mixer's output (43_pool_mixer.md) -/

namespace Sys2Proof.Proofs
section PoolMixer

open Sys2Proof Sys2Proof.Machine

/-! ### A frame's part in the delay line, and its two values (43_pool_mixer.md R254 to R256) -/

/-- On a value between -1 and 1 the quantiser's clamp never acts (43_pool_mixer.md R256). -/
theorem quantise_toInt_range {z : NumQ} (h : |z| < 1) : -32767 ≤ (quantise z).toInt ∧ (quantise z).toInt ≤ 32767 := by
  obtain ⟨hlow, hhigh⟩ := abs_lt.1 h
  have hone : (quantise 1).toInt = 32767 := by decide +kernel
  have hminus : (quantise (-1)).toInt = -32767 := by decide +kernel
  exact ⟨hminus ▸ quantise_mono hlow.le, hone ▸ quantise_mono hhigh.le⟩

/-- Settles O33: the one write of a frame, read back at every index, and the quantiser written out. -/
theorem frameReverb : Obligations.FrameReverb := by
  intro s hline
  refine ⟨fun a => ?_, ?_, ?_⟩
  · rw [frame_delayLine]
    exact Memory.read_write s.delayLine hline _ _ a
  · rw [frame_wp]
    rfl
  · intro round quantised
    have hquantise : quantise = quantised := funext fun z => toI16_clamp16_roundAway (z * 32767)
    rw [← hquantise]
    exact ⟨frame_out s, fun z => quantise_toInt_range⟩

/-! ### Frames one after another (43_pool_mixer.md R251, R257) -/

theorem frames_state_eq_iterate (n : Nat) (s : State) : (frames n s).state = (fun u => (frame u).state)^[n] s := by
  induction n generalizing s with
  | zero => rfl
  | succ n ih => rw [frames_succ_state, ih, Function.iterate_succ_apply]

/-- Frame `f` writes the values `2 * f` and `2 * f + 1` of the output, from the state that the frames before it left
(20_memory.md R68). -/
theorem frames_out_slice {n f : Nat} (h : f < n) (s : State) :
    ((frames n s).out.drop (2 * f)).take 2 = (frame (frames f s).state).out := by
  induction n generalizing f s with
  | zero => exact absurd h (Nat.not_lt_zero f)
  | succ n ih =>
    rw [frames_succ_out]
    cases f with
    | zero => exact List.take_left' rfl
    | succ f =>
      have htwo : (frame s).out.length = 2 := rfl
      rw [Nat.mul_succ, Nat.add_comm, ← List.drop_drop, List.drop_left' htwo, ih (Nat.lt_of_succ_lt_succ h),
        frames_succ_state]

/-- `GENERATE_AUDIO` answers from every state that meets 10_state.md R23. -/
theorem exec_generateAudio_of_tonesLive {s : State} (h : s.tonesLive = true) (n : Int) :
    exec (.generateAudio n) s = .next ((frames (frameCap n) s).state.withResult (.pcm (frames (frameCap n) s).out)) := by
  rcases generateAudio_cases n s with hnext | ⟨-, hdead, -⟩
  · exact hnext
  · exact absurd h (Bool.eq_false_iff.1 hdead)

/-- Settles O34: the command is `frameCap n` turns of `frame`. -/
theorem generateAudioRenders : Obligations.GenerateAudioRenders := by
  intro s n hlive
  have htones : s.tonesLive = true := (tonesLive_iff s).2 fun i hi => by
    obtain ⟨r, T, htone, hat, hlen, hsyn⟩ := hlive i hi
    exact ⟨r, htone, (playable_iff s r).2 ⟨T, hat, hlen, hsyn⟩⟩
  refine ⟨_, _, exec_generateAudio_of_tonesLive htones n, ?_, frames_length _ s, frames_wp _ s, ?_, ?_, fun f hf => ?_⟩
  · exact congrArg (State.withResult · _) (frames_frame _ s)
  · rw [withResult_voices, frames_state_eq_iterate, frameCap]
  · rw [withResult_delayLine, frames_state_eq_iterate, frameCap]
  · rw [← frames_state_eq_iterate]
    exact frames_out_slice hf s

/-! ### `PLAY_NOTE` without a playable tone (43_pool_mixer.md R234) -/

theorem exec_playNote_of_unplayable {s : State} {p t : Int} (h : ∀ r, toneRefOf p t = some r → s.playable r = false)
    (pitch volume : NumQ) (fm : Bool) (pan : NumQ) (note prog : BitVec 7) :
    exec (.playNote p t pitch volume fm pan note prog) s = .next (s.withResult (.voiceId (-1))) := by
  have hexec : exec (.playNote p t pitch volume fm pan note prog) s =
      execPlayNote p t pitch volume fm pan note prog s := rfl
  rw [hexec, execPlayNote]
  split
  · next r href => simp only [State.playTone, h r href, Bool.false_eq_true, if_false, voiceResult]
  · rfl

/-- Settles O27: a reference that is playable names a tone of a program up to 127. -/
theorem playNoteUnplayable : Obligations.PlayNoteUnplayable := by
  intro s p t pitch volume fm pan note prog hnot
  refine exec_playNote_of_unplayable (fun r href => ?_) pitch volume fm pan note prog
  obtain ⟨hp, ht, rfl⟩ := toneRefOf_some.1 href
  refine Bool.eq_false_iff.2 fun hplay => hnot ?_
  obtain ⟨T, hat, hlen, hsyn⟩ := (playable_iff s _).1 hplay
  have hprogram : p.toNat < 128 := toneAt_some_program hat
  exact ⟨hp, by omega, ht, T, hat, hlen, hsyn⟩

/-! ### Commands on one voice (43_pool_mixer.md R235, R237 to R239) -/

@[simp] theorem setVoice_setVoice (s : State) (i : Fin 127) (v w : Voice) :
    (s.setVoice i v).setVoice i w = s.setVoice i w := by
  simp [State.setVoice]

theorem exec_stopVoice (id : Int) (s : State) :
    exec (.stopVoice id) s = .next ((s.onVoice id Voice.noteOff).withResult .none) := rfl

theorem exec_setVoice3d (id : Int) (vol pan : NumQ) (s : State) :
    exec (.setVoice3d id vol pan) s = .next ((s.onVoice id (Voice.withGains (panGains vol pan))).withResult .none) := rfl

theorem exec_updateVoicePitch (id : Int) (bend : NumQ) (s : State) :
    exec (.updateVoicePitch id bend) s = .next ((s.onVoice id (Voice.bent bend)).withResult .none) := rfl

/-- Settles O28: the command is `NoteOff` on the voice that the id names. -/
theorem stopVoiceReleases : Obligations.StopVoiceReleases := by
  refine ⟨fun s i => ?_, fun s id hid => ?_⟩
  · rw [exec_stopVoice, onVoice_some s rfl, noteOff_eq]
    simp only [List.mem_cons, List.not_mem_nil, or_false]
    rfl
  · rw [exec_stopVoice, onVoice_none s hid]
    rfl

/-- Settles O29: the gains written are those of the pan law. -/
theorem setVoice3dGains : Obligations.SetVoice3dGains := by
  refine ⟨fun s i vol pan => ?_, fun s id vol pan hid => ?_⟩
  · rw [exec_setVoice3d, onVoice_some s rfl]
    rfl
  · rw [exec_setVoice3d, onVoice_none s hid]
    rfl

/-- A bend reads the base pitch, which no bend writes (43_pool_mixer.md R238). -/
theorem bent_bent (a b : NumQ) (v : Voice) : (v.bent a).bent b = v.bent b := rfl

/-- What a bend leaves when it answers, with the voice it has bent read back. -/
theorem updateVoicePitch_next {s t : State} {i : Fin 127} {bend : NumQ}
    (h : exec (.updateVoicePitch i bend) s = .next t) :
    t = (s.setVoice i ((s.voice i).bent bend)).withResult .none ∧ t.voice i = (s.voice i).bent bend := by
  rw [exec_updateVoicePitch, onVoice_some s rfl] at h
  cases h
  exact ⟨rfl, voice_setVoice_self s i _⟩

/-- Settles O30: a bend writes the pitch alone and reads the base pitch alone. -/
theorem voicePitchBends : Obligations.VoicePitchBends := by
  refine ⟨fun s i bend => ?_, fun s t i a b h => ?_, fun s t i h => ?_, fun s id bend hid => ?_⟩
  · rw [exec_updateVoicePitch, onVoice_some s rfl]
    rfl
  · obtain ⟨ht, hvoice⟩ := updateVoicePitch_next h
    rw [exec_updateVoicePitch, exec_updateVoicePitch, onVoice_some t rfl, onVoice_some s rfl, hvoice, bent_bent, ht,
      ← setVoice_setVoice s i ((s.voice i).bent a) ((s.voice i).bent b)]
    rfl
  · obtain ⟨-, hvoice⟩ := updateVoicePitch_next h
    rw [hvoice, Voice.bent, bendFactor_zero, mul_one]
  · rw [exec_updateVoicePitch, onVoice_none s hid]
    rfl

/-! ### The queries (43_pool_mixer.md R236, 44_sequencer.md R317, 45_bank_loader.md R358) -/

theorem exec_isSoundPlaying (id : Int) (s : State) :
    exec (.isSoundPlaying id) s = .next (s.withResult (.bool ((voiceIndex id).elim false fun i => (s.voice i).active))) := by
  cases h : voiceIndex id <;> simp only [exec, execIsSoundPlaying, h] <;> rfl

theorem exec_seqIsPlaying (id : Int) (s : State) :
    exec (.seqIsPlaying id) s = .next (s.withResult (.bool ((slotIndex id).elim false fun k => (s.slot k).active))) := by
  cases h : slotIndex id <;> simp only [exec, execSeqIsPlaying, h] <;> rfl

theorem exec_isProgramPopulated (p : Int) (s : State) :
    exec (.isProgramPopulated p) s = .next (s.withResult
      (.bool ((programIndex p).elim false fun q => decide (0 < (s.program q).tones.length)))) := by
  cases h : programIndex p <;> simp only [exec, execIsProgramPopulated, h] <;> rfl

/-- Settles O31: each query reads the register that its number names, if it names one. -/
theorem queriesAnswer : Obligations.QueriesAnswer := by
  refine ⟨fun s i => ?_, fun s id hid => ?_, fun s k => ?_, fun s id hid => ?_, fun s p => ?_, fun s p hp => ?_⟩
  · rw [exec_isSoundPlaying, voiceIndex_coe]
    rfl
  · rw [exec_isSoundPlaying, voiceIndex_none hid]
    rfl
  · rw [exec_seqIsPlaying, slotIndex_coe]
    rfl
  · rw [exec_seqIsPlaying, slotIndex_none hid]
    rfl
  · rw [exec_isProgramPopulated, programIndex_coe]
    rfl
  · rw [exec_isProgramPopulated, programIndex_none hp]
    rfl

end PoolMixer
end Sys2Proof.Proofs

/-! ## The sequencer's events (44_sequencer.md R295 to R312)

What `exec` of an event writes: the voices of a program, one channel register, the cursor and the tempo of the executing
slot, or its stop; and for a NoteOn the chain of `PLAY_NOTE`s, one state for each number of tones served. -/

namespace Sys2Proof.Proofs
section Events

open Sys2Proof Sys2Proof.Machine

/-! ### What every event leaves alone (44_sequencer.md R290) -/

/-- Settles O25: the frame of an event and the slots it does not act for. -/
theorem eventsTouchOwnSlot : Obligations.EventsTouchOwnSlot := fun i _ _ hi he =>
  ⟨fun _ hl => exec_event_slot_ne i hi he hl.symm, exec_event_seqFrame i hi he⟩

/-- Settles O21: the meaning of either event is the state after its bytes. -/
theorem ignoredEvents : Obligations.IgnoredEvents :=
  ⟨fun _ _ _ _ => rfl, fun _ _ _ => rfl⟩

/-! ### Notes off (44_sequencer.md R300, R301) -/

theorem exec_noteOff (c : BitVec 4) (key vel : BitVec 7) (s : State) :
    exec (.noteOff c key vel) s = .next (s.releaseNote c key) := rfl

theorem releaseNote_voice (s : State) (c : BitVec 4) (key : BitVec 7) (i : Fin 127) :
    (s.releaseNote c key).voice i =
      if ((s.voice i).active = true ∧ (s.voice i).programId = some (s.curProgram c)) ∧
          (s.voice i).note = some key.toNat then (s.voice i).noteOff else s.voice i := by
  simp only [State.releaseNote, voice_mapVoices, Voice.ofProgram, Bool.and_eq_true, decide_eq_true_eq]

/-- Settles O18: the voices that match are those of the program and the key, and `NoteOff` acts on three phases. -/
theorem noteOffReleases : Obligations.NoteOffReleases := by
  intro s c key vel
  refine ⟨_, exec_noteOff c key vel s, rfl, fun i => ?_⟩
  rw [releaseNote_voice, noteOff_eq, ← ite_and]
  simp only [and_assoc, List.mem_cons, List.not_mem_nil, or_false]
  rfl

/-! ### Notes on (44_sequencer.md R295 to R298) -/

theorem exec_noteOn_zero (c : BitVec 4) (key : BitVec 7) (s : State) :
    exec (.noteOn c key 0) s = .next (s.releaseNote c key) := rfl

theorem exec_noteOn_of_ne_zero {vel : BitVec 7} (h : vel ≠ 0) (c : BitVec 4) (key : BitVec 7) (s : State) :
    exec (.noteOn c key vel) s = .next (s.triggerNote c key vel) :=
  congrArg Host.Outcome.next (if_neg h)

/-- `PLAY_NOTE` on a reference of two natural numbers. -/
theorem exec_playNote_coe (p t : Nat) (pitch volume : NumQ) (fm : Bool) (pan : NumQ) (note prog : BitVec 7)
    (s : State) :
    exec (.playNote p t pitch volume fm pan note prog) s =
      .next ((s.playTone { program := p, index := t } pitch volume fm pan note.toNat prog.toNat).state.withResult
        (voiceResult (s.playTone { program := p, index := t } pitch volume fm pan note.toNat prog.toNat).voice)) := by
  have href : toneRefOf p t = some { program := p, index := t } :=
    toneRefOf_some.2 ⟨Int.natCast_nonneg p, Int.natCast_nonneg t, rfl⟩
  simp only [exec, execPlayNote, href]

theorem covers_iff (T : Tone) (key : BitVec 7) :
    T.covers key = true ↔ T.minNote.toNat ≤ key.toNat ∧ key.toNat ≤ T.maxNote.toNat := by
  simp only [Tone.covers, Bool.and_eq_true, decide_eq_true_eq]

theorem triggerTone_of_covers {s : State} {p index : Nat} {T : Tone} {key : BitVec 7}
    (hT : s.toneAt { program := p, index := index } = some T) (hkey : T.covers key = true) (volume pan : NumQ) :
    s.triggerTone p volume pan key index =
      (s.playTone { program := p, index := index } (notePitch T key) volume Config.seqFm pan key.toNat p).state := by
  simp only [State.triggerTone, hT, if_pos hkey]

theorem triggerTone_of_not_covers {s : State} {p index : Nat} {T : Tone} {key : BitVec 7}
    (hT : s.toneAt { program := p, index := index } = some T) (hkey : ¬ T.covers key = true) (volume pan : NumQ) :
    s.triggerTone p volume pan key index = s := by
  simp only [State.triggerTone, hT, if_neg hkey]

section Tones

variable (s : State) (c : BitVec 4) (key vel : BitVec 7)

/-- A NoteOn on channel `c` after its first `n` tones. -/
def afterTones (n : Nat) : State :=
  (List.range n).foldl (State.triggerTone (s.curProgram c) (s.noteVolume c vel)
    (unit127 (s.channel s.curSlot c).pan.toNat) key) s

theorem triggerNote_eq_afterTones :
    s.triggerNote c key vel = afterTones s c key vel (s.program (s.curProgram c)).tones.length := rfl

theorem afterTones_succ (n : Nat) :
    afterTones s c key vel (n + 1) = (afterTones s c key vel n).triggerTone (s.curProgram c) (s.noteVolume c vel)
      (unit127 (s.channel s.curSlot c).pan.toNat) key n := by
  rw [afterTones, List.range_succ, List.foldl_append]; rfl

theorem afterTones_seqFrame (n : Nat) : SeqFrame s (afterTones s c key vel n) := by
  induction n with
  | zero => exact SeqFrame.refl s
  | succ n ih => rw [afterTones_succ]; exact ih.trans (triggerTone_seqFrame ..)

/-- A NoteOn does not write the tones that it reads. -/
theorem afterTones_toneAt (n : Nat) (r : ToneRef) : (afterTones s c key vel n).toneAt r = s.toneAt r :=
  toneAt_congr (afterTones_seqFrame s c key vel n).fields.1 r

end Tones

/-- A tone that covers the key is one `PLAY_NOTE`, its result discarded (44_sequencer.md R295, R298). -/
theorem exec_playNote_eq_triggerTone {s : State} {p index : Nat} {T : Tone} {key : BitVec 7}
    (hT : s.toneAt { program := p, index := index } = some T) (hkey : T.covers key = true) (volume pan : NumQ)
    {prog : BitVec 7} (hprog : prog.toNat = p) :
    ∃ u, exec (.playNote p index (notePitch T key) volume false pan key prog) s = .next u ∧
      s.triggerTone p volume pan key index = { u with result := s.result } := by
  refine ⟨_, exec_playNote_coe .., ?_⟩
  rw [hprog, triggerTone_of_covers hT hkey]
  obtain ⟨-, -, -, -, -, -, -, hresult, -⟩ :=
    (playTone_seqFrame s { program := p, index := index } (notePitch T key) volume false pan key.toNat p).fields
  rw [← hresult]
  rfl

/-- Settles O19: the states between the tones are `afterTones`. -/
theorem noteOnLayers : Obligations.NoteOnLayers := by
  intro s c key vel
  refine ⟨(exec_noteOn_zero c key s).trans (exec_noteOff c key vel s).symm, ?_⟩
  intro hvel y tones
  refine ⟨afterTones s c key vel, rfl, fun index T hindex => ⟨fun hkey => ?_, fun hkey => ?_⟩,
    exec_noteOn_of_ne_zero hvel c key s, ?_⟩
  · have hT : s.toneAt { program := s.curProgram c, index := index } = some T := hindex
    have hprog : (y.program.setWidth 7).toNat = s.curProgram c := by
      rw [BitVec.toNat_setWidth]
      exact Nat.mod_eq_of_lt (toneAt_some_program hT)
    obtain ⟨-, -, -, -, -, -, -, hresult, -⟩ := (afterTones_seqFrame s c key vel index).fields
    rw [afterTones_succ, ← hresult]
    exact exec_playNote_eq_triggerTone ((afterTones_toneAt s c key vel index _).trans hT) ((covers_iff T key).2 hkey)
      _ _ hprog
  · rw [afterTones_succ]
    exact triggerTone_of_not_covers ((afterTones_toneAt s c key vel index _).trans hindex)
      (mt (covers_iff T key).1 hkey) _ _
  · have hframe := triggerNote_seqFrame s c key vel
    unfold SeqFrame at hframe
    rw [triggerNote_slots, triggerNote_eq_afterTones] at hframe
    exact hframe

/-! ### One channel register (44_sequencer.md R302, R303) -/

theorem onChannel_slot_ne (s : State) (c : BitVec 4) (f : Channel → Channel) {l : Fin 16} (h : l ≠ s.curSlot) :
    (s.onChannel c f).slot l = s.slot l :=
  slot_setSlot_ne s _ h.symm

theorem onChannel_slot_self (s : State) (c : BitVec 4) (f : Channel → Channel) :
    (s.onChannel c f).slot s.curSlot = (s.slot s.curSlot).setChannel c (f (s.channel s.curSlot c)) :=
  slot_setSlot_self s _ _

theorem onChannel_channel (s : State) (c d : BitVec 4) (f : Channel → Channel) :
    (s.onChannel c f).channel s.curSlot d =
      if d = c then f (s.channel s.curSlot d) else s.channel s.curSlot d := by
  rw [State.channel, onChannel_slot_self, channel_setChannel]
  by_cases hd : d = c
  · rw [hd, if_pos rfl, if_pos rfl]
  · rw [if_neg (Ne.symm hd), if_neg hd]; rfl

/-- Settles O20: each of the four is a change of one channel. -/
theorem channelRegistersSet : Obligations.ChannelRegistersSet := by
  intro s c val f i hi
  have hexec : exec i s = .next (s.onChannel c f) := by
    rcases hi with ⟨rfl, rfl⟩ | ⟨rfl, rfl⟩ | ⟨rfl, rfl⟩ | ⟨rfl, rfl⟩ <;> rfl
  refine ⟨_, hexec, rfl, fun l hl => onChannel_slot_ne s c f hl, ?_, fun d => onChannel_channel s c d f⟩
  rw [onChannel_slot_self]; rfl

/-! ### Bends (44_sequencer.md R304, R305, R318) -/

theorem exec_pb (c : BitVec 4) (ll mm : BitVec 7) (s : State) :
    exec (.pb c ll mm) s = .next (s.programBend (s.curProgram c) (bendOf ll mm)) := rfl

theorem exec_programPitchBend_of_some {p : Int} {q : Fin 128} (h : programIndex p = some q) (bend : NumQ) (s : State) :
    exec (.programPitchBend p bend) s = .next ((s.programBend q bend).withResult .none) := by
  simp only [exec, execProgramPitchBend, h]

theorem exec_programPitchBend_of_none {p : Int} (h : programIndex p = none) (bend : NumQ) (s : State) :
    exec (.programPitchBend p bend) s = .next (s.withResult .none) := by
  simp only [exec, execProgramPitchBend, h]

/-- The 14-bit immediate over the rationals (30_encoding.md R109). -/
theorem bendOf_eq (ll mm : BitVec 7) :
    bendOf ll mm = (((mm.toNat : NumQ) * 128 + (ll.toNat : NumQ)) - 8192) / 8192 := by
  rw [bendOf]; push_cast; rfl

/-- Settles O22: both bends are `programBend`, which bends the active voices of one program. -/
theorem programBends : Obligations.ProgramBends := by
  refine ⟨fun s c ll mm => ?_, fun s p bend hlow hhigh => ?_, fun s p bend hout => ?_⟩
  · refine ⟨_, exec_pb c ll mm s, programBend_frame .., fun i => ?_⟩
    rw [programBend_voice, bendOf_eq]; rfl
  · have hp : programIndex p = some ⟨p.toNat, by omega⟩ := programIndex_some.2 (Int.toNat_of_nonneg hlow).symm
    exact ⟨_, exec_programPitchBend_of_some hp bend s, rfl, programBend_voice s p.toNat bend⟩
  · exact exec_programPitchBend_of_none (programIndex_none hout) bend s

/-! ### The end of a track, the tempo and the events that raise (44_sequencer.md R309 to R312) -/

theorem exec_eot (s : State) : exec .eot s = .next (s.setSlot s.curSlot
    { s.slot s.curSlot with cursor := Config.seqHeaderLen, acc := 0, running := 0 }) := rfl

theorem exec_tempo_of_ne_zero {t2 t1 t0 : Byte} (h : tempoOf t2 t1 t0 ≠ 0) (s : State) :
    exec (.tempo t2 t1 t0) s = .next (s.setSlot s.curSlot
      { s.slot s.curSlot with tempo := tempoOf t2 t1 t0 }) :=
  congrArg Host.Outcome.next (if_neg h)

/-- Bytes side by side, the first the most significant (00_scope.md R10). -/
theorem toNat_append_byte {n : Nat} (x : BitVec n) (b : Byte) : (x ++ b).toNat = 256 * x.toNat + b.toNat := by
  rw [BitVec.toNat_append, ← Nat.shiftLeft_add_eq_or_of_lt b.isLt, Nat.shiftLeft_eq, Nat.mul_comm]

/-- The tempo immediate as a number (30_encoding.md R110). -/
theorem tempoOf_toNat (t2 t1 t0 : Byte) :
    (tempoOf t2 t1 t0).toNat = 65536 * t2.toNat + 256 * t1.toNat + t0.toNat := by
  rw [tempoOf, toNat_append_byte, toNat_append_byte]; ring

/-- Settles O23: either event writes the executing slot. -/
theorem endOfTrackAndTempo : Obligations.EndOfTrackAndTempo := by
  refine ⟨fun s => ?_, fun s t2 t1 t0 hvalue => ?_⟩
  · exact ⟨_, exec_eot s, rfl, fun l hl => slot_setSlot_ne s _ hl.symm, slot_setSlot_self s _ _⟩
  · have htempo : tempoOf t2 t1 t0 ≠ 0 := fun hzero => hvalue (by rw [← tempoOf_toNat, hzero]; rfl)
    refine ⟨_, exec_tempo_of_ne_zero htempo s, rfl, fun l hl => slot_setSlot_ne s _ hl.symm, ?_, ?_⟩
    · rw [slot_setSlot_self]
    · rw [slot_setSlot_self]; exact tempoOf_toNat t2 t1 t0

/-- Settles O24: each of the four takes the exception at the cursor of the executing slot. -/
theorem undecodableEventsRaise : Obligations.UndecodableEventsRaise := by
  intro s c i hi
  have hexec : exec i s = .next s.badEventHere := by
    simp only [List.mem_cons, List.not_mem_nil, or_false] at hi
    rcases hi with rfl | rfl | rfl | rfl <;> rfl
  rw [hexec, State.badEventHere, raiseSlot_eq]

end Events
end Sys2Proof.Proofs

/-! ## The sequencer's commands (44_sequencer.md R281 to R291, R315, R316)

`SEQ_PLAY` by its four tests and the least Idle slot; `SEQ_UPDATE` as the slots' parts one after another, and a slot's
part as turns of the catch-up loop, counted by `turns`. -/

namespace Sys2Proof.Proofs
section Transport

open Sys2Proof Sys2Proof.Machine

/-! ### `SEQ_STOP`, `SEQ_STOP_ALL` (44_sequencer.md R315, R316) -/

theorem exec_seqStop (id : Int) (s : State) :
    exec (.seqStop id) s = .next ((s.onSlot id Slot.stopped).withResult .none) := rfl

theorem onSlot_coe (s : State) (k : Fin 16) (f : Slot → Slot) :
    s.onSlot (k.val : Int) f = s.setSlot k (f (s.slot k)) := by
  simp only [State.onSlot, slotIndex_coe]

theorem onSlot_none (s : State) {id : Int} (h : id < 0 ∨ 15 < id) (f : Slot → Slot) : s.onSlot id f = s := by
  simp only [State.onSlot, slotIndex_none h]

/-- Settles O46: both commands write `Slot.stopped`, one into the slot that the id names, the other into all. -/
theorem seqStops : Obligations.SeqStops := by
  refine ⟨fun s k => ?_, fun s id hid => ?_, fun s => ⟨_, rfl, rfl, fun k => slot_mapSlots s Slot.stopped k⟩⟩
  · rw [exec_seqStop, onSlot_coe]; rfl
  · rw [exec_seqStop, onSlot_none s hid]; rfl

/-! ### `SEQ_PLAY` (44_sequencer.md R281 to R284) -/

/-- The four tests of a stream's header, by its bytes. -/
theorem seqAccepted_iff (data : Bytes) :
    seqAccepted data = true ↔ 15 ≤ data.length ∧ data.take 4 = [0x70, 0x51, 0x45, 0x53] ∧ data.getD 7 0 = 1 ∧
      65536 * (data.getD 10 0).toNat + 256 * (data.getD 11 0).toNat + (data.getD 12 0).toNat ≠ 0 := by
  have hversion : u8 data 7 = 1 ↔ data.getD 7 0 = 1 := BitVec.toNat_inj (x := data.getD 7 0) (y := 1)
  simp only [seqAccepted, Bool.and_eq_true, decide_eq_true_eq, hversion, and_assoc]
  rfl

theorem idleSlot_of_least {s : State} {k : Fin 16} (hk : (s.slot k).active = false)
    (hleast : ∀ l < k, (s.slot l).active = true) : s.idleSlot = some k := by
  rw [State.idleSlot, List.find?_eq_some_iff_getElem]
  refine ⟨by rw [hk]; rfl, k.val, by simp, by simp, fun j hj => ?_⟩
  rw [Bool.not_not, List.getElem_finRange]
  exact hleast _ hj

theorem idleSlot_of_full {s : State} (h : ∀ k, (s.slot k).active = true) : s.idleSlot = none :=
  List.find?_eq_none.2 fun k _ => by simp [h k]

theorem exec_seqPlay_of_least {s : State} {data : Bytes} {k : Fin 16} (hacc : seqAccepted data = true)
    (hk : (s.slot k).active = false) (hleast : ∀ l < k, (s.slot l).active = true) (bank : Int) :
    exec (.seqPlay data bank) s = .next (s.startSlot k data bank) := by
  simp only [exec, execSeqPlay, hacc, if_true, idleSlot_of_least hk hleast]

theorem exec_seqPlay_of_rejected {s : State} {data : Bytes} (h : seqAccepted data = true → s.idleSlot = none)
    (bank : Int) : exec (.seqPlay data bank) s = .next (s.withResult (.slotId (-1))) := by
  simp only [exec, execSeqPlay]
  split
  · next hacc => rw [h hacc]
  · rfl

/-- Settles O41: the buffer fails a test, or no slot is Idle. -/
theorem seqPlayRejects : Obligations.SeqPlayRejects := by
  intro s data bank hcause
  refine exec_seqPlay_of_rejected (fun hacc => ?_) bank
  obtain ⟨hlen, hmagic, hversion, htempo⟩ := (seqAccepted_iff data).1 hacc
  rcases hcause with h | h | h | h | hfull
  · omega
  · exact absurd hmagic h
  · exact absurd hversion h
  · exact absurd h htempo
  · exact idleSlot_of_full hfull

theorem ofNat_toNat_self {n : Nat} (x : BitVec n) : BitVec.ofNat n x.toNat = x :=
  (BitVec.ofNat_toNat n x).trans (BitVec.setWidth_eq x)

/-- The registers that a started slot takes from the header, as its bytes side by side (44_sequencer.md R281). -/
theorem startedSlot_eq (data : Bytes) (bank : Int) (used wait : Nat) :
    startedSlot data bank used wait =
      { active := true, buf := some data, cursor := 15 + used, running := 0, acc := 0, wait := wait
        tempo := data.getD 10 0 ++ data.getD 11 0 ++ data.getD 12 0
        resolution := data.getD 8 0 ++ data.getD 9 0, masterVolume := data.getD 13 0, bankId := bank
        chan := Vector.ofFn fun c : Fin 16 =>
          { volume := 127, pan := 64, expression := 127, program := BitVec.ofNat 8 c.val } } := by
  have htempo : BitVec.ofNat 24 (u24be data 10) = tempoOf (data.getD 10 0) (data.getD 11 0) (data.getD 12 0) := by
    rw [← ofNat_toNat_self (tempoOf _ _ _), tempoOf_toNat]; rfl
  have hresolution : BitVec.ofNat 16 (u16be data 8) = data.getD 8 0 ++ data.getD 9 0 := by
    rw [← ofNat_toNat_self (data.getD 8 0 ++ data.getD 9 0), toNat_append_byte]; rfl
  have hmaster : BitVec.ofNat 8 (u8 data 13) = data.getD 13 0 := ofNat_toNat_self _
  rw [startedSlot, htempo, hresolution, hmaster]
  rfl

/-- Settles O40: the least Idle slot is started, and its first delay decodes. -/
theorem seqPlayAccepts : Obligations.SeqPlayAccepts := by
  intro s data bank k wait f hlen hmagic hversion htempo hk hleast hf hwait
  rw [exec_seqPlay_of_least ((seqAccepted_iff data).2 ⟨hlen, hmagic, hversion, htempo⟩) hk hleast]
  rcases startSlot_cases s k data bank with ⟨w, hw, hstart⟩ | ⟨e, he, -⟩
  · rw [hf, hwait] at hw
    cases hw
    rw [hstart, hf, startedSlot_eq]; rfl
  · rw [hf, hwait] at he; cases he

/-- Settles O42: the least Idle slot is to be started, and its first delay does not decode. -/
theorem seqPlayDelayFails : Obligations.SeqPlayDelayFails := by
  intro s data bank k e hlen hmagic hversion htempo hk hleast he
  rw [exec_seqPlay_of_least ((seqAccepted_iff data).2 ⟨hlen, hmagic, hversion, htempo⟩) hk hleast]
  rcases startSlot_cases s k data bank with ⟨w, hw, -⟩ | ⟨e', he', hstart⟩
  · rw [he] at hw; cases hw
  · rw [he] at he'
    cases he'
    rw [hstart]
    cases e <;> rfl

/-! ### The parts of an update, one slot after another (44_sequencer.md R285) -/

/-- An update after the parts of the slots below `n`. -/
def afterSlots (dt : NumQ) (s : State) (n : Nat) : State := ((List.finRange 16).take n).foldl (updateSlot dt) s

theorem afterSlots_succ (dt : NumQ) (s : State) (k : Fin 16) :
    afterSlots dt s (k.val + 1) = updateSlot dt (afterSlots dt s k.val) k := by
  have hk : k.val < (List.finRange 16).length := by simp
  rw [afterSlots, List.take_succ_eq_append_getElem hk, List.foldl_append, List.getElem_finRange]
  rfl

/-- A frame with a result after it, in the fields of the state that has the result. -/
theorem withResult_eq_of_seqFrame {s t : State} (h : SeqFrame s t) (r : Result) :
    t.withResult r = { s with
      voices := (t.withResult r).voices, fm := (t.withResult r).fm, stealCursor := (t.withResult r).stealCursor
      slots := (t.withResult r).slots, diag := (t.withResult r).diag, result := r } :=
  congrArg (State.withResult · r) h

theorem withResult_eq_of_slots {s t : State} (h : t = { s with slots := t.slots }) (r : Result) :
    t.withResult r = { s with slots := (t.withResult r).slots, result := r } :=
  congrArg (State.withResult · r) h

theorem exec_seqUpdate_eq_afterSlots (dt : NumQ) (s : State) :
    exec (.seqUpdate dt) s = .next ((afterSlots dt s 16).withResult .none) := rfl

/-- Settles O43: the states between the slots are `afterSlots`. -/
theorem seqUpdateCompletes : Obligations.SeqUpdateCompletes := by
  intro s dt
  have hframe : SeqFrame s (afterSlots dt s 16) := updateSlots_seqFrame dt _ s
  exact ⟨_, afterSlots dt s, exec_seqUpdate_eq_afterSlots dt s, withResult_eq_of_seqFrame hframe .none, rfl,
    afterSlots_succ dt s, rfl⟩

/-! ### Clocks (44_sequencer.md R285) -/

/-- `60 * 10^6 / tempo * resolution / 60` ticks a second. -/
theorem ticksPerSecond_eq (x : Slot) :
    x.ticksPerSecond = 1000000 * (x.resolution.toNat : NumQ) / (x.tempo.toNat : NumQ) := by
  rw [Slot.ticksPerSecond]; ring

/-- A slot's part of an update in which it does not come due. -/
def clocked (dt : NumQ) (x : Slot) : Slot := if x.active = true then x.advance dt else x

theorem updateSlot_of_not_due {dt : NumQ} {s : State} {k : Fin 16}
    (h : (s.slot k).active = true → ((s.slot k).advance dt).due = false) :
    updateSlot dt s k = s.setSlot k (clocked dt (s.slot k)) := by
  unfold updateSlot clocked
  split
  · next hact => simp only [slot_setSlot_self, h hact, Bool.false_eq_true, if_false]
  · rw [setSlot_slot]

/-- The parts of slots that do not come due: each has its own clock advanced. -/
theorem updateSlots_of_not_due {dt : NumQ} {l : List (Fin 16)} (hl : l.Nodup) {s : State}
    (h : ∀ k ∈ l, (s.slot k).active = true → ((s.slot k).advance dt).due = false) :
    l.foldl (updateSlot dt) s = { s with slots := (l.foldl (updateSlot dt) s).slots } ∧
      ∀ j, (l.foldl (updateSlot dt) s).slot j = if j ∈ l then clocked dt (s.slot j) else s.slot j := by
  induction l generalizing s with
  | nil => exact ⟨rfl, fun j => rfl⟩
  | cons k l ih =>
    obtain ⟨hk, hl⟩ := List.nodup_cons.1 hl
    have hother : ∀ j ∈ l, (s.setSlot k (clocked dt (s.slot k))).slot j = s.slot j := fun j hj =>
      slot_setSlot_ne s _ fun hkj => hk (hkj ▸ hj)
    rw [List.foldl_cons, updateSlot_of_not_due (h k List.mem_cons_self)]
    obtain ⟨hframe, hslot⟩ := ih (s := s.setSlot k (clocked dt (s.slot k))) hl fun j hj => by
      rw [hother j hj]; exact h j (List.mem_cons_of_mem k hj)
    refine ⟨hframe, fun j => ?_⟩
    rw [hslot]
    by_cases hj : j ∈ l
    · rw [if_pos hj, if_pos (List.mem_cons_of_mem k hj), hother j hj]
    · by_cases hjk : j = k
      · rw [if_neg hj, hjk, if_pos List.mem_cons_self, slot_setSlot_self]
      · rw [if_neg hj, if_neg (List.not_mem_cons_of_ne_of_not_mem hjk hj), slot_setSlot_ne s _ (Ne.symm hjk)]

/-- Settles O44: no clock reaches its wait, so that every part is `clocked`. -/
theorem seqUpdateAdvancesClocks : Obligations.SeqUpdateAdvancesClocks := by
  intro s dt hwaiting
  have hnotdue : ∀ k ∈ List.finRange 16, (s.slot k).active = true → ((s.slot k).advance dt).due = false := by
    intro k _ hact
    refine due_eq_false_of_idle_or_waiting (.inr ?_)
    rw [Slot.advance, ticksPerSecond_eq]
    exact hwaiting k hact
  obtain ⟨hframe, hslot⟩ := updateSlots_of_not_due (List.nodup_finRange 16) hnotdue
  refine ⟨_, exec_seqUpdate dt s, withResult_eq_of_slots hframe .none, fun k => ?_⟩
  rw [slot_congr (withResult_slots _ _), hslot, if_pos (List.mem_finRange k), clocked, Slot.advance, ticksPerSecond_eq]

/-! ### Turns (44_sequencer.md R285 to R291) -/

/-- The slot as its event finds it: the wait taken off, the event's bytes passed (44_sequencer.md R286, R287). -/
def enteredSlot (x : Slot) (f : EventFetch) : Slot :=
  { x with acc := x.acc - (x.wait : NumQ), cursor := x.cursor + f.used, running := f.running }

theorem enteredSlot_stream (x : Slot) (f : EventFetch) : (enteredSlot x f).stream = x.stream.drop f.used := by
  have hbuf : (enteredSlot x f).buf = x.buf := rfl
  rw [Slot.stream, Slot.stream, hbuf]
  cases x.buf with
  | none => exact List.drop_nil.symm
  | some b => exact List.drop_drop.symm

/-- Settles O14: the turn of `stepEvent_of_decoded`, and the two ends of a delay's reading. -/
theorem turnRunsDecodedEvent : Obligations.TurnRunsDecodedEvent := by
  refine ⟨fun s k i f hf hi => ?_, fun s k f hf => ⟨fun v hv => ?_, fun e he => ?_⟩, fun x b hb => ?_⟩
  · have hevent : i.isEvent = true := decodeEvent_isEvent _ _ i (by rw [hf]; exact hi)
    obtain ⟨t, ht⟩ := exec_event_next i hevent ((s.setSlot k (enteredSlot (s.slot k) f)).forSlot k)
    exact ⟨t, ht, stepEvent_of_decoded hf hi ht⟩
  · exact readDelay_of_ok s k v f.used (by rw [hf, ← hv])
  · rw [readDelay_of_error s k e f.used (by rw [hf, ← he])]
    cases e <;> rfl
  · rw [Slot.stream, hb]

/-- `n` turns of slot `k`, one after another. -/
def turns (k : Fin 16) (n : Nat) (s : State) : State := (fun t : State => t.stepEvent k)^[n] s

theorem turns_succ (k : Fin 16) (n : Nat) (s : State) : turns k (n + 1) s = (turns k n s).stepEvent k :=
  Function.iterate_succ_apply' _ n s

/-- The loop's end: no event is due any more, or the allowance is spent (44_sequencer.md R291). -/
theorem catchUp_eq_turns (k : Fin 16) (N : Nat) (s : State) (hdue : (s.slot k).due = true) :
    ∃ n ≤ N, catchUp k N s = turns k n s ∧ (∀ m < n, ((turns k m s).slot k).due = true) ∧
      (n = N ∨ ((turns k n s).slot k).due = false) := by
  induction N generalizing s with
  | zero => exact ⟨0, le_rfl, rfl, fun m hm => absurd hm (Nat.not_lt_zero m), .inl rfl⟩
  | succ N ih =>
    by_cases hnext : ((s.stepEvent k).slot k).due = true
    · obtain ⟨n, hn, hloop, hturns, hend⟩ := ih (s.stepEvent k) hnext
      refine ⟨n + 1, Nat.succ_le_succ hn, (if_pos hnext).trans hloop, fun m hm => ?_,
        hend.imp_left (congrArg Nat.succ)⟩
      cases m with
      | zero => exact hdue
      | succ m => exact hturns m (Nat.lt_of_succ_lt_succ hm)
    · refine ⟨1, Nat.succ_le_succ (Nat.zero_le N), if_neg hnext, fun m hm => ?_, .inr (Bool.eq_false_iff.2 hnext)⟩
      rw [Nat.lt_one_iff.1 hm]; exact hdue

/-- Settles O17: the turns of an Active slot are those of `catchUp_eq_turns` if an event is due, and none if not. -/
theorem catchUpLoop : Obligations.CatchUpLoop := by
  refine ⟨fun s k dt hact => ?_, fun s k dt => updateSlot_idle dt s k⟩
  have hpart : updateSlot dt s k =
      if ((s.setSlot k ((s.slot k).advance dt)).slot k).due = true then
        catchUp k Config.maxEventsPerUpdate (s.setSlot k ((s.slot k).advance dt))
      else s.setSlot k ((s.slot k).advance dt) := if_pos hact
  by_cases hdue : ((s.setSlot k ((s.slot k).advance dt)).slot k).due = true
  · obtain ⟨n, hn, hloop, hturns, hend⟩ := catchUp_eq_turns k Config.maxEventsPerUpdate _ hdue
    exact ⟨n, hn, hpart.trans ((if_pos hdue).trans hloop), hturns, hend⟩
  · exact ⟨0, Nat.zero_le _, hpart.trans (if_neg hdue), fun m hm => absurd hm (Nat.not_lt_zero m),
      .inr (Bool.eq_false_iff.2 hdue)⟩

/-! ### Events without a delay between them (44_sequencer.md R286, R291) -/

/-- An update by 0 takes the turns that the cap allows, where an event is due before each of them. -/
theorem updateSlot_zero_eq_turns {s : State} {k : Fin 16}
    (h : ∀ m < Config.maxEventsPerUpdate, ((turns k m s).slot k).due = true) :
    updateSlot 0 s k = turns k Config.maxEventsPerUpdate s := by
  have hdue : (s.slot k).due = true := h 0 (Nat.succ_pos _)
  have hadvance : (s.slot k).advance 0 = s.slot k := by simp [Slot.advance]
  rw [updateSlot, if_pos ((due_iff _).1 hdue).1, hadvance, setSlot_slot]
  exact (if_pos hdue).trans (catchUp_iterate k _ s h)

theorem exec_seqUpdate_of_single {s : State} {k : Fin 16} (h : ∀ l, (s.slot l).active = true ↔ l = k) (dt : NumQ) :
    exec (.seqUpdate dt) s = .next ((updateSlot dt s k).withResult .none) := by
  have hidle : ∀ l, l ≠ k → (s.slot l).active = false := fun l hl =>
    Bool.eq_false_iff.2 fun hact => hl ((h l).1 hact)
  rw [exec_seqUpdate, updateSlots_single dt s k hidle]

/-- A turn whose event writes its own slot alone, with a delay after it, writes that slot alone. -/
theorem stepEvent_of_slot_event {s : State} {k : Fin 16} {i : Instr} {f : EventFetch} {x : Slot} {n v : Nat}
    (hf : decodeEvent (s.slot k).running (s.slot k).stream = f) (hi : f.result = .ok i)
    (hexec : exec i ((s.setSlot k (enteredSlot (s.slot k) f)).forSlot k) = .next ((s.setSlot k x).forSlot k))
    (hact : x.active = true) (hdelay : decodeVlq x.stream = { used := n, result := .ok v }) :
    s.stepEvent k = s.setSlot k { x with cursor := x.cursor + n, wait := v } := by
  have hslot : ((s.setSlot k x).forSlot k).slot k = x := slot_setSlot_self s k x
  have hback : ((s.setSlot k x).forSlot k).forSlot s.curSlot = s.setSlot k x := rfl
  rw [stepEvent_of_decoded hf hi hexec, hslot, if_pos hact, hback,
    readDelay_of_ok _ k v n (by rw [slot_setSlot_self]; exact hdelay), slot_setSlot_self, setSlot_setSlot]

theorem decodeVlq_zero (rest : Bytes) : decodeVlq (0x00 :: rest) = { used := 1, result := .ok 0 } :=
  decodeVlq_value [] 0 rest (Nat.zero_le 3)

/-- A slot in a stream without delays: Active, nothing waited for and nothing accumulated. -/
structure Undelayed (x : Slot) : Prop where
  active : x.active = true
  wait : x.wait = 0
  acc : x.acc = 0

theorem Undelayed.due {x : Slot} (h : Undelayed x) : x.due = true :=
  (due_iff x).2 ⟨h.active, by rw [h.wait, h.acc, Nat.cast_zero]⟩

theorem stream_of_buf {x : Slot} {b tail : Bytes} {n : Nat} (hbuf : x.buf = some (b ++ tail))
    (hcursor : x.cursor = b.length + n) : x.stream = tail.drop n := by
  rw [Slot.stream, hbuf, hcursor]; exact List.drop_length_add_append n

/-! ### A track of one end of track (44_sequencer.md R310) -/

/-- `EOT` for a slot just written. -/
theorem exec_eot_setSlot (s : State) (k : Fin 16) (x : Slot) : exec .eot ((s.setSlot k x).forSlot k) =
    .next ((s.setSlot k { x with cursor := 15, acc := 0, running := 0 }).forSlot k) := by
  have hslot : ((s.setSlot k x).forSlot k).slot k = x := slot_setSlot_self s k x
  have hset : ∀ y, ((s.setSlot k x).forSlot k).setSlot k y = (s.setSlot k y).forSlot k := fun y =>
    congrArg (State.forSlot · k) (setSlot_setSlot s k x y)
  rw [exec_eot, show ((s.setSlot k x).forSlot k).curSlot = k from rfl, hslot, hset]
  rfl

theorem slot_update_eq_self {x : Slot} {cursor wait : Nat} {running : Byte} {acc : NumQ} (hcursor : x.cursor = cursor)
    (hrunning : x.running = running) (hacc : x.acc = acc) (hwait : x.wait = wait) :
    ({ x with cursor := cursor, running := running, acc := acc, wait := wait } : Slot) = x := by
  subst hcursor hrunning hacc hwait; rfl

/-- An end of track after a delay of 0 leads back to where it was. -/
theorem stepEvent_of_endOfTrack {s : State} {k : Fin 16} {h : Bytes} (hlen : h.length = 15) (hx : Undelayed (s.slot k))
    (hcursor : (s.slot k).cursor = 16) (hrunning : (s.slot k).running = 0)
    (hbuf : (s.slot k).buf = some (h ++ [0x00, 0xFF, 0x2F])) : s.stepEvent k = s := by
  have hstream : (s.slot k).stream = [0xFF, 0x2F] := stream_of_buf (n := 1) hbuf (by rw [hcursor, hlen])
  have hread : decodeEvent (s.slot k).running (s.slot k).stream =
      { used := 2, running := 0xFF, result := .ok .eot } := by
    rw [hstream]; exact eventDecodesInStream .eot [0xFF, 0x2F] [] _ rfl rfl
  have hloop : ({ s.slot k with cursor := 15, acc := 0, running := 0 } : Slot).stream = [0x00, 0xFF, 0x2F] :=
    stream_of_buf (n := 0) hbuf hlen.symm
  have hturn := stepEvent_of_slot_event hread rfl (exec_eot_setSlot s k _) hx.active
    (x := { s.slot k with cursor := 15, acc := 0, running := 0 }) (by rw [hloop]; exact decodeVlq_zero _)
  have hback := congrArg (s.setSlot k) (slot_update_eq_self hcursor hrunning hx.acc hx.wait)
  exact (hturn.trans hback).trans (setSlot_slot s k)

/-! ### A track of controllers (44_sequencer.md R302) -/

/-- A controller that does nothing and a delay of 0: four bytes passed, and the running status set. -/
theorem stepEvent_of_controller {s : State} {k : Fin 16} {rest : Bytes} (hx : Undelayed (s.slot k))
    (hstream : (s.slot k).stream = [0xB0, 0x40, 0x00, 0x00] ++ rest) :
    s.stepEvent k = s.setSlot k { s.slot k with cursor := (s.slot k).cursor + 4, running := 0xB0 } := by
  have hread : decodeEvent (s.slot k).running (s.slot k).stream =
      { used := 3, running := 0xB0, result := .ok (.ccOther 0 0x40 0) } := by
    rw [hstream]; exact eventDecodesInStream (.ccOther 0 0x40 0) [0xB0, 0x40, 0x00] (0x00 :: rest) _ rfl rfl
  have hnext : (enteredSlot (s.slot k) { used := 3, running := 0xB0, result := .ok (.ccOther 0 0x40 0) }).stream =
      0x00 :: rest := by
    rw [enteredSlot_stream, hstream]; rfl
  rw [stepEvent_of_slot_event hread rfl rfl hx.active (by rw [hnext]; exact decodeVlq_zero rest)]
  simp only [enteredSlot, hx.wait, Nat.cast_zero, sub_zero]

/-- A slot after `n` of the controllers ahead of it. -/
def passedControllers (x : Slot) : Nat → Slot
  | 0 => x
  | n + 1 => { x with cursor := x.cursor + 4 * (n + 1), running := 0xB0 }

theorem passedControllers_cursor (x : Slot) (n : Nat) : (passedControllers x n).cursor = x.cursor + 4 * n := by
  cases n <;> rfl

theorem passedControllers_buf (x : Slot) (n : Nat) : (passedControllers x n).buf = x.buf := by
  cases n <;> rfl

theorem passedControllers_undelayed {x : Slot} (h : Undelayed x) (n : Nat) : Undelayed (passedControllers x n) := by
  cases n <;> exact ⟨h.active, h.wait, h.acc⟩

theorem passedControllers_succ (x : Slot) (n : Nat) : passedControllers x (n + 1) =
    { passedControllers x n with cursor := (passedControllers x n).cursor + 4, running := 0xB0 } := by
  cases n <;> rfl

/-- The stream of `M` controllers, `n` of them passed. -/
theorem drop_controllers {n M : Nat} (h : n < M) (event : Bytes) (hevent : event.length = 4) :
    ((List.replicate M event).flatten).drop (4 * n) = event ++ (List.replicate (M - n - 1) event).flatten := by
  have hM : M = n + (1 + (M - n - 1)) := by omega
  have hpassed : (List.replicate n event).flatten.length = 4 * n := by simp [hevent, Nat.mul_comm]
  conv_lhs => rw [hM, List.replicate_add, List.flatten_append, List.drop_left' hpassed, List.replicate_add]
  rfl

theorem turns_of_controllers {s : State} {k : Fin 16} {b : Bytes} {M : Nat} (hx : Undelayed (s.slot k))
    (hcursor : (s.slot k).cursor = b.length)
    (hbuf : (s.slot k).buf = some (b ++ (List.replicate M ([0xB0, 0x40, 0x00, 0x00] : Bytes)).flatten)) {n : Nat}
    (hn : n ≤ M) : turns k n s = s.setSlot k (passedControllers (s.slot k) n) := by
  induction n with
  | zero => exact (setSlot_slot s k).symm
  | succ n ih =>
    have hslot : (s.setSlot k (passedControllers (s.slot k) n)).slot k = passedControllers (s.slot k) n :=
      slot_setSlot_self s k _
    have hahead : (passedControllers (s.slot k) n).stream =
        ((List.replicate M ([0xB0, 0x40, 0x00, 0x00] : Bytes)).flatten).drop (4 * n) :=
      stream_of_buf ((passedControllers_buf _ n).trans hbuf) (by rw [passedControllers_cursor, hcursor])
    have hturn := stepEvent_of_controller (s := s.setSlot k (passedControllers (s.slot k) n)) (k := k)
      (by rw [hslot]; exact passedControllers_undelayed hx n)
      (by rw [hslot, hahead]; exact drop_controllers hn _ rfl)
    rw [turns_succ, ih (Nat.le_of_succ_le hn), hturn, hslot, setSlot_setSlot,
      ← passedControllers_succ]

/-- Settles O45: every turn finds an event due, so that the update takes as many as the cap allows. -/
theorem zeroDelayLoopIsBounded : Obligations.ZeroDelayLoopIsBounded := by
  intro s k h hlen hact hcursor hrunning hwait hacc
  have hx : Undelayed (s.slot k) := ⟨(hact k).2 rfl, hwait, hacc⟩
  refine ⟨fun hbuf => ?_, fun M hM hbuf => ?_⟩
  · have hturns : ∀ n, turns k n s = s :=
      Function.iterate_fixed (stepEvent_of_endOfTrack hlen hx hcursor hrunning hbuf)
    have hdue : ∀ n, ((turns k n s).slot k).due = true := fun n => by rw [hturns n]; exact hx.due
    have hupdate := updateSlot_zero_eq_turns fun m _ => hdue m
    refine ⟨hupdate, hdue, ?_⟩
    rw [exec_seqUpdate_of_single hact, hupdate, hturns]
    rfl
  · have hturns : ∀ n ≤ M, turns k n s = s.setSlot k (passedControllers (s.slot k) n) := fun n hn =>
      turns_of_controllers (b := h ++ [0x00]) hx (by rw [hcursor, List.length_append, hlen]; rfl) hbuf hn
    have hslot : ∀ n ≤ M, ((turns k n s).slot k).due = true ∧ ((turns k n s).slot k).cursor = 16 + 4 * n := by
      intro n hn
      rw [hturns n hn, slot_setSlot_self, passedControllers_cursor, hcursor]
      exact ⟨(passedControllers_undelayed hx n).due, rfl⟩
    have hupdate := updateSlot_zero_eq_turns fun m hm => (hslot m (hm.le.trans hM)).1
    refine ⟨hupdate, hslot, ?_⟩
    have hpassed : passedControllers (s.slot k) Config.maxEventsPerUpdate =
        { s.slot k with cursor := (s.slot k).cursor + 4 * Config.maxEventsPerUpdate, running := 0xB0 } := rfl
    rw [exec_seqUpdate_of_single hact, hupdate, hturns _ hM, hpassed, hcursor]
    rfl

end Transport
end Sys2Proof.Proofs

/-! ## The bank loader (45_bank_loader.md)

A load as a fold over the programs: `programTones` says which tones a program gets, `TableAfter` what the fold does to
the rate table, and `vagPos` where the VAGs of the body stand. -/

namespace Sys2Proof.Proofs
section BankLoader

open Sys2Proof Sys2Proof.Machine

/-! ### The unload (45_bank_loader.md R360) -/

theorem unloadAll_voice (s : State) (i : Fin 127) : s.unloadAll.voice i = (s.voice i).cut := by
  rw [State.unloadAll, voice_congr (clearTones_voices _), voice_mapVoices]

/-- The state that an unload answers with, whatever the result. -/
theorem unloadAll_answers (s : State) (r : Result) :
    let t := s.unloadAll.withResult r
    t = { s with voices := t.voices, prog := t.prog, bankMaster := 127, result := r } ∧
      (∀ p < 128, (t.program p).tones = []) ∧
      (∀ i, t.voice i = { s.voice i with
        active := false, phase := .idle, tone := none, env := 0, lastOut := 0, relOverride := none }) :=
  ⟨rfl, fun p hp => congrArg Program.tones (unloadAll_program s ⟨p, hp⟩), unloadAll_voice s⟩

theorem exec_bankUnloadAll (s : State) : exec .bankUnloadAll s = .next (s.unloadAll.withResult .none) := rfl

/-- Settles O49: the frame and the contents of the unloaded state. -/
theorem bankUnloadClears : Obligations.BankUnloadClears := fun s =>
  ⟨_, exec_bankUnloadAll s, unloadAll_answers s .none⟩

/-! ### The three checks (45_bank_loader.md R341, R343, R356) -/

theorem bankAccepted_iff (hdr : Bytes) : bankAccepted hdr = true ↔
    2080 ≤ hdr.length ∧ u16le hdr 18 ≠ 0 ∧ tableAddress (u16le hdr 18) + 2 * u16le hdr 22 ≤ hdr.length := by
  simp only [bankAccepted, Bool.and_eq_true, decide_eq_true_eq, and_assoc]
  rfl

theorem exec_bankLoad_of_rejected {hdr : Bytes} (h : ¬ bankAccepted hdr = true) (body : Bytes) (s : State) :
    exec (.bankLoad hdr body) s = .next (s.unloadAll.withResult (.bool false)) :=
  if_neg h

theorem exec_bankLoad_of_accepted {hdr : Bytes} (h : bankAccepted hdr = true) (body : Bytes) (s : State) :
    exec (.bankLoad hdr body) s = .next ((s.unloadAll.loadBank hdr body).withResult (.bool true)) :=
  if_pos h

/-- Settles O47: a rejected header leaves the unloaded state, each check being one of the three causes. -/
theorem bankLoadFails : Obligations.BankLoadFails := by
  intro s hdr body hcause
  refine ⟨_, exec_bankLoad_of_rejected (fun hacc => ?_) body s, unloadAll_answers s (.bool false)⟩
  obtain ⟨hlen, hcount, htables⟩ := (bankAccepted_iff hdr).1 hacc
  rcases hcause with hshort | hnone | hcut
  · exact absurd hlen (Nat.not_le.2 hshort)
  · exact hcount hnone
  · exact absurd htables (Nat.not_le.2 hcut)

/-! ### The positions of the VAGs (45_bank_loader.md R344, R345) -/

/-- Where VAG `k` begins in the body, for `k` from 1. -/
def vagPos (hdr body : Bytes) (addr : Nat) : Nat → Nat
  | 0 => 0
  | 1 => 0
  | k + 2 =>
    let pos := vagPos hdr body addr (k + 1)
    let size := vagSize hdr addr (k + 1)
    if size = 0 ∨ body.length < pos + size then pos else pos + size

theorem vagPos_succ (hdr body : Bytes) (addr : Nat) {k : Nat} (hk : 1 ≤ k) :
    vagPos hdr body addr (k + 1) =
      if vagSize hdr addr k = 0 ∨ body.length < vagPos hdr body addr k + vagSize hdr addr k
      then vagPos hdr body addr k else vagPos hdr body addr k + vagSize hdr addr k := by
  obtain ⟨j, rfl⟩ := Nat.exists_eq_add_of_le' hk
  rfl

/-! ### The tone of a record (45_bank_loader.md R349 to R354) -/

/-- The zero test and the swap put the two notes in order (45_bank_loader.md R350). -/
theorem noteRange_eq_min_max (mn mx : Nat) :
    noteRange mn mx = (min mn (if mx = 0 then 127 else mx), max mn (if mx = 0 then 127 else mx)) := by
  unfold noteRange
  generalize (if mx = 0 then 127 else mx) = high
  by_cases h : high < mn
  · rw [if_pos h, min_eq_right h.le, max_eq_left h.le]
  · rw [if_neg h, min_eq_left (Nat.not_lt.1 h), max_eq_right (Nat.not_lt.1 h)]

theorem ofNat_u8 (buf : Bytes) (a : Nat) : BitVec.ofNat 8 (u8 buf a) = buf.getD a 0 := ofNat_toNat_self _

/-- An index names a VAG when its entry is in the table, is not skipped, and decodes (45_bank_loader.md R345, R346). -/
theorem namedVag_walkBody (hdr body : Bytes) (addr n v : Nat) :
    let pos := vagPos hdr body addr v
    let size := vagSize hdr addr v
    let decoded := adpcm (memRead body pos size)
    namedVag (walkBody hdr body addr n) v =
      if 1 ≤ v ∧ v ≤ n ∧ size ≠ 0 ∧ pos + size ≤ body.length ∧ decoded.samples ≠ [] then
        some { data := decoded.samples.map normalised, loop := loopFlag decoded.endFlags }
      else none := by
  intro pos size decoded
  rw [namedVag_eq hdr body addr (vagPos hdr body addr) n v rfl fun _ hj => vagPos_succ hdr body addr hj, decodeVag_eq,
    ← ite_and]
  simp only [and_assoc]
  rfl

/-- A record gives a tone when it lies in the header and its index names a VAG (45_bank_loader.md R349, R354). -/
theorem recordTone_walkBody (hdr body : Bytes) (addr n p vol r : Nat) :
    let base := toneRecord p r
    let v := u16le hdr (base + 22)
    let pos := vagPos hdr body addr v
    let size := vagSize hdr addr v
    let decoded := adpcm (memRead body pos size)
    recordTone hdr (walkBody hdr body addr n) p vol r =
      if base + 32 ≤ hdr.length ∧ 1 ≤ v ∧ v ≤ n ∧ size ≠ 0 ∧ pos + size ≤ body.length ∧ decoded.samples ≠ [] then
        some (toneOf hdr base vol { data := decoded.samples.map normalised, loop := loopFlag decoded.endFlags }
          (convertFields rateTable
            (unpackAdsr (BitVec.ofNat 16 (u16le hdr (base + 16))) (BitVec.ofNat 16 (u16le hdr (base + 18))))))
      else none := by
  simp only [recordTone, namedVag_walkBody, Option.map_if, ← ite_and]

/-! ### The rate table of a load (41_envelope_generator.md R153) -/

/-- The rate table from `s` to `t`: built if a tone was converted, left alone if none was. -/
structure TableAfter (converted : Prop) (s t : State) : Prop where
  built : converted → t.rt = rateTable ∧ t.rtBuilt = true
  kept : ¬ converted → t.rt = s.rt ∧ t.rtBuilt = s.rtBuilt

theorem TableAfter.trans {P Q : Prop} {s t u : State} (hst : TableAfter P s t) (htu : TableAfter Q t u) :
    TableAfter (P ∨ Q) s u where
  built hPQ := by
    by_cases hQ : Q
    · exact htu.built hQ
    · obtain ⟨hrt, hbuilt⟩ := htu.kept hQ
      rw [hrt, hbuilt]
      exact hst.built (hPQ.resolve_right hQ)
  kept hPQ := by
    obtain ⟨hP, hQ⟩ := not_or.1 hPQ
    obtain ⟨hrt, hbuilt⟩ := htu.kept hQ
    rw [hrt, hbuilt]
    exact hst.kept hP

/-! ### The programs, one after another (45_bank_loader.md R340, R348) -/

/-- The tones of program `p`'s first 16 records, in record order. -/
def programTones (hdr : Bytes) (pcm : List (Option Vag)) (p : Nat) : List Tone :=
  (List.range (min (u8 hdr (32 + 16 * p)) 16)).filterMap (recordTone hdr pcm p (u8 hdr (32 + 16 * p + 1)))

theorem loadProgram_fills (hdr : Bytes) (pcm : List (Option Vag)) {s : State} (hs : s.TableOk) {p : Fin 128}
    (hempty : s.program p = Program.empty) :
    ((loadProgram hdr pcm s p).program p).tones = programTones hdr pcm p ∧
      (loadProgram hdr pcm s p).TableOk ∧ (∀ q : Fin 128, q ≠ p → (loadProgram hdr pcm s p).program q = s.program q) ∧
      TableAfter (programTones hdr pcm p ≠ []) s (loadProgram hdr pcm s p) := by
  obtain ⟨htable, htones, hother, hbuilt, hkept, -⟩ :=
    loadTones_eq hdr pcm p (u8 hdr (32 + 16 * p + 1)) (List.range (min (u8 hdr (32 + 16 * p)) 16)) hs
  rw [hempty] at htones
  exact ⟨htones, htable, fun q hq => hother q (Fin.val_ne_of_ne hq), hbuilt, fun h => hkept (not_not.1 h)⟩

theorem loadPrograms_fill (hdr : Bytes) (pcm : List (Option Vag)) {l : List (Fin 128)} (hl : l.Nodup) {s : State}
    (hs : s.TableOk) (hempty : ∀ p ∈ l, s.program p = Program.empty) :
    (∀ p ∈ l, ((l.foldl (loadProgram hdr pcm) s).program p).tones = programTones hdr pcm p) ∧
      (∀ p ∉ l, (l.foldl (loadProgram hdr pcm) s).program p = s.program p) ∧
      TableAfter (∃ p ∈ l, programTones hdr pcm p ≠ []) s (l.foldl (loadProgram hdr pcm) s) := by
  induction l generalizing s with
  | nil => exact ⟨fun _ hp => (List.not_mem_nil hp).elim, fun _ _ => rfl,
      fun ⟨_, hp, _⟩ => (List.not_mem_nil hp).elim, fun _ => ⟨rfl, rfl⟩⟩
  | cons p l ih =>
    obtain ⟨hp, hl⟩ := List.nodup_cons.1 hl
    obtain ⟨hfirst, hs', hother, htable⟩ := loadProgram_fills hdr pcm hs (hempty p List.mem_cons_self)
    have hempty' : ∀ q ∈ l, (loadProgram hdr pcm s p).program q = Program.empty := fun q hq => by
      rw [hother q fun hqp => hp (hqp ▸ hq)]
      exact hempty q (List.mem_cons_of_mem p hq)
    obtain ⟨hrest, hleft, htable'⟩ := ih hl hs' hempty'
    refine ⟨fun q hq => ?_, fun q hq => ?_, ?_⟩
    · rcases List.mem_cons.1 hq with rfl | hq
      · rw [List.foldl_cons, hleft q hp, hfirst]
      · exact hrest q hq
    · obtain ⟨hqp, hql⟩ := List.ne_and_not_mem_of_not_mem_cons hq
      rw [List.foldl_cons, hleft q hql, hother q hqp]
    · rw [List.exists_mem_cons_iff]
      exact htable.trans htable'

/-! ### A load that passes the checks (45_bank_loader.md R340, R355) -/

/-- The VAGs of a bank, as its records name them. -/
def bankVags (hdr body : Bytes) : List (Option Vag) :=
  walkBody hdr body (tableAddress (u16le hdr 18)) (u16le hdr 22)

theorem loadTone_bankMaster (hdr : Bytes) (pcm : List (Option Vag)) (p : Fin 128) (vol : Nat) (s : State) (r : Nat) :
    (loadTone hdr pcm p vol s r).bankMaster = s.bankMaster := by
  rcases loadTone_cases hdr pcm p vol s r with e | ⟨g, -, -, e⟩
  · rw [e]
  · rw [e]
    rcases ensureTable_cases s with ⟨-, e⟩ | ⟨-, e⟩ <;> rw [e] <;> rfl

theorem loadBank_bankMaster (hdr body : Bytes) (s : State) : (s.loadBank hdr body).bankMaster = hdr.getD 24 0 :=
  loadBank_keeps (P := fun t => t.bankMaster = hdr.getD 24 0) hdr body s
    (fun t p vol r ht => (loadTone_bankMaster hdr _ p vol t r).trans ht) (ofNat_u8 hdr 24)

/-- A load cuts the voices that the unload cuts, and leaves the registers outside the bank alone. -/
theorem loadBank_unloadAll_frame (hdr body : Bytes) (s : State) :
    let u := s.unloadAll.loadBank hdr body
    u.voices = s.unloadAll.voices ∧
      u = { s with voices := u.voices, prog := u.prog, bankMaster := hdr.getD 24 0, rt := u.rt, rtBuilt := u.rtBuilt } := by
  intro u
  have hframe : u = { s.unloadAll with prog := u.prog, bankMaster := u.bankMaster, rt := u.rt, rtBuilt := u.rtBuilt } :=
    loadBank_frame hdr body s.unloadAll
  have hmaster : u.bankMaster = hdr.getD 24 0 := loadBank_bankMaster hdr body s.unloadAll
  have hvoices : u.voices = s.unloadAll.voices := (congrArg State.voices hframe).trans rfl
  refine ⟨hvoices, ?_⟩
  rw [hvoices, ← hmaster]
  exact hframe

theorem loadBank_fills {s : State} (hs : s.TableOk) (hempty : ∀ p : Fin 128, s.program p = Program.empty)
    (hdr body : Bytes) :
    (∀ p : Fin 128, ((s.loadBank hdr body).program p).tones = programTones hdr (bankVags hdr body) p) ∧
      TableAfter (∃ p : Fin 128, programTones hdr (bankVags hdr body) p ≠ []) s (s.loadBank hdr body) := by
  have hempty' : ∀ p ∈ List.finRange 128,
      (s.setBankMaster (BitVec.ofNat 8 (u8 hdr 24))).program p = Program.empty := fun p _ =>
    (program_congr (setBankMaster_prog s _) p).trans (hempty p)
  obtain ⟨htones, -, htable⟩ := loadPrograms_fill hdr (bankVags hdr body) (List.nodup_finRange 128)
    (s := s.setBankMaster (BitVec.ofNat 8 (u8 hdr 24))) hs hempty'
  refine ⟨fun p => htones p (List.mem_finRange p), fun ⟨p, hp⟩ => htable.built ⟨p, List.mem_finRange p, hp⟩,
    fun hnone => htable.kept fun ⟨p, _, hp⟩ => hnone ⟨p, hp⟩⟩

/-- Settles O48: the programs loaded one after another into the unloaded state, the VAGs standing where `vagPos` says. -/
theorem bankLoadFills : Obligations.BankLoadFills := by
  intro s hdr body count vags hs hcount hvags hlen hne htables size
  obtain rfl : count = u16le hdr 18 := hcount
  obtain rfl : vags = u16le hdr 22 := hvags
  have hacc : bankAccepted hdr = true := (bankAccepted_iff hdr).2 ⟨hlen, hne, htables⟩
  have hexec := exec_bankLoad_of_accepted hacc body s
  obtain ⟨hvoices, hframe⟩ := loadBank_unloadAll_frame hdr body s
  obtain ⟨htones, htable⟩ := loadBank_fills (s := s.unloadAll) hs (unloadAll_program s) hdr body
  -- The loaded state is opaque from here on: its fields are never to be computed by unfolding the load.
  generalize s.unloadAll.loadBank hdr body = u at hexec hvoices hframe htones htable
  refine ⟨u.withResult (.bool true), vagPos hdr body (tableAddress (u16le hdr 18)), hexec, rfl,
    fun k hk => vagPos_succ hdr body _ hk, congrArg (State.withResult · (.bool true)) hframe, ?built, ?kept,
    fun i => (voice_congr hvoices i).trans (unloadAll_voice s i), fun p hp => ?tones⟩
  case built =>
    rintro ⟨p, hp, hsome⟩
    exact htable.built ⟨⟨p, hp⟩, fun hnone => hsome ((htones ⟨p, hp⟩).trans hnone)⟩
  case kept =>
    intro hnone
    exact htable.kept fun ⟨p, hsome⟩ => hsome ((htones p).symm.trans (hnone p p.isLt))
  case tones =>
    refine (htones ⟨p, hp⟩).trans (List.filterMap_congr fun r _ => ?_)
    rw [bankVags, recordTone_walkBody]
    simp only [toneOf, noteRange_eq_min_max, ofNat_u8]
    rfl

end BankLoader
end Sys2Proof.Proofs

/-! ## The exceptions of a turn (60_exceptions.md R380, R381)

A turn whose fetch fails takes the exception on the `enteredSlot` of a turn that runs its event: the slot stops there,
and as it is Idle then, the turn reads no delay. -/

namespace Sys2Proof.Proofs
section Exceptions

open Sys2Proof Sys2Proof.Machine

theorem fetchEvent_setSlot_spend (s : State) (k : Fin 16) :
    (s.setSlot k (s.slot k).spend).fetchEvent k = decodeEvent (s.slot k).running (s.slot k).stream := by
  rw [State.fetchEvent, slot_setSlot_self]; rfl

theorem passEvent_setSlot_spend (s : State) (k : Fin 16) (f : EventFetch) :
    (s.setSlot k (s.slot k).spend).passEvent k f = s.setSlot k (enteredSlot (s.slot k) f) := by
  rw [State.passEvent, slot_setSlot_self, setSlot_setSlot]; rfl

/-- The exception of a failing fetch, its record naming the cursor at which the fetch began. -/
theorem execEventAt_of_error {s : State} {k : Fin 16} {e : StreamError} (he : (s.fetchEvent k).result = .error e) :
    s.execEventAt k = (s.passEvent k (s.fetchEvent k)).raiseStream k (s.slot k).cursor e := by
  rcases execEventAt_cases s k with ⟨i, _, hi, -⟩ | ⟨e', he', h⟩
  · rw [he] at hi; cases hi
  · rw [he] at he'; cases he'; exact h

/-- Taking the exception on a slot just written leaves that slot's new contents stopped, and the record appended. -/
theorem raiseStream_setSlot (s : State) (k : Fin 16) (x : Slot) (cursor : Nat) (e : StreamError) :
    (s.setSlot k x).raiseStream k cursor e = (s.setSlot k x.stopped).emit (streamDiag e k cursor) := by
  rw [raiseStream_eq, State.raiseSlot, slot_setSlot_self, setSlot_setSlot]

/-- A taken exception leaves the slot Idle, so that the turn reads no delay after it (60_exceptions.md R381). -/
theorem raiseStream_slot_active (s : State) (k : Fin 16) (cursor : Nat) (e : StreamError) :
    ((s.raiseStream k cursor e).slot k).active = false := by
  rw [raiseStream_eq, raiseSlot_slot_self]

/-- A turn whose fetch fails ends with the taking of the exception on the slot past the bytes fetched. -/
theorem stepEvent_of_error {s : State} {k : Fin 16} {e : StreamError} {f : EventFetch}
    (hf : decodeEvent (s.slot k).running (s.slot k).stream = f) (he : f.result = .error e) :
    s.stepEvent k =
      (s.setSlot k (enteredSlot (s.slot k) f).stopped).emit (streamDiag e k (s.slot k).cursor) := by
  have hfetch : (s.setSlot k (s.slot k).spend).fetchEvent k = f := (fetchEvent_setSlot_spend s k).trans hf
  have hcursor : ((s.setSlot k (s.slot k).spend).slot k).cursor = (s.slot k).cursor := by
    rw [slot_setSlot_self]; rfl
  have hevent : (s.setSlot k (s.slot k).spend).execEventAt k =
      (s.setSlot k (enteredSlot (s.slot k) f)).raiseStream k (s.slot k).cursor e := by
    rw [execEventAt_of_error (hfetch ▸ he), hfetch, passEvent_setSlot_spend, hcursor]
  rw [State.stepEvent, hevent, raiseStream_slot_active, ← raiseStream_setSlot]; rfl

/-- Settles O16: the turn of `stepEvent_of_error`, its record written out for each of the two errors. -/
theorem turnTakesStreamException : Obligations.TurnTakesStreamException := by
  intro s k e f hf he
  rw [stepEvent_of_error hf he]
  cases e <;> rfl

end Exceptions
end Sys2Proof.Proofs

/-! ## Reset (70_reset_and_hazards.md R400)

A state is `Quiet` when nothing can sound in it. A frame of such a state advances `wp` and nothing else, and reset
is one. -/

namespace Sys2Proof.Proofs
section Reset

open Sys2Proof Sys2Proof.Machine

/-! ### Frames without sound (43_pool_mixer.md R251 to R256) -/

/-- Every voice inactive with its last output 0, and the delay line empty. -/
structure Quiet (s : State) : Prop where
  inactive : ∀ i : Fin 127, (s.voice i).active = false
  lastOut : ∀ i : Fin 127, (s.voice i).lastOut = 0
  delayLine : s.delayLine = []

theorem quiet_reset : Quiet State.reset :=
  ⟨fun i => by rw [voice_reset]; rfl, fun i => by rw [voice_reset]; rfl, rfl⟩

/-- Nothing that `Quiet` speaks of depends on `wp`. -/
theorem Quiet.withWp {s : State} (h : Quiet s) (w : Fin Config.reverbLen) : Quiet { s with wp := w } :=
  ⟨h.inactive, h.lastOut, h.delayLine⟩

theorem zeroed_lastOut_eq_self {v : Voice} (h : v.lastOut = 0) : { v with lastOut := 0 } = v := by
  rw [← h]

theorem mixVoice_of_inactive {x : MixState} {i : Fin 127} (h : (x.state.voice i).active = false) :
    mixVoice x i = { x with state := x.state.setVoice i { x.state.voice i with lastOut := 0 } } :=
  if_neg (Bool.eq_false_iff.1 h)

/-- The part of a voice in a quiet state changes neither the state nor the sums. -/
theorem mixVoice_of_quiet {x : MixState} (h : Quiet x.state) (i : Fin 127) : mixVoice x i = x := by
  rw [mixVoice_of_inactive (h.inactive i), zeroed_lastOut_eq_self (h.lastOut i), setVoice_voice]

theorem mixVoices_of_quiet {s : State} (h : Quiet s) :
    mixVoices s = { state := s, sum := { left := 0, right := 0 } } :=
  List.foldl_fixed' (mixVoice_of_quiet (x := { state := s, sum := { left := 0, right := 0 } }) h) _

/-- No sound goes into an empty delay line and none comes out of it. -/
theorem reverbWrite_of_quiet {s : State} (h : Quiet s) :
    s.reverbWrite { left := 0, right := 0 } = { s with wp := nextEntry s.wp } := by
  have hline : s.delayLine.write s.wp ((0 + 0) / 2 + openTimes Config.reverbDecay (s.delayLine.read s.wp)) =
      s.delayLine := by
    simp [h.delayLine, Memory.write]
  rw [State.reverbWrite, hline]

theorem reverbOut_of_quiet {s : State} (h : Quiet s) :
    s.reverbOut { left := 0, right := 0 } = { left := 0, right := 0 } := by
  simp [State.reverbOut, h.delayLine]

theorem frame_of_quiet {s : State} (h : Quiet s) :
    frame s = { state := { s with wp := nextEntry s.wp }, out := [0, 0] } := by
  simp only [frame, mixVoices_of_quiet h, reverbWrite_of_quiet h, reverbOut_of_quiet h, outputOf_zero]

theorem frames_of_quiet {s : State} (h : Quiet s) (n : Nat) :
    ∃ w, frames n s = { state := { s with wp := w }, out := List.replicate (2 * n) 0 } := by
  induction n generalizing s with
  | zero => exact ⟨s.wp, rfl⟩
  | succ n ih =>
    obtain ⟨w, hw⟩ := ih (h.withWp (nextEntry s.wp))
    exact ⟨w, by rw [frames, frame_of_quiet h, hw]; rfl⟩

/-- Without an active voice there is no tone that could be gone. -/
theorem Quiet.tonesLive {s : State} (h : Quiet s) : s.tonesLive = true :=
  (tonesLive_iff s).2 fun i hi => absurd hi (Bool.eq_false_iff.1 (h.inactive i))

/-- Settles O35: every frame from reset is one without sound, and no slot has a part in an update. -/
theorem generateAudioAtReset : Obligations.GenerateAudioAtReset := by
  refine ⟨fun n => ?_, fun dt => ?_⟩
  · obtain ⟨w, hw⟩ := frames_of_quiet quiet_reset (frameCap n)
    rw [exec_generateAudio_of_tonesLive quiet_reset.tonesLive, hw]
    exact ⟨_, rfl, rfl⟩
  · rw [exec_seqUpdate, updateSlots_idle dt _ _ fun k _ => by rw [slot_reset]; rfl]
    rfl

/-! ### The rules of Sys2Proof/Safety.lean at reset -/

theorem voicesOk_reset : State.reset.VoicesOk := fun i => by
  rw [voice_reset]
  exact ⟨reset_voice_ok, fun hactive => Bool.noConfusion hactive⟩

theorem slot_reset_ok : Slot.reset.Ok where
  active_iff := by decide
  header _ hbuf := nomatch hbuf
  cursor_low hactive := nomatch hactive
  cursor_high _ hbuf := nomatch hbuf
  tempo_pos hactive := nomatch hactive
  acc_nonneg := le_refl 0
  wait_range := by decide
  running_range := .inl rfl
  channels := initial_channel_ok

theorem ok_reset : State.reset.Ok where
  voices := voicesOk_reset
  tones p := by rw [program_reset]; exact program_empty_ok
  slots k := by rw [slot_reset]; exact slot_reset_ok
  table hbuilt := nomatch hbuilt
  line := reset_line

/-! ### The values of the reset table -/

theorem fm_reset (i : Fin 127) : State.reset.fm[i] = false := by
  simp [State.reset]

/-- Channel `c` of a slot after reset plays program `c` (10_state.md R28). -/
theorem channel_slot_reset (c : BitVec 4) :
    Slot.reset.channel c = { volume := 127, pan := 64, expression := 127, program := c.setWidth 8 } := by
  revert c
  decide

theorem channel_reset (k : Fin 16) (c : BitVec 4) :
    State.reset.channel k c = { volume := 127, pan := 64, expression := 127, program := c.setWidth 8 } := by
  rw [State.channel, slot_reset, channel_slot_reset]

/-- Settles O57: the rules by `ok_reset`, the table register by register. -/
theorem resetOk : Obligations.ResetOk := by
  refine ⟨ok_reset, fun i => ⟨fm_reset i, voice_reset i⟩, rfl, fun k => ?_, channel_reset, fun p _ => ?_, rfl, rfl,
    Memory.read_nil, rfl, rfl⟩
  · rw [slot_reset]; rfl
  · rw [program_reset]; rfl

end Reset
end Sys2Proof.Proofs
